-- ==== Sys2Proof/Word.lean ====
section
/-!
DEFINITION. The widths of the block: bytes of the streams, 32-bit registers and binary32 patterns,
the RGBE quad and the pixel triple (R10, R23, R48, R70).
-/

namespace Sys2Proof

/-- A byte of BIN, BOUT or the scanline buffer; always unsigned (R9). -/
abbrev Byte := BitVec 8

/-- A host register, a `CMD` word, or a binary32 pattern (R10, R23). -/
abbrev Word := BitVec 32

/-- One RGBE quad, in stream order `r, g, b, e` (R70). -/
structure Quad where
  r : Byte
  g : Byte
  b : Byte
  e : Byte
  deriving DecidableEq, Repr

/-- The four bytes of a quad as they stand on a stream (R56, R70). -/
def Quad.bytes (q : Quad) : List Byte := [q.r, q.g, q.b, q.e]

/-- One pixel on PIN or POUT: three binary32 patterns (R48, R57). -/
structure Pixel where
  r : Word
  g : Word
  b : Word
  deriving DecidableEq, Repr

end Sys2Proof
end

