-- ==== Sys2Proof/Config.lean ====
section
/-!
DEFINITION. The fixed parameters of the hardware, as the table of R7 gives them. R7: "No parameter is
left open: every value above is fixed for this hardware." The one thing left open is the content of
`SB` after reset (R45).
-/

namespace Sys2Proof.Config

/-- `RLE_MIN_WIDTH` (R7, R8). -/
abbrev rleMinWidth : Nat := 8

/-- `RLE_MAX_WIDTH` (R7, R8). -/
abbrev rleMaxWidth : Nat := 32767

/-- `NUM_PLANES` (R7). -/
abbrev numPlanes : Nat := 4

/-- `MIN_RUN`: the shortest run the plane encoder searches for (R7, R130). -/
abbrev minRun : Nat := 4

/-- `MAX_RUN`: the longest run of one token (R7, R130, R132). -/
abbrev maxRun : Nat := 127

/-- `MAX_LITERAL`: the longest literal span of one token (R7, R130, R134). -/
abbrev maxLiteral : Nat := 128

/-- `DEC_EXP_OFFSET` (R7, R95). -/
abbrev decExpOffset : Nat := 136

/-- `ENC_EXP_OFFSET` (R7, R104). -/
abbrev encExpOffset : Nat := 128

/-- The exponent of `MANT_SCALE = 256 = 2^8` (R7, R99). -/
abbrev mantBits : Nat := 8

/-- `BLACK_THRESHOLD = 10^-32`, by its reciprocal (R7, R100). -/
abbrev blackReciprocal : Nat := 10 ^ 32

/-- `MARKER_BYTE` (R7, R71). -/
abbrev markerByte : Byte := 0x02#8

/-- `SB_CAPACITY` (R7, R38). -/
abbrev sbCapacity : Nat := 131068

/-- The free value of U5: the byte at index `i` of `SB` that nothing has written since the `n`-th time the
content of `SB` was left unspecified (R38, R45). Nothing constrains it (log entry 5, DESIGN CHOICE, unsafe). -/
opaque unwrittenSB (n i : Nat) : Byte

end Sys2Proof.Config
end

