-- ==== Sys2Proof/Syntax.lean ====
section
/-!
DEFINITION. The instructions of the block: one constructor per row of spec/opcode_table.json. The rows
are of three kinds: the command words of `CMD` (R68, R69, R81), the units the decoder reads from BIN
(R70 to R75), and the host's register accesses (R151).
-/

namespace Sys2Proof

/-- The width of a host access. Only a whole word reaches a register (R23, R58). -/
inductive AccessSize where
  | byte
  | half
  | word
  deriving DecidableEq, Repr

/-- One host register access, format `HOSTBUS` (R67, R151): an 8-bit byte offset into the window (R48),
the width of the access (R58) and, for a write, the data. -/
inductive BusAccess where
  | read (size : AccessSize) (off : BitVec 8)
  | write (size : AccessSize) (off : BitVec 8) (x : Word)
  deriving DecidableEq, Repr

/-- One constructor per row of spec/opcode_table.json. -/
inductive Instr where
  /-- CLEAR, `CMD` word 0 (R150). -/
  | clear
  /-- CVT_DEC, `CMD` word 1 (R98). -/
  | cvtDec
  /-- CVT_ENC, `CMD` word 2 (R106). -/
  | cvtEnc
  /-- FLAT_RD, `CMD` word 3 (R110). -/
  | flatRd
  /-- FLAT_WR, `CMD` word 4 (R112). -/
  | flatWr
  /-- SCAN_DEC, `CMD` word 5 (R115). -/
  | scanDec
  /-- SCAN_ENC, `CMD` word 6 (R129). -/
  | scanEnc
  /-- IMG_DEC, `CMD` word 7 (R142). -/
  | imgDec
  /-- IMG_ENC, `CMD` word 8 (R145). -/
  | imgEnc
  /-- ILLEGAL: a `CMD` word `x` with reserved bits set or a reserved opcode (R81, R152). -/
  | illegal (x : Word)
  /-- MARKER: `02 02 0hhhhhhh llllllll`, the opening of an RLE scanline (R71). -/
  | marker (hi : BitVec 7) (lo : Byte)
  /-- NONMARKER: four bytes at a scanline start that are no marker; a flat pixel (R82, R121). -/
  | nonmarker (b0 b1 b2 b3 : Byte)
  /-- RUN: `1nnnnnnn vvvvvvvv`, `n` not 0 (R72, R73). -/
  | run (n : BitVec 7) (v : Byte)
  /-- LIT: `0nnnnnnn v1`, `n` not 0: the 2-byte token read of R118. The data bytes `v2 .. vn` follow on
  BIN and are pulled while the token executes (R74, R120). -/
  | lit (n : BitVec 7) (v : Byte)
  /-- LIT128: `10000000 v1`, a literal of 128 bytes; `v2 .. v128` follow on BIN (R72, R120). -/
  | lit128 (v : Byte)
  /-- ZERO: the illegal count byte 0 with the byte read after it (R75). -/
  | zero (x : Byte)
  /-- QUAD: one pixel of flat data (R70, R109). -/
  | quad (r g b e : Byte)
  /-- REG_RD: host register read (R151). -/
  | regRd (size : AccessSize) (off : BitVec 8)
  /-- REG_WR: host register write (R151). -/
  | regWr (size : AccessSize) (off : BitVec 8) (x : Word)
  deriving DecidableEq, Repr

end Sys2Proof
end

