-- ==== Sys2Proof/Decode.lean ====
section
/-!
DEFINITION. Decoding and encoding. What bytes or a word mean depends on where they stand (R80): a word
written to `CMD`, four bytes at a scanline start, the two bytes of a plane token, four bytes of a flat
stream, or a host register access. Every such word decodes to exactly one instruction; a byte list that
ends inside a unit is rejected by name.
-/

namespace Sys2Proof

/-- Where on the byte stream a unit stands (R77, R78, R80). -/
inductive StreamContext where
  /-- At the start of an RLE scanline: MARKER or NONMARKER (R116). -/
  | scanStart
  /-- At the start of a token of a plane: RUN, LIT, LIT128 or ZERO (R118). -/
  | planeToken
  /-- In a flat stream: QUAD (R76). -/
  | flat
  deriving DecidableEq, Repr

/-- Why bytes do not decode. -/
inductive DecodeError where
  /-- The bytes end inside the unit. Raised by `decodeStream`; the engine then pulls one more byte
  (R52), so this is safe. -/
  | truncated (ctx : StreamContext) (have_ : Nat)
  deriving DecidableEq, Repr

/-- The words of one instruction, in one of the formats of R67. -/
inductive Encoding where
  /-- Format `CMD32`: a word written to `CMD` (R68). -/
  | cmd32 (x : Word)
  /-- Formats `QUAD`, `MARKER`, `RUN`, `LIT`, `ZERO`: bytes in stream order (R67). -/
  | stream (ctx : StreamContext) (bytes : List Byte)
  /-- Format `HOSTBUS` (R67, R151). -/
  | hostbus (a : BusAccess)
  deriving DecidableEq, Repr

/-! ## Fields -/

/-- `CMD.OP`, bits [3:0] (R68). -/
def cmdOp (x : Word) : BitVec 4 := x.extractLsb' 0 4

/-- `CMD.RSV`, bits [31:4] (R68). -/
def cmdRsv (x : Word) : BitVec 28 := x.extractLsb' 4 28

/-- Bits [6:0] of a byte: `n` of a count byte, `whi` of a marker (R71, R72). -/
def low7 (b : Byte) : BitVec 7 := b.extractLsb' 0 7

/-- A `CMD` word is legal exactly when `RSV = 0` and `OP` is one of the nine assigned values (R68). -/
abbrev legalCommandWord (x : Word) : Prop := cmdRsv x = 0#28 ∧ (cmdOp x).toNat < 9

/-- `is_marker` (R71): bytes 0 and 1 are 2 and bit 7 of byte 2 is clear. -/
def isMarker (b0 b1 b2 : Byte) : Bool := b0 == Config.markerByte && b1 == Config.markerByte && !b2.msb

/-! ## Decoding -/

/-- The opcode assignment (R69); a word with `RSV != 0` or `OP >= 9` is illegal (R81). -/
def decodeCommand (x : Word) : Instr :=
  if cmdRsv x = 0#28 then
    match (cmdOp x).toNat with
    | 0 => .clear
    | 1 => .cvtDec
    | 2 => .cvtEnc
    | 3 => .flatRd
    | 4 => .flatWr
    | 5 => .scanDec
    | 6 => .scanEnc
    | 7 => .imgDec
    | 8 => .imgEnc
    | _ => .illegal x
  else .illegal x

/-- Four bytes at a scanline start (R71, R116, R121). -/
def decodeScanStart (b0 b1 b2 b3 : Byte) : Instr :=
  if isMarker b0 b1 b2 then .marker (low7 b2) b3 else .nonmarker b0 b1 b2 b3

/-- The two bytes of a plane token (R72, R118). The count byte alone decides; 0x80 is a literal. -/
def decodeToken (c v : Byte) : Instr :=
  if c.toNat > 128 then .run (low7 c) v
  else if c.toNat = 128 then .lit128 v
  else if c.toNat = 0 then .zero v
  else .lit (low7 c) v

/-- The first unit of a byte list and the bytes after it, or the name of what is missing (R80). -/
def decodeStream : StreamContext → List Byte → Except DecodeError (Instr × List Byte)
  | .scanStart, b0 :: b1 :: b2 :: b3 :: rest => .ok (decodeScanStart b0 b1 b2 b3, rest)
  | .planeToken, c :: v :: rest => .ok (decodeToken c v, rest)
  | .flat, r :: g :: b :: e :: rest => .ok (.quad r g b e, rest)
  | ctx, bs => .error (.truncated ctx bs.length)

/-- A host register access (R151). -/
def decodeBus : BusAccess → Instr
  | .read size off => .regRd size off
  | .write size off x => .regWr size off x

/-- Decoding in every format (R67). -/
def decode : Encoding → Except DecodeError (Instr × List Byte)
  | .cmd32 x => .ok (decodeCommand x, [])
  | .stream ctx bs => decodeStream ctx bs
  | .hostbus a => .ok (decodeBus a, [])

/-! ## Encoding -/

/-- The words of an instruction, from the same tables (R69 to R75, R151). -/
def encode : Instr → Encoding
  | .clear => .cmd32 0x00000000#32
  | .cvtDec => .cmd32 0x00000001#32
  | .cvtEnc => .cmd32 0x00000002#32
  | .flatRd => .cmd32 0x00000003#32
  | .flatWr => .cmd32 0x00000004#32
  | .scanDec => .cmd32 0x00000005#32
  | .scanEnc => .cmd32 0x00000006#32
  | .imgDec => .cmd32 0x00000007#32
  | .imgEnc => .cmd32 0x00000008#32
  | .illegal x => .cmd32 x
  | .marker hi lo => .stream .scanStart [Config.markerByte, Config.markerByte, 0#1 ++ hi, lo]
  | .nonmarker b0 b1 b2 b3 => .stream .scanStart [b0, b1, b2, b3]
  | .run n v => .stream .planeToken [1#1 ++ n, v]
  | .lit n v => .stream .planeToken [0#1 ++ n, v]
  | .lit128 v => .stream .planeToken [0x80#8, v]
  | .zero x => .stream .planeToken [0x00#8, x]
  | .quad r g b e => .stream .flat [r, g, b, e]
  | .regRd size off => .hostbus (.read size off)
  | .regWr size off x => .hostbus (.write size off x)

/-! ## The opcode table's words -/

/-- Where an opcode-table word stands. The table has three kinds of rows with a word: `CMD32` rows
(32 bits, the number itself), the MARKER row (32 bits, "byte 0 in match/mask bits [31:24]"), and the
token rows (the count byte in bits [7:0], later bytes above it). A 32-bit word says nothing of which of
the first two it is: one that matches MARKER's match and mask is read as a marker, every other one as a
command word, so the rows QUAD and NONMARKER, whose mask is 0, have no word of their own here (log
entry 16, DEDUCED, safe). -/
def tableEncoding (nbits w : Nat) : Option Encoding :=
  if nbits = 0 then none
  else if nbits = 32 then
    let x := BitVec.ofNat 32 w
    let b0 : Byte := x.extractLsb' 24 8
    let b1 : Byte := x.extractLsb' 16 8
    let b2 : Byte := x.extractLsb' 8 8
    let b3 : Byte := x.extractLsb' 0 8
    if isMarker b0 b1 b2 then some (.stream .scanStart [b0, b1, b2, b3]) else some (.cmd32 x)
  else some (.stream .planeToken [BitVec.ofNat 8 w, BitVec.ofNat 8 (w / 256)])

/-- The instruction the decoder reads from an opcode-table word. -/
def decodeTableWord (nbits w : Nat) : Option Instr :=
  match tableEncoding nbits w with
  | none => none
  | some enc =>
    match decode enc with
    | .ok (i, _) => some i
    | .error _ => none

end Sys2Proof
end

