-- ==== Sys2Proof/Machine/Numeric.lean ====
section
/-!
DEFINITION. The arithmetic of the colour converter (40_color_converter.md), exactly, on integers. Every
finite binary32 value is an integer multiple of `2^-149`, so for a non-negative finite pattern `b` the
natural number `scaled b` is `val(b) * 2^149` (R10; log entry 9, DEDUCED, safe). Nothing is rounded (R93, R96).
-/

namespace Sys2Proof.Machine

/-- `2^-149` is the step of the binary32 subnormals (R96). -/
abbrev scaleBits : Nat := 149

/-- `sign(b)` (R10). -/
def f32Sign (b : Word) : Bool := b.msb

/-- `bexp(b)`, bits [30:23] (R10). -/
def f32Exp (b : Word) : Nat := (b.extractLsb' 23 8).toNat

/-- `frac(b)`, bits [22:0] (R10). -/
def f32Frac (b : Word) : Nat := (b.extractLsb' 0 23).toNat

/-- `|val(b)| * 2^149` for a finite pattern (R10). -/
def scaled (b : Word) : Nat :=
  if f32Exp b = 0 then f32Frac b else (2 ^ 23 + f32Frac b) * 2 ^ (f32Exp b - 1)

/-- `f32(n * 2^-149)` for an `n` that is exactly representable (R10). With `k` the number of bits of `n`
above 24, the pattern is `n / 2^k` with `k` added to the biased exponent; `k = 0` covers the
subnormals and the first binade alike. -/
def f32OfScaled (n : Nat) : Word :=
  let k := Nat.log2 n - 23
  BitVec.ofNat 32 (k * 2 ^ 23 + n / 2 ^ k)

/-! ## Decode -/

/-- One lane of `DecodeQuad` for `e != 0`: `f32(m * 2^(e-136))` (R95). -/
def decodeLane (m e : Byte) : Word :=
  f32OfScaled (m.toNat * 2 ^ (scaleBits + e.toNat - Config.decExpOffset))

/-- `DecodeQuad` (R95): exponent byte 0 is black whatever the mantissas. -/
def decodeQuad (q : Quad) : Pixel :=
  if q.e = 0#8 then { r := 0#32, g := 0#32, b := 0#32 }
  else { r := decodeLane q.r q.e, g := decodeLane q.g q.e, b := decodeLane q.b q.e }

/-! ## Encode -/

/-- `San` (R101): NaNs, -0 and negative values become +0; +infinity the largest finite value. -/
def sanitize (x : Word) : Word :=
  if f32Exp x = 255 then
    if f32Frac x ≠ 0 then 0x00000000#32
    else if f32Sign x then 0x00000000#32
    else 0x7F7FFFFF#32
  else if f32Sign x then 0x00000000#32
  else x

/-- The black test `v < 10^-32`, on the real value (R99, R100). -/
abbrev isBlack (v : Nat) : Prop := v * Config.blackReciprocal < 2 ^ scaleBits

/-- `e2` of `frexp(v)`, for `v > 0` (R10, R99): `2^(e2-1) <= v < 2^e2`. -/
def frexpExp (v : Nat) : Int := (Nat.log2 v : Int) + 1 - scaleBits

/-- `floor(c * 2^(8 - e2))` (R99). A lane's value is an integer multiple of `2^-149`, so this is the
quotient of `c` by `2^(149 - 8 + e2)`. -/
def laneMantissa (c : Nat) (e2 : Int) : Nat := c / 2 ^ (scaleBits - Config.mantBits + e2).toNat

/-- `(e2 + 128) mod 256` (R104). -/
def exponentByte (e2 : Int) : Byte := BitVec.ofInt 8 (e2 + Config.encExpOffset)

/-- `EncodePixel` (R99), on sanitized lanes. -/
def encodePixel (p : Pixel) : Quad :=
  let r := scaled (sanitize p.r)
  let g := scaled (sanitize p.g)
  let b := scaled (sanitize p.b)
  let v := max r (max g b)
  if isBlack v then { r := 0#8, g := 0#8, b := 0#8, e := 0#8 }
  else
    let e2 := frexpExp v
    { r := BitVec.ofNat 8 (laneMantissa r e2), g := BitVec.ofNat 8 (laneMantissa g e2),
      b := BitVec.ofNat 8 (laneMantissa b e2), e := exponentByte e2 }

end Sys2Proof.Machine
end

