-- ==== Sys2Proof/Machine/State.lean ====
section
/-!
DEFINITION. The state of the block (10_state.md) and, as fields of the model's own, what the host has
presented on the ports and what it will do next (R47 says these are the host's; the step is one function
of State, so State holds them; log
entries 2 and 14, DESIGN CHOICE, unsafe).
-/

namespace Sys2Proof.Machine

/-! ## Status values -/

/-- `STATUS.ERR` (R26, R153). The values 6 and 7 do not exist: "never written". -/
inductive ErrKind where
  | none
  | read
  | write
  | format
  | config
  | illegal
  deriving DecidableEq, Repr

/-- `STATUS.CAUSE` (R26, R154). The values 5 to 7 do not exist: "never written". -/
inductive Cause where
  | none
  | wrongWidth
  | zeroCount
  | runOverflow
  | literalOverflow
  deriving DecidableEq, Repr

/-- `STATUS.MODE` (R39). -/
inductive Mode where
  | rle
  | flat
  deriving DecidableEq, Repr

/-- One of the four byte planes of the scanline buffer, in the order they are coded (R7, R123, R138). -/
inductive Plane where
  | r
  | g
  | b
  | e
  deriving DecidableEq, Repr

/-- `ERRINFO.PHASE` (R33). -/
inductive Phase where
  | none
  | marker
  | plane
  | flat
  deriving DecidableEq, Repr

/-- `ERRINFO` by field (R33, R156). -/
structure ErrInfo where
  phase : Phase
  plane : Plane
  pos : BitVec 15
  deriving DecidableEq, Repr

/-- The fields of `STATUS` that are stored; `BUSY` is the engine's (R26, R40). -/
structure Status where
  done : Bool
  err : ErrKind
  cause : Cause
  mode : Mode
  op : BitVec 4
  deriving DecidableEq, Repr

/-! ## Registers -/

/-- The host registers that hold operands, geometry and results (R24, R25, R27 to R32). -/
structure Regs where
  cmd : Word
  width : Word
  height : Word
  ypos : Word
  count : Word
  quad : Word
  fr : Word
  fg : Word
  fb : Word
  deriving DecidableEq, Repr

/-- The progress counters `INCOUNT`, `OUTCOUNT`, `PIXCOUNT` (R34 to R36). -/
structure Counters where
  incount : Word
  outcount : Word
  pixcount : Word
  deriving DecidableEq, Repr

/-! ## The engine -/

/-- The commands that can be seen running (R40). -/
inductive Op where
  | flatRd
  | flatWr
  | scanDec
  | scanEnc
  | imgDec
  | imgEnc
  deriving DecidableEq, Repr

/-- The phase of the plane encoder (R42, R137). -/
inductive EncPhase where
  | scanning
  | emittingLiteral
  | emittingRun
  deriving DecidableEq, Repr

/-- A token the plane encoder has produced: the plane position `cur` where its bytes begin (R128), the
phase that produced it (R137) and its bytes. -/
structure Token where
  start : Nat
  phase : EncPhase
  bytes : List Byte
  deriving DecidableEq, Repr

/-- The position `k` of a running command in its rule's pseudocode, with the local variables it needs
there (R12, R40). -/
inductive Pos where
  /-- The command has entered `RUNNING`; nothing of its rule after the checks has run. -/
  | entry
  /-- `ScanDecode`: reading the four bytes of a scanline start; `buf` are those read (R116). -/
  | marker (buf : List Byte)
  /-- `FillPlane`: at a token of plane `p`, position `pos`; `buf` are its bytes read so far (R118). -/
  | token (p : Plane) (pos : Nat) (buf : List Byte)
  /-- `LiteralToken`: reading the `c - 1` data bytes after the first; `buf` are those read (R120). -/
  | litRest (p : Plane) (pos : Nat) (c : Nat) (buf : List Byte)
  /-- `EmitScanline`: pixel `i` is next (R124). -/
  | emit (i : Nat)
  /-- `FlatRead`: reading a quad; `left` more follow it; `buf` are the bytes read (R109, R121). -/
  | quad (left : Nat) (buf : List Byte)
  /-- `FlatWrite`: taking a pixel; `left` more follow it (R111). -/
  | pixel (left : Nat)
  /-- `FlatWrite`: writing a quad; `rest` are the bytes still to be written (R111). -/
  | quadOut (left : Nat) (rest : List Byte)
  /-- The flat part is over (R109, R111, R121). -/
  | flatDone
  /-- `ScanEncode`: writing the marker; `rest` are the bytes still to be written (R128). -/
  | markerOut (rest : List Byte)
  /-- `ScanEncode`: taking pixel `i` (R128). -/
  | pixIn (i : Nat)
  /-- `ScanEncode`: about to read plane `p` from `SB` (R128). -/
  | planeStart (p : Plane)
  /-- `EncodePlane`: at the head of the outer loop with this `cur`, the `Scanning` state (R130, R137). -/
  | planeScan (p : Plane) (data : List Byte) (cur : Nat)
  /-- `WritePlane`: writing the tokens of one pass; `cur` is the plane position after it (R128, R130). -/
  | planeEmit (p : Plane) (data : List Byte) (toks : List Token) (cur : Nat)
  deriving DecidableEq, Repr

/-- The engine state (R40). -/
inductive Engine where
  | idle
  | running (op : Op) (k : Pos)
  deriving DecidableEq, Repr

/-! ## The host -/

/-- What the host presents on BIN: a byte, or the condition `FAIL` (R52). -/
inductive BinAnswer where
  | byte (b : Byte)
  | fail
  deriving DecidableEq, Repr

/-- The four ports as the host has set them up (R49, R83). -/
structure Ports where
  /-- Answers presented on BIN and not yet pulled. -/
  bin : List BinAnswer
  /-- `EOS` (R83): with nothing presented, a pull is answered `FAIL` and does not wait. -/
  binEos : Bool
  /-- Bytes BOUT has accepted, in order. -/
  bout : List Byte
  /-- Whether the host answers a push on BOUT at all; if not, the push waits (R53, R180). -/
  boutReady : Bool
  /-- `REJECT after n` (R83): `some n` accepts `n` more bytes and answers `FAIL` to the next. -/
  boutReject : Option Nat
  /-- Pixels presented on PIN and not yet taken. -/
  pin : List Pixel
  /-- Pixels POUT has accepted, in order. -/
  pout : List Pixel
  /-- Whether the host accepts a pixel offered on POUT; if not, the offer waits (R54, R180). -/
  poutReady : Bool
  deriving DecidableEq, Repr

/-- One action of the host, in the notation of R83 and R84 where it has one. -/
inductive HostAct where
  /-- `WR` and `RD`: one register access (R151). -/
  | bus (a : BusAccess)
  /-- `FEED`: answers made available on BIN, in order. -/
  | feed (answers : List BinAnswer)
  /-- `EOS`: later pulls are answered `FAIL`. -/
  | eos
  /-- `PIX`: one triple made available on PIN. -/
  | pix (p : Pixel)
  /-- `REJECT after n` on BOUT. -/
  | reject (n : Nat)
  /-- The host begins or stops answering BOUT (R180). -/
  | boutReady (on : Bool)
  /-- The host begins or stops accepting on POUT (R180). -/
  | poutReady (on : Bool)
  /-- `WAIT`: read `STATUS` until `BUSY = 0` (R84). -/
  | wait
  /-- The host does nothing for one step; the engine moves. -/
  | pause
  /-- The platform asserts `rst` (R173). -/
  | rst
  deriving DecidableEq, Repr

/-! ## State -/

/-- The bytes of the scanline buffer that were written since reset, as (index, byte) pairs, rising; an index
not listed holds an unspecified byte (R38, R45). -/
abbrev Memory := List Host.Cell

/-- The state of the block (10_state.md) and of its surroundings. -/
structure State where
  regs : Regs
  status : Status
  errinfo : ErrInfo
  counters : Counters
  engine : Engine
  sb : Memory
  /-- The model's own: how often the content of `SB` has been left unspecified before, which says which
  unspecified bytes its unwritten indices hold (U5, log entry 5, DESIGN CHOICE, unsafe). -/
  sbEpoch : Nat
  /-- The model's own: the ports as the host has set them up (R47, log entry 14, DESIGN CHOICE, unsafe). -/
  ports : Ports
  /-- The model's own: the host's coming actions (log entry 2, DESIGN CHOICE, unsafe). -/
  host : List HostAct
  /-- The model's own: the data the last register read returned (R151, log entry 13, DESIGN CHOICE, unsafe). -/
  rdata : Word
  deriving DecidableEq, Repr

/-- The way a run of the model can end that is no error of the hardware. -/
inductive Fault where
  /-- An access that reaches index `i - 1` of `SB`, outside 0..131067, where there is no byte (R48). Raised
  by `writeSB` and `readSB`. Safe: R50 says every rule keeps its accesses inside. -/
  | sbRange (i : Nat)
  deriving DecidableEq, Repr

/-- Why an instruction has no meaning. -/
inductive Refusal where
  /-- The instruction of this mnemonic is not modelled. Raised by an arm of `exec` only; no arm does.
  Safe. -/
  | notModelled (mnemonic : String)
  deriving DecidableEq, Repr

/-- No error information (R33). -/
def ErrInfo.zero : ErrInfo := { phase := .none, plane := .r, pos := 0#15 }

/-- Ports on which nothing has been presented or moved, with a host that answers its output ports
(log entry 14, DESIGN CHOICE, unsafe). -/
def Ports.initial : Ports :=
  { bin := [], binEos := false, bout := [], boutReady := true, boutReject := none,
    pin := [], pout := [], poutReady := true }

/-- The machine right after reset (R45, R175). -/
def State.reset : State :=
  { regs :=
      { cmd := 0#32, width := 0#32, height := 0#32, ypos := 0#32, count := 0#32, quad := 0#32,
        fr := 0#32, fg := 0#32, fb := 0#32 },
    status := { done := false, err := .none, cause := .none, mode := .rle, op := 0#4 },
    errinfo := ErrInfo.zero,
    counters := { incount := 0#32, outcount := 0#32, pixcount := 0#32 },
    engine := .idle,
    sb := [],
    sbEpoch := 0,
    ports := Ports.initial,
    host := [],
    rdata := 0#32 }

/-- The outcome of a step of this machine. -/
abbrev Result := Host.Outcome State Fault Refusal

end Sys2Proof.Machine
end

