-- ==== Sys2Proof/Machine/Flags.lean ====
section
/-!
DEFINITION. The status flags (R44) and the words the host reads them in: `STATUS` (R26), `ERRINFO` (R33),
`irq` (R43, R163).
-/

namespace Sys2Proof.Machine

/-- Whether the engine is `RUNNING` (R40). -/
def Engine.isRunning : Engine → Bool
  | .idle => false
  | .running _ _ => true

/-- `STATUS.BUSY`: "1 exactly when the state is `RUNNING`" (R40). -/
def State.busy (s : State) : Bool := s.engine.isRunning

/-- The completion line, equal at every instant to `STATUS.DONE` (R43, R163). -/
def State.irq (s : State) : Bool := s.status.done

/-- The codes of `STATUS.ERR` (R26, R153). -/
def ErrKind.code : ErrKind → BitVec 3
  | .none => 0#3
  | .read => 1#3
  | .write => 2#3
  | .format => 3#3
  | .config => 4#3
  | .illegal => 5#3

/-- The codes of `STATUS.CAUSE` (R26, R154). -/
def Cause.code : Cause → BitVec 3
  | .none => 0#3
  | .wrongWidth => 1#3
  | .zeroCount => 2#3
  | .runOverflow => 3#3
  | .literalOverflow => 4#3

/-- The codes of `STATUS.MODE` (R26, R39). -/
def Mode.code : Mode → BitVec 1
  | .rle => 0#1
  | .flat => 1#1

/-- The codes of `ERRINFO.PLANE` (R33). -/
def Plane.code : Plane → BitVec 2
  | .r => 0#2
  | .g => 1#2
  | .b => 2#2
  | .e => 3#2

/-- The codes of `ERRINFO.PHASE` (R33). -/
def Phase.code : Phase → BitVec 2
  | .none => 0#2
  | .marker => 1#2
  | .plane => 2#2
  | .flat => 3#2

/-- The word a read of `STATUS` returns (R26): `OP` [15:12], `MODE` [8], `CAUSE` [7:5], `ERR` [4:2],
`DONE` [1], `BUSY` [0], every other bit 0. -/
def State.statusWord (s : State) : Word :=
  0#16 ++ s.status.op ++ 0#3 ++ s.status.mode.code ++ s.status.cause.code ++ s.status.err.code
    ++ BitVec.ofBool s.status.done ++ BitVec.ofBool s.busy

/-- The word a read of `ERRINFO` returns (R33, R158): `PHASE` [19:18], `PLANE` [17:16], `POS` [14:0],
every other bit 0. -/
def ErrInfo.word (i : ErrInfo) : Word :=
  0#12 ++ i.phase.code ++ i.plane.code ++ 0#1 ++ i.pos

/-- The phase of the plane encoder, when a plane is being encoded (R42, R137). It is not host-visible.
With no token left to write, a pass goes back to the search. -/
def Engine.encPhase : Engine → Option EncPhase
  | .running _ (.planeStart _) => some .scanning
  | .running _ (.planeScan _ _ _) => some .scanning
  | .running _ (.planeEmit _ _ [] _) => some .scanning
  | .running _ (.planeEmit _ _ (t :: _) _) => some t.phase
  | _ => none

end Sys2Proof.Machine
end

