-- ==== Sys2Proof/Machine/Operands.lean ====
section
/-!
DEFINITION. Operand forms: the register window (R23, R24, R37, R58), the packing of quads (R57, R79), the
numbers taken from encodings (R79), and the planes of the scanline buffer (R50).
-/

namespace Sys2Proof.Machine

/-! ## Numbers -/

/-- The RLE eligibility predicate (R8). -/
abbrev rleOk (w : Nat) : Prop := Config.rleMinWidth ≤ w ∧ w ≤ Config.rleMaxWidth

/-- `WIDTH` as an integer. -/
def State.w (s : State) : Nat := s.regs.width.toNat

/-- `HEIGHT` as an integer. -/
def State.h (s : State) : Nat := s.regs.height.toNat

/-- `YPOS` as an integer. -/
def State.y (s : State) : Nat := s.regs.ypos.toNat

/-- The width a marker declares: `b2 * 256 + b3` with bit 7 of `b2` clear (R71, R79). -/
def markerWidth (hi : BitVec 7) (lo : Byte) : Nat := hi.toNat * 256 + lo.toNat

/-- The marker of width `w`: `(2, 2, w >> 8, w & 0xFF)` (R71, R79). -/
def markerBytes (w : Nat) : List Byte :=
  [Config.markerByte, Config.markerByte, BitVec.ofNat 8 (w / 256), BitVec.ofNat 8 (w % 256)]

/-- `QUAD = {e, b, g, r}` (R31, R57). -/
def packQuad (q : Quad) : Word := q.e ++ q.b ++ q.g ++ q.r

/-- The fields of `QUAD` (R31, R57, R98). -/
def unpackQuad (x : Word) : Quad :=
  { r := x.extractLsb' 0 8, g := x.extractLsb' 8 8, b := x.extractLsb' 16 8, e := x.extractLsb' 24 8 }

/-! ## Planes of the scanline buffer -/

/-- The number of a plane (R33, R50). -/
def Plane.index : Plane → Nat
  | .r => 0
  | .g => 1
  | .b => 2
  | .e => 3

/-- The plane coded after this one (R123, R138). -/
def Plane.next : Plane → Option Plane
  | .r => some .g
  | .g => some .b
  | .b => some .e
  | .e => none

/-- Where byte `i` of plane `p` of a scanline of width `w` lies in `SB` (R50). -/
def planeAddr (w : Nat) (p : Plane) (i : Nat) : Nat := p.index * w + i

/-! ## The register window -/

/-- What a whole-word read at an offset returns (R24, R37); a reserved or misaligned offset returns 0. -/
def State.readReg (s : State) (off : BitVec 8) : Word :=
  match off.toNat with
  | 0x00 => s.regs.cmd
  | 0x04 => s.statusWord
  | 0x08 => s.regs.width
  | 0x0C => s.regs.height
  | 0x10 => s.regs.ypos
  | 0x14 => s.regs.count
  | 0x18 => s.regs.quad
  | 0x1C => s.regs.fr
  | 0x20 => s.regs.fg
  | 0x24 => s.regs.fb
  | 0x28 => s.errinfo.word
  | 0x2C => s.counters.incount
  | 0x30 => s.counters.outcount
  | 0x34 => s.counters.pixcount
  | _ => 0#32

/-- What a host read returns: 0 for an access narrower than a word (R58). -/
def State.readBus (s : State) (size : AccessSize) (off : BitVec 8) : Word :=
  match size with
  | .word => s.readReg off
  | .half => 0#32
  | .byte => 0#32

/-- The registers after a whole-word host write of `x` at an offset other than `CMD`'s: read-only,
reserved and misaligned offsets change nothing (R23, R24, R37, R58). -/
def Regs.write (r : Regs) (off : BitVec 8) (x : Word) : Regs :=
  match off.toNat with
  | 0x08 => { r with width := x }
  | 0x0C => { r with height := x }
  | 0x10 => { r with ypos := x }
  | 0x14 => { r with count := x }
  | 0x18 => { r with quad := x }
  | 0x1C => { r with fr := x }
  | 0x20 => { r with fg := x }
  | 0x24 => { r with fb := x }
  | _ => r

end Sys2Proof.Machine
end

