-- ==== Sys2Proof/Machine/Ops.lean ====
section
/-!
DEFINITION. The operations every meaning is written in: the start and the two ends of a command (R139,
R157, R158), the scanline buffer (R50, R51), the four port primitives (R52 to R55) and reset (R173).
-/

namespace Sys2Proof.Machine

/-! ## Start and end of a command -/

/-- The start of a command by a `CMD` write of `x` (R139): the word and its `OP` are stored; `DONE`,
`ERR`, `CAUSE`, `ERRINFO` and the counters are cleared; nothing else changes. -/
def State.start (s : State) (x : Word) : State :=
  { s with
    regs := { s.regs with cmd := x },
    status := { s.status with done := false, err := .none, cause := .none, op := x.extractLsb' 0 4 },
    errinfo := ErrInfo.zero,
    counters := { incount := 0#32, outcount := 0#32, pixcount := 0#32 } }

/-- The engine enters, or moves to, a position of a running command; `BUSY` is 1 (R40, R44). -/
def State.at (s : State) (op : Op) (k : Pos) : State := { s with engine := .running op k }

/-- `finish()`: the command ends successfully (R44, R157). -/
def State.finish (s : State) : State :=
  { s with
    status := { s.status with done := true, err := .none, cause := .none },
    engine := .idle }

/-- `raise E(cause, info)`: the command ends with an error, the one way an error is taken (R158). Nothing
else is saved; there is no handler and no return (R158, R161). -/
def State.raise (s : State) (err : ErrKind) (cause : Cause) (info : ErrInfo) : State :=
  { s with
    status := { s.status with done := true, err := err, cause := cause },
    errinfo := info,
    engine := .idle }

/-- `YPOS <- v` from the engine side (R29). -/
def State.setYpos (s : State) (v : Word) : State := { s with regs := { s.regs with ypos := v } }

/-- `STATUS.MODE <- m` (R39). -/
def State.setMode (s : State) (m : Mode) : State := { s with status := { s.status with mode := m } }

/-- The error information of a marker (R116, R128). -/
def markerInfo : ErrInfo := { phase := .marker, plane := .r, pos := 0#15 }

/-- The error information of a plane token that begins at `pos` (R118, R128). -/
def planeInfo (p : Plane) (pos : Nat) : ErrInfo := { phase := .plane, plane := p, pos := BitVec.ofNat 15 pos }

/-- The error information of a flat phase (41_flat_codec.md, R156). -/
def flatInfo : ErrInfo := { phase := .flat, plane := .r, pos := 0#15 }

/-- The `info` the calling rule set last, at each position (R156, R158). -/
def Pos.info : Pos → ErrInfo
  | .entry => ErrInfo.zero
  | .marker _ => markerInfo
  | .token p pos _ => planeInfo p pos
  | .litRest p pos _ _ => planeInfo p pos
  | .emit _ => ErrInfo.zero
  | .quad _ _ => flatInfo
  | .pixel _ => flatInfo
  | .quadOut _ _ => flatInfo
  | .flatDone => flatInfo
  | .markerOut _ => markerInfo
  | .pixIn _ => markerInfo
  | .planeStart p => planeInfo p 0
  | .planeScan p _ cur => planeInfo p cur
  | .planeEmit p _ toks cur =>
    match toks with
    | [] => planeInfo p cur
    | t :: _ => planeInfo p t.start

/-! ## The scanline buffer -/

/-- The byte a memory lists at `a`, if it lists one. -/
def Memory.read : Memory → Nat → Option Byte
  | [], _ => none
  | (k, v) :: m, a => if k = a then some v else Memory.read m a

/-- One byte written, keeping the list rising. -/
def Memory.write : Memory → Nat → Byte → Memory
  | [], a, b => [(a, b)]
  | (k, v) :: m, a, b =>
    if a < k then (a, b) :: (k, v) :: m
    else if k = a then (a, b) :: m
    else (k, v) :: Memory.write m a b

/-- `MemWrite(a, n, v)` on the list (R50). -/
def Memory.writeList : Memory → Nat → List Byte → Memory
  | m, _, [] => m
  | m, a, b :: bs => Memory.writeList (Memory.write m a b) (a + 1) bs

/-- `SB[i]`: the byte written there last, or the unspecified byte the index holds (R45, R50). -/
def Memory.byteAt (m : Memory) (epoch i : Nat) : Byte := (Memory.read m i).getD (Config.unwrittenSB epoch i)

/-- The bytes of `MemRead(a, n)` (R50). -/
def Memory.bytesAt (m : Memory) (epoch : Nat) : Nat → Nat → List Byte
  | _, 0 => []
  | a, n + 1 => Memory.byteAt m epoch a :: Memory.bytesAt m epoch (a + 1) n

/-- The canonical form: indices strictly rise and lie inside `SB` (R38, R48). An index that is not listed
holds an unspecified byte, which no listed byte is known to equal. -/
def Memory.wf : Memory → Bool
  | [] => true
  | [(k, _)] => decide (k < Config.sbCapacity)
  | (k, _) :: (k', v') :: m => decide (k < k') && Memory.wf ((k', v') :: m)

/-- `MemWrite(a, len bs, bs)`, then what follows it (R50, R51). -/
def writeSB (s : State) (a : Nat) (bs : List Byte) (next : State → Result) : Result :=
  if a + bs.length ≤ Config.sbCapacity then next { s with sb := Memory.writeList s.sb a bs }
  else .fault (.sbRange (a + bs.length))

/-- `MemRead(a, n)`, then what follows it (R50): it has no side effect and cannot fail (R51). -/
def readSB (s : State) (a n : Nat) (next : List Byte → Result) : Result :=
  if a + n ≤ Config.sbCapacity then next (Memory.bytesAt s.sb s.sbEpoch a n) else .fault (.sbRange (a + n))

/-! ## The port primitives -/

/-- One pull of `ReadExact` (R52): a byte is consumed and counted; `FAIL` raises `ReadError` with the
`info` of the engine's position; with nothing presented the engine waits and nothing changes (R171). -/
def pullByte (s : State) (info : ErrInfo) (next : Byte → State → Result) : Result :=
  match s.ports.bin with
  | .byte b :: rest =>
    next b { s with
      ports := { s.ports with bin := rest },
      counters := { s.counters with incount := s.counters.incount + 1#32 } }
  | .fail :: rest => .next ({ s with ports := { s.ports with bin := rest } }.raise .read .none info)
  | [] => if s.ports.binEos then .next (s.raise .read .none info) else .next s

/-- One push of `WriteExact` (R53): accepted, the byte is on BOUT and counted; refused, `WriteError` is
raised; with a host that does not answer the engine waits. -/
def pushByte (s : State) (info : ErrInfo) (b : Byte) (next : State → Result) : Result :=
  if s.ports.boutReady then
    match s.ports.boutReject with
    | some 0 => .next ({ s with ports := { s.ports with boutReject := none } }.raise .write .none info)
    | some (n + 1) =>
      next { s with
        ports := { s.ports with bout := s.ports.bout ++ [b], boutReject := some n },
        counters := { s.counters with outcount := s.counters.outcount + 1#32 } }
    | none =>
      next { s with
        ports := { s.ports with bout := s.ports.bout ++ [b] },
        counters := { s.counters with outcount := s.counters.outcount + 1#32 } }
  else .next s

/-- `PixPut(p)` (R54): the pixel is accepted and counted, or the engine waits. POUT cannot fail. -/
def putPixel (s : State) (p : Pixel) (next : State → Result) : Result :=
  if s.ports.poutReady then
    next { s with
      ports := { s.ports with pout := s.ports.pout ++ [p] },
      counters := { s.counters with pixcount := s.counters.pixcount + 1#32 } }
  else .next s

/-- `PixGet()` (R55): a pixel is taken and counted, or the engine waits. PIN cannot fail. -/
def takePixel (s : State) (next : Pixel → State → Result) : Result :=
  match s.ports.pin with
  | p :: rest =>
    next p { s with
      ports := { s.ports with pin := rest },
      counters := { s.counters with pixcount := s.counters.pixcount + 1#32 } }
  | [] => .next s

/-! ## Reset and the host's other actions -/

/-- `rst` (R173, R174): every piece of block state takes its reset value, whatever the engine was doing;
the ports and the host are not block state and stay (R45, R47). The content of `SB` is unspecified afresh
(R45). -/
def State.assertReset (s : State) : State :=
  { State.reset with sbEpoch := s.sbEpoch + 1, ports := s.ports, host := s.host, rdata := s.rdata }

/-- What the host's actions on the ports do (R83, R180; log entry 15, DESIGN CHOICE, unsafe). -/
def Ports.act (p : Ports) : HostAct → Ports
  | .feed answers => { p with bin := p.bin ++ answers, binEos := false }
  | .eos => { p with binEos := true }
  | .pix q => { p with pin := p.pin ++ [q] }
  | .reject n => { p with boutReject := some n }
  | .boutReady on => { p with boutReady := on }
  | .poutReady on => { p with poutReady := on }
  | .bus _ => p
  | .wait => p
  | .pause => p
  | .rst => p

end Sys2Proof.Machine
end

