-- ==== Sys2Proof/Machine/Convert.lean ====
section
/-!
DEFINITION. The conversion commands CVT_DEC and CVT_ENC (R98, R106). They touch no port and run to their
end inside the `CMD` write (R40). A `CMD` write while busy is ignored (R139, R181).
-/

namespace Sys2Proof.Machine

/-- The conversion registers `FR`, `FG`, `FB` as a pixel (R32). -/
def State.pixelRegs (s : State) : Pixel := { r := s.regs.fr, g := s.regs.fg, b := s.regs.fb }

/-- CVT_DEC (R98). -/
def execCvtDec (s : State) : Result :=
  if s.busy then .next s
  else
    let s := s.start 0x1#32
    let p := decodeQuad (unpackQuad s.regs.quad)
    .next ({ s with regs := { s.regs with fr := p.r, fg := p.g, fb := p.b } }.finish)

/-- CVT_ENC (R106). -/
def execCvtEnc (s : State) : Result :=
  if s.busy then .next s
  else
    let s := s.start 0x2#32
    .next ({ s with regs := { s.regs with quad := packQuad (encodePixel s.pixelRegs) } }.finish)

end Sys2Proof.Machine
end

