-- ==== Sys2Proof/Machine/Flat.lean ====
section
/-!
DEFINITION. The flat codec (41_flat_codec.md): the subroutines `FlatRead` and `FlatWrite`, the commands
FLAT_RD and FLAT_WR, and the stream unit QUAD.
-/

namespace Sys2Proof.Machine

/-- `FlatRead(n)`, from its head (R109): with `n = 0` it is over at once. -/
def flatReadFrom : Nat → Pos
  | 0 => .flatDone
  | n + 1 => .quad n []

/-- `FlatWrite(n)`, from its head (R111). -/
def flatWriteFrom : Nat → Pos
  | 0 => .flatDone
  | n + 1 => .pixel n

/-- FLAT_RD (R110): enters `RUNNING` at the `CMD` write (R40, R139). -/
def execFlatRd (s : State) : Result :=
  if s.busy then .next s else .next ((s.start 0x3#32).at .flatRd .entry)

/-- FLAT_WR (R112): enters `RUNNING` at the `CMD` write (R40, R139). -/
def execFlatWr (s : State) : Result :=
  if s.busy then .next s else .next ((s.start 0x4#32).at .flatWr .entry)

/-- QUAD, a quad of flat data whose four bytes have been read (R109): its pixel is put on POUT, or the
engine waits (R54); then the next quad is read. With the engine elsewhere its bytes are only data on
BIN that nothing asks for (R59; log entry 11, DESIGN CHOICE, safe). -/
def execQuad (r g b e : Byte) (s : State) : Result :=
  match s.engine with
  | .running op (.quad left _) =>
    putPixel s (decodeQuad { r, g, b, e }) fun s => .next (s.at op (flatReadFrom left))
  | _ => .next s

end Sys2Proof.Machine
end

