-- ==== Sys2Proof/Machine/Image.lean ====
section
/-!
DEFINITION. The whole-image commands IMG_DEC and IMG_ENC (R141, R142, R145). What they do after their
start is in Engine.lean.
-/

namespace Sys2Proof.Machine

/-- The configuration check of the whole-image commands (R155): `WIDTH` and `HEIGHT` not 0. -/
abbrev checkImage (s : State) : Prop := s.w ≠ 0 ∧ s.h ≠ 0

/-- IMG_DEC (R142). -/
def execImgDec (s : State) : Result :=
  if s.busy then .next s
  else
    let s := s.start 0x7#32
    if checkImage s then .next (s.at .imgDec .entry)
    else .next (s.raise .config .none ErrInfo.zero)

/-- IMG_ENC (R145). -/
def execImgEnc (s : State) : Result :=
  if s.busy then .next s
  else
    let s := s.start 0x8#32
    if checkImage s then .next (s.at .imgEnc .entry)
    else .next (s.raise .config .none ErrInfo.zero)

end Sys2Proof.Machine
end

