-- ==== Sys2Proof/Machine/ScanDecode.lean ====
section
/-!
DEFINITION. The scanline decoder (42_scanline_decode.md): the command SCAN_DEC and the stream units
MARKER, NONMARKER, RUN, LIT, LIT128 and ZERO. A unit is executed when its bytes have been read; with the
engine at another place its bytes are only data on BIN that nothing asks for (R59; log entry 11, DESIGN CHOICE, safe).
-/

namespace Sys2Proof.Machine

/-- `CheckScan()` (R126): whether a scanline command may run. -/
abbrev checkScan (s : State) : Prop := rleOk s.w ∧ s.h ≠ 0 ∧ s.y < s.h

/-- SCAN_DEC (R115): a configuration refusal is taken inside the `CMD` write (R40); else the engine
enters `RUNNING`. -/
def execScanDec (s : State) : Result :=
  if s.busy then .next s
  else
    let s := s.start 0x5#32
    if checkScan s then .next (s.at .scanDec .entry)
    else .next (s.raise .config .none ErrInfo.zero)

/-- MARKER (R116, R117): the declared width must equal `WIDTH`; then plane R is filled. -/
def execMarker (hi : BitVec 7) (lo : Byte) (s : State) : Result :=
  match s.engine with
  | .running op (.marker _) =>
    if markerWidth hi lo = s.w then .next (s.at op (.token .r 0 []))
    else
      .next (s.raise .format .wrongWidth
        { phase := .marker, plane := .r, pos := BitVec.ofNat 15 (markerWidth hi lo) })
  | _ => .next s

/-- NONMARKER, the fallback (R121): `MODE` becomes `FLAT`, and the four bytes are the first of the
`(h - y) * w` quads of the rest of the image. -/
def execNonmarker (b0 b1 b2 b3 : Byte) (s : State) : Result :=
  match s.engine with
  | .running op (.marker _) =>
    .next ((s.setMode .flat).at op (.quad ((s.h - s.y) * s.w - 1) [b0, b1, b2, b3]))
  | _ => .next s

/-- RUN (R119): `n` bytes of plane `p` from `pos` on become `v`, unless they overflow the plane. -/
def execRun (n : BitVec 7) (v : Byte) (s : State) : Result :=
  match s.engine with
  | .running op (.token p pos _) =>
    if n.toNat > s.w - pos then .next (s.raise .format .runOverflow (planeInfo p pos))
    else
      writeSB s (planeAddr s.w p pos) (List.replicate n.toNat v) fun s =>
        .next (s.at op (.token p (pos + n.toNat) []))
  | _ => .next s

/-- The literal token of count `c` in 1..128 (R120): overflow is tested before any further byte is read;
then the first data byte is written and the engine goes on to read the others. -/
def literalToken (c : Nat) (v : Byte) (s : State) : Result :=
  match s.engine with
  | .running op (.token p pos _) =>
    if c > s.w - pos then .next (s.raise .format .literalOverflow (planeInfo p pos))
    else writeSB s (planeAddr s.w p pos) [v] fun s => .next (s.at op (.litRest p pos c []))
  | _ => .next s

/-- LIT (R120), count byte 1..127. -/
def execLit (n : BitVec 7) (v : Byte) (s : State) : Result := literalToken n.toNat v s

/-- LIT128 (R72, R120), count byte 0x80. -/
def execLit128 (v : Byte) (s : State) : Result := literalToken 128 v s

/-- ZERO (R75, R120): `FormatError` with cause `ZERO_COUNT`; the byte read with the count is dropped. -/
def execZero (_x : Byte) (s : State) : Result :=
  match s.engine with
  | .running _ (.token p pos _) => .next (s.raise .format .zeroCount (planeInfo p pos))
  | _ => .next s

end Sys2Proof.Machine
end

