-- ==== Sys2Proof/Machine/ScanEncode.lean ====
section
/-!
DEFINITION. The command SCAN_ENC (R129). What it does after its start is in Engine.lean (R128).
-/

namespace Sys2Proof.Machine

/-- SCAN_ENC (R129): the same configuration check as SCAN_DEC (R126), then `RUNNING`. -/
def execScanEnc (s : State) : Result :=
  if s.busy then .next s
  else
    let s := s.start 0x6#32
    if checkScan s then .next (s.at .scanEnc .entry)
    else .next (s.raise .config .none ErrInfo.zero)

end Sys2Proof.Machine
end

