-- ==== Sys2Proof/Machine/System.lean ====
section
/-!
DEFINITION. Housekeeping and host accesses: CLEAR (R150), illegal words (R152), REG_RD and REG_WR (R151),
and the command a `CMD` write starts (R139).
-/

namespace Sys2Proof.Machine

/-- CLEAR (R150): the start of R139 and nothing more; the one command that ends with `DONE = 0`. -/
def execClear (s : State) : Result :=
  if s.busy then .next s else .next (s.start 0x0#32)

/-- `IllegalWord()` (R152): the word is stored and `IllegalCommand` raised. -/
def execIllegal (x : Word) (s : State) : Result :=
  if s.busy then .next s else .next ((s.start x).raise .illegal .none ErrInfo.zero)

/-- REG_RD (R151): the value is returned and nothing else changes, busy or not (R170). -/
def execRegRd (size : AccessSize) (off : BitVec 8) (s : State) : Result :=
  .next { s with rdata := s.readBus size off }

/-- `OnCmdWrite(x)` (R139): the rule of the opcode, or `IllegalWord`. -/
def onCmdWrite (x : Word) (s : State) : Result :=
  match decodeCommand x with
  | .clear => execClear s
  | .cvtDec => execCvtDec s
  | .cvtEnc => execCvtEnc s
  | .flatRd => execFlatRd s
  | .flatWr => execFlatWr s
  | .scanDec => execScanDec s
  | .scanEnc => execScanEnc s
  | .imgDec => execImgDec s
  | .imgEnc => execImgEnc s
  | _ => execIllegal x s

/-- REG_WR (R151): ignored while busy (R181) and when narrow (R58); at `CMD` it starts a command; else it
stores into the writable register at the offset, if there is one. -/
def execRegWr (size : AccessSize) (off : BitVec 8) (x : Word) (s : State) : Result :=
  if s.busy then .next s
  else
    match size with
    | .word =>
      if off = 0x00#8 then onCmdWrite x s else .next { s with regs := s.regs.write off x }
    | .half => .next s
    | .byte => .next s

end Sys2Proof.Machine
end

