-- ==== Sys2Proof/Machine/Dispatch.lean ====
section
/-!
DEFINITION. One arm per instruction of spec/opcode_table.json.
-/

namespace Sys2Proof.Machine

def exec (i : Instr) (s : State) : Host.Outcome State Fault Refusal :=
  match i with
  | .clear => Sys2Proof.Machine.execClear s
  | .cvtDec => Sys2Proof.Machine.execCvtDec s
  | .cvtEnc => Sys2Proof.Machine.execCvtEnc s
  | .flatRd => Sys2Proof.Machine.execFlatRd s
  | .flatWr => Sys2Proof.Machine.execFlatWr s
  | .scanDec => Sys2Proof.Machine.execScanDec s
  | .scanEnc => Sys2Proof.Machine.execScanEnc s
  | .imgDec => Sys2Proof.Machine.execImgDec s
  | .imgEnc => Sys2Proof.Machine.execImgEnc s
  | .illegal x => Sys2Proof.Machine.execIllegal x s
  | .marker hi lo => Sys2Proof.Machine.execMarker hi lo s
  | .nonmarker b0 b1 b2 b3 => Sys2Proof.Machine.execNonmarker b0 b1 b2 b3 s
  | .run n v => Sys2Proof.Machine.execRun n v s
  | .lit n v => Sys2Proof.Machine.execLit n v s
  | .lit128 v => Sys2Proof.Machine.execLit128 v s
  | .zero x => Sys2Proof.Machine.execZero x s
  | .quad r g b e => Sys2Proof.Machine.execQuad r g b e s
  | .regRd size off => Sys2Proof.Machine.execRegRd size off s
  | .regWr size off x => Sys2Proof.Machine.execRegWr size off x s

end Sys2Proof.Machine
end

