-- ==== Sys2Proof/Machine/PlaneEncode.lean ====
section
/-!
DEFINITION. The plane encoder `EncodePlane` as a pure function (R130 to R137), one pass of its outer loop
at a time. The variables `cur`, `beg`, `run`, `old` are those of R130.
-/

namespace Sys2Proof.Machine

/-- The inner loop of R130: the length of the candidate run at the head of `xs`, measured up to
`MAX_RUN` (R131, R132). Past the end of the plane the loop leaves `run = 1`. -/
def runAt : List Byte → Nat
  | [] => 1
  | x :: xs => min Config.maxRun (1 + (xs.takeWhile (· == x)).length)

/-- The variables of the search when it stops (R130). -/
structure Search where
  beg : Nat
  run : Nat
  old : Nat
  deriving DecidableEq, Repr

/-- The middle loop of R130: candidates from `beg` on until one qualifies or the plane ends (R131). The
first argument bounds the number of turns. -/
def searchRun (data : List Byte) : Nat → Nat → Nat → Nat → Search
  | 0, beg, run, old => { beg, run, old }
  | fuel + 1, beg, run, old =>
    if run < Config.minRun ∧ beg < data.length then
      searchRun data fuel (beg + run) (runAt (data.drop (beg + run))) run
    else { beg, run, old }

/-- The search of one pass, from `cur` (R130): `beg := cur`, `run := 0`, `old := 0`. Each turn but the
first advances `beg`, so this bound is never reached. -/
def search (data : List Byte) (cur : Nat) : Search := searchRun data (data.length + 2) cur 0 0

/-- The literal tokens of a span that begins at plane position `cur` (R134): chunks of at most
`MAX_LITERAL` bytes from the front. The first argument bounds their number. -/
def literalTokens : Nat → Nat → List Byte → List Token
  | 0, _, _ => []
  | fuel + 1, cur, xs =>
    if xs.isEmpty then []
    else
      let chunk := xs.take Config.maxLiteral
      { start := cur, phase := .emittingLiteral, bytes := BitVec.ofNat 8 chunk.length :: chunk }
        :: literalTokens fuel (cur + chunk.length) (xs.drop Config.maxLiteral)

/-- A run token (R73, R133, R135). -/
def runToken (start : Nat) (phase : EncPhase) (len : Nat) (v : Byte) : Token :=
  { start, phase, bytes := [BitVec.ofNat 8 (128 + len), v] }

/-- The `EmittingLiteral` part of a pass: the span `data[cur .. beg-1]` as a dangling short run (R133)
or as literals (R134). -/
def spanTokens (data : List Byte) (cur : Nat) (f : Search) : List Token :=
  if f.old > 1 ∧ f.old = f.beg - cur then
    [runToken cur .emittingLiteral f.old (data.getD cur 0#8)]
  else literalTokens (f.beg - cur) cur ((data.drop cur).take (f.beg - cur))

/-- The `EmittingRun` part of a pass: the qualifying run (R135). -/
def qualifyingTokens (data : List Byte) (f : Search) : List Token :=
  if f.run ≥ Config.minRun then [runToken f.beg .emittingRun f.run (data.getD f.beg 0#8)] else []

/-- One pass of the outer loop of R130: its tokens in order, and `cur` after it. -/
def encodePass (data : List Byte) (cur : Nat) : List Token × Nat :=
  let f := search data cur
  (spanTokens data cur f ++ qualifyingTokens data f,
    if f.run ≥ Config.minRun then f.beg + f.run else f.beg)

/-- The outer loop of R130. The first argument bounds the number of passes. -/
def planeTokens (data : List Byte) : Nat → Nat → List Token
  | 0, _ => []
  | fuel + 1, cur =>
    if cur < data.length then
      (encodePass data cur).1 ++ planeTokens data fuel (encodePass data cur).2
    else []

/-- `EncodePlane(data)` (R130). Each pass advances `cur`, so the bound is never reached (R136). -/
def encodePlane (data : List Byte) : List Byte :=
  (planeTokens data data.length 0).flatMap Token.bytes

end Sys2Proof.Machine
end

