-- ==== Sys2Proof/Machine/Engine.lean ====
section
/-!
DEFINITION. What the engine does in its own steps, between the instructions: the first actions of a
command, the port transfers, the loops over planes, pixels and scanlines (R109, R111, R116 to R128, R142,
R145); and how the next event of the machine is found: the next action of the host, or the stream unit
whose bytes the engine has read, or the engine's own next action.
-/

namespace Sys2Proof.Machine

/-! ## Scanlines and images -/

/-- The head of a scanline subroutine: the marker is read or written first (R116, R128). -/
def scanlineFrom (op : Op) (w : Nat) : Pos :=
  match op with
  | .scanEnc => .markerOut (markerBytes w)
  | .imgEnc => .markerOut (markerBytes w)
  | _ => .marker []

/-- The loop `while REG.YPOS < h` of the whole-image commands (R142, R145). -/
def nextScanline (op : Op) (s : State) : State :=
  if s.y < s.h then s.at op (scanlineFrom op s.w) else s.finish

/-- The end of a scanline (R116, R125, R128): `YPOS <- y + 1`; a scanline command is over, an image
command goes on. -/
def scanlineDone (op : Op) (s : State) : State :=
  let s := s.setYpos (s.regs.ypos + 1#32)
  match op with
  | .imgDec => nextScanline op s
  | .imgEnc => nextScanline op s
  | _ => s.finish

/-- The end of a flat part: a flat command is over (R110, R112); a fallback and the flat path of an
image command set `YPOS <- h` first (R121, R142, R145). -/
def flatEnd (op : Op) (s : State) : State :=
  match op with
  | .flatRd => s.finish
  | .flatWr => s.finish
  | _ => (s.setYpos s.regs.height).finish

/-- The first actions of a running command, up to its first port transfer (R110, R112, R116, R128, R142,
R145). -/
def beginCommand (op : Op) (s : State) : State :=
  match op with
  | .flatRd => s.at op (flatReadFrom s.regs.count.toNat)
  | .flatWr => s.at op (flatWriteFrom s.regs.count.toNat)
  | .scanDec => s.at op (scanlineFrom op s.w)
  | .scanEnc => s.at op (scanlineFrom op s.w)
  | .imgDec =>
    let s := s.setYpos 0#32
    if rleOk s.w then nextScanline op (s.setMode .rle)
    else (s.setMode .flat).at op (flatReadFrom (s.w * s.h))
  | .imgEnc =>
    let s := s.setYpos 0#32
    if rleOk s.w then nextScanline op (s.setMode .rle)
    else (s.setMode .flat).at op (flatWriteFrom (s.w * s.h))

/-! ## The engine's own steps -/

/-- Plane `p` of the decoder is full: the next plane (R123), or the pixels (R124). -/
def planeFilled (op : Op) (p : Plane) (s : State) : State :=
  match p.next with
  | some q => s.at op (.token q 0 [])
  | none => s.at op (.emit 0)

/-- Plane `p` of the encoder is written: the next plane (R138), or the end of the scanline (R128). -/
def planeWritten (op : Op) (p : Plane) (s : State) : State :=
  match p.next with
  | some q => s.at op (.planeStart q)
  | none => scanlineDone op s

/-- One turn of `EmitScanline` (R124): the four bytes of pixel `i`, decoded and put on POUT. -/
def emitPixel (op : Op) (i : Nat) (s : State) : Result :=
  readSB s (planeAddr s.w .r i) 1 fun r =>
  readSB s (planeAddr s.w .g i) 1 fun g =>
  readSB s (planeAddr s.w .b i) 1 fun b =>
  readSB s (planeAddr s.w .e i) 1 fun e =>
    putPixel s (decodeQuad { r := r.headD 0#8, g := g.headD 0#8, b := b.headD 0#8, e := e.headD 0#8 })
      fun s => .next (s.at op (.emit (i + 1)))

/-- One turn of the pixel loop of `ScanEncode` (R128): pixel `i`, encoded, into the four planes. -/
def takeScanPixel (op : Op) (i : Nat) (s : State) : Result :=
  takePixel s fun p s =>
    let q := encodePixel p
    writeSB s (planeAddr s.w .r i) [q.r] fun s =>
    writeSB s (planeAddr s.w .g i) [q.g] fun s =>
    writeSB s (planeAddr s.w .b i) [q.b] fun s =>
    writeSB s (planeAddr s.w .e i) [q.e] fun s =>
      .next (s.at op (.pixIn (i + 1)))

/-- The engine's next action at position `k`, when no stream unit is ready to execute. -/
def engineStep (op : Op) (k : Pos) (s : State) : Result :=
  match k with
  | .entry => .next (beginCommand op s)
  | .marker buf => pullByte s k.info fun b s => .next (s.at op (.marker (buf ++ [b])))
  | .token p pos buf =>
    if buf.isEmpty ∧ ¬ pos < s.w then .next (planeFilled op p s)
    else pullByte s k.info fun b s => .next (s.at op (.token p pos (buf ++ [b])))
  | .litRest p pos c buf =>
    if buf.length < c - 1 then
      pullByte s k.info fun b s => .next (s.at op (.litRest p pos c (buf ++ [b])))
    else
      writeSB s (planeAddr s.w p (pos + 1)) buf fun s => .next (s.at op (.token p (pos + c) []))
  | .emit i => if i < s.w then emitPixel op i s else .next (scanlineDone op s)
  | .quad left buf => pullByte s k.info fun b s => .next (s.at op (.quad left (buf ++ [b])))
  | .pixel left =>
    takePixel s fun p s => .next (s.at op (.quadOut left (encodePixel p).bytes))
  | .quadOut left rest =>
    match rest with
    | [] => .next (s.at op (flatWriteFrom left))
    | b :: rest => pushByte s k.info b fun s => .next (s.at op (.quadOut left rest))
  | .flatDone => .next (flatEnd op s)
  | .markerOut rest =>
    match rest with
    | [] => .next (s.at op (.pixIn 0))
    | b :: rest => pushByte s k.info b fun s => .next (s.at op (.markerOut rest))
  | .pixIn i => if i < s.w then takeScanPixel op i s else .next (s.at op (.planeStart .r))
  | .planeStart p =>
    readSB s (planeAddr s.w p 0) s.w fun data => .next (s.at op (.planeScan p data 0))
  | .planeScan p data cur =>
    if cur < data.length then
      .next (s.at op (.planeEmit p data (encodePass data cur).1 (encodePass data cur).2))
    else .next (planeWritten op p s)
  | .planeEmit p data toks cur =>
    match toks with
    | [] => .next (s.at op (.planeScan p data cur))
    | t :: toks =>
      match t.bytes with
      | [] => .next (s.at op (.planeEmit p data toks cur))
      | b :: rest =>
        pushByte s k.info b fun s =>
          .next (s.at op (.planeEmit p data ({ t with bytes := rest } :: toks) cur))

/-! ## The next event -/

/-- The next event: an instruction to execute in a state, or an event that is no instruction. -/
inductive Event where
  | instr (i : Instr) (s : State)
  | other (r : Result)

/-- The stream unit the engine is reading and the bytes of it read so far (R116, R118, R109). -/
def Pos.unit : Pos → Option (StreamContext × List Byte)
  | .marker buf => some (.scanStart, buf)
  | .token _ _ buf => some (.planeToken, buf)
  | .quad _ buf => some (.flat, buf)
  | _ => none

/-- The engine's next event: the stream unit it has read in full, decoded; else its own next action. An
idle engine does nothing (R171). -/
def engineEvent (s : State) : Event :=
  match s.engine with
  | .idle => .other (.next s)
  | .running op k =>
    match k.unit with
    | none => .other (engineStep op k s)
    | some (ctx, buf) =>
      match decodeStream ctx buf with
      | .ok (i, _) => .instr i s
      | .error _ => .other (engineStep op k s)

/-- The instruction a host access is: a whole-word write at offset 0 writes a command word to `CMD`
(R139, R151), any other access is itself. -/
def busInstr : BusAccess → Instr
  | .read size off => decodeBus (.read size off)
  | .write size off x =>
    if size = .word ∧ off = 0x00#8 then decodeCommand x else decodeBus (.write size off x)

/-- The next event of the machine: the host's next action if it has one, else the engine's. A host that
waits polls `STATUS` until `BUSY = 0` (R84); while it is 1 the engine moves. -/
def nextEvent (s : State) : Event :=
  match s.host with
  | [] => engineEvent s
  | .bus a :: rest => .instr (busInstr a) { s with host := rest }
  | .pause :: rest => engineEvent { s with host := rest }
  | .wait :: rest =>
    if s.busy then engineEvent s
    else .other (.next { s with host := rest, rdata := s.statusWord })
  | .rst :: rest => .other (.next { s with host := rest }.assertReset)
  | act :: rest => .other (.next { s with host := rest, ports := s.ports.act act })

/-! ## Placing an instruction -/

/-- The state in which the next event is the instruction of an opcode-table word (log entry 1, DEDUCED, safe). A command
word is the host's next `CMD` write. A stream unit has been read by a SCAN_DEC that is at its place: at
a scanline start, or at the head of plane R of a scanline wide enough for the longest token, with the
literal bytes that follow the token on BIN, all 0. -/
def placeWord (s : State) (nbits w : Nat) : State :=
  match tableEncoding nbits w with
  | none => s
  | some (.cmd32 x) => { s with engine := .idle, host := .bus (.write .word 0x00#8 x) :: s.host }
  | some (.hostbus a) => { s with host := .bus a :: s.host }
  | some (.stream .planeToken bytes) =>
    { s with
      regs := { s.regs with width := 128#32 },
      engine := .running .scanDec (.token .r 0 bytes),
      ports := { s.ports with bin := List.replicate 127 (.byte 0#8) ++ s.ports.bin },
      host := .pause :: s.host }
  | some (.stream .flat bytes) =>
    { s with engine := .running .scanDec (.quad 0 bytes), host := .pause :: s.host }
  | some (.stream .scanStart bytes) =>
    { s with engine := .running .scanDec (.marker bytes), host := .pause :: s.host }

end Sys2Proof.Machine
end

