-- ==== Sys2Proof/Machine/Step.lean ====
section
/-!
DEFINITION. One step of the machine: its next event (R62, R63, R186), an instruction being executed by
`exec`.
-/

namespace Sys2Proof.Machine

/-- One step. -/
def step (s : State) : Host.Outcome State Fault Refusal :=
  match nextEvent s with
  | .instr i s' => exec i s'
  | .other r => r

/-- `s` with the opcode-table word placed where the next step fetches it (log entry 1, DEDUCED, safe). -/
def State.withFetchWord (s : State) (nbits w : Nat) : State := placeWord s nbits w

end Sys2Proof.Machine
end

