-- ==== Sys2Proof/Safety.lean ====
section
/-!
DEFINITION. The terms claims are stated in: the real value of a binary32 pattern (R10), what the token
grammar of a plane means (R72 to R74, R118 to R120), which states the rules keep the machine in, and what
a safe state is.
-/

namespace Sys2Proof.Machine

/-! ## Values -/

/-- `val(b)`, the exact value of a finite binary32 pattern (R10). -/
def f32Val (b : Word) : ℚ :=
  let mag : ℚ :=
    if f32Exp b = 0 then (f32Frac b : ℚ) * 2 ^ (-149 : ℤ)
    else (1 + (f32Frac b : ℚ) / 2 ^ 23) * 2 ^ ((f32Exp b : ℤ) - 127)
  if f32Sign b then -mag else mag

/-- A pattern that is no infinity and no NaN (R10). -/
def f32Finite (b : Word) : Prop := f32Exp b ≠ 255

/-- `max` of the sanitized lanes (R99, R101). -/
def pixelMax (p : Pixel) : ℚ :=
  max (f32Val (sanitize p.r)) (max (f32Val (sanitize p.g)) (f32Val (sanitize p.b)))

/-- The largest sanitized lane as a pattern: for such values the order of patterns read as unsigned
integers is the order of values (R101). -/
def maxPattern (p : Pixel) : Word :=
  BitVec.ofNat 32 (max (sanitize p.r).toNat (max (sanitize p.g).toNat (sanitize p.b).toNat))

/-- The bit-level form of one lane of `DecodeQuad` (R97), with `k` the top set bit of `m`: the unbiased
exponent is `k + e - 136`, so it is at least -126 when `k + e >= 10`, and the biased one is `k + e - 9`. -/
def decodeLaneBits (m e : Byte) : Word :=
  if m = 0#8 then 0#32
  else
    let k := Nat.log2 m.toNat
    if k + e.toNat ≥ 10 then
      0#1 ++ BitVec.ofNat 8 (k + e.toNat - 9) ++ BitVec.ofNat 23 (m.toNat <<< (23 - k))
    else BitVec.ofNat 32 (m.toNat <<< (e.toNat + 13))

/-- The bit-level form of one lane's mantissa (R103), for a lane `c` and the biased exponent `B` of the
largest lane. -/
def encodeLaneBits (c : Word) (B : Nat) : Nat :=
  if f32Exp c = 0 then 0 else (2 ^ 23 + f32Frac c) / 2 ^ (16 + B - f32Exp c)

/-! ## The grammar of a plane -/

/-- The plane bytes the tokens at the head of a byte stream stand for, until `n` of them are produced,
and the bytes after the last token read; none if a token is malformed, overflows, or the stream ends
(R72 to R75, R118 to R120). The first argument bounds the number of tokens. -/
def expandTokens : Nat → Nat → List Byte → Option (List Byte × List Byte)
  | _, 0, bs => some ([], bs)
  | 0, _ + 1, _ => none
  | fuel + 1, n, c :: v :: bs =>
    if c.toNat > 128 then
      if c.toNat - 128 > n then none
      else (expandTokens fuel (n - (c.toNat - 128)) bs).map fun r =>
        (List.replicate (c.toNat - 128) v ++ r.1, r.2)
    else if c.toNat = 0 then none
    else if c.toNat > n then none
    else if (v :: bs).length < c.toNat then none
    else (expandTokens fuel (n - c.toNat) ((v :: bs).drop c.toNat)).map fun r =>
      ((v :: bs).take c.toNat ++ r.1, r.2)
  | _ + 1, _ + 1, _ => none

/-- What a plane of `n` bytes on a stream decodes to, and the bytes after it: every token produces at
least one byte (R118), so `n` tokens are enough. -/
def expandPlane (n : Nat) (bs : List Byte) : Option (List Byte × List Byte) := expandTokens n n bs

/-! ## Streams -/

/-- A list of bytes as the host presents it on BIN. -/
def asAnswers (bs : List Byte) : List BinAnswer := bs.map .byte

/-- The flat stream of a list of quads (R76). -/
def flatBytes (qs : List Quad) : List Byte := qs.flatMap Quad.bytes

/-- One RLE scanline on the stream, as the encoder writes it: the marker, then the four planes (R77,
R128, R138). -/
def scanlineBytes (w : Nat) (qs : List Quad) : List Byte :=
  markerBytes w ++ encodePlane (qs.map Quad.r) ++ encodePlane (qs.map Quad.g)
    ++ encodePlane (qs.map Quad.b) ++ encodePlane (qs.map Quad.e)

/-- The first `h` scanlines of width `w` of an image in raster order (R49). -/
def rasterRows {α : Type} (w : Nat) : Nat → List α → List (List α)
  | 0, _ => []
  | h + 1, xs => xs.take w :: rasterRows w h (xs.drop w)

/-- The scanline data the encoder writes for a `w * h` image (R78, R145). -/
def imageBytes (w h : Nat) (qs : List Quad) : List Byte :=
  if rleOk w then (rasterRows w h qs).flatMap (scanlineBytes w) else flatBytes qs

/-- One RLE scanline of width `w` on the stream, its planes cut into tokens in any way that stands for the
planes of the quads `qs` (R77). -/
def RleScanline (w : Nat) (bytes : List Byte) (qs : List Quad) : Prop :=
  qs.length = w ∧ ∃ tr tg tb te,
    bytes = markerBytes w ++ tr ++ tg ++ tb ++ te ∧
    expandPlane w tr = some (qs.map Quad.r, []) ∧ expandPlane w tg = some (qs.map Quad.g, []) ∧
    expandPlane w tb = some (qs.map Quad.b, []) ∧ expandPlane w te = some (qs.map Quad.e, [])

/-- The scanline data of a `w * h` image (R78): for an RLE width at most `h` RLE scanlines, each with the
quads it stands for, and the flat quads of the rest of the image, of which the first is no marker; for any
other width flat quads only. -/
def ImageData (w h : Nat) (rows : List (List Byte × List Quad)) (flat : List Quad) : Prop :=
  (∀ row ∈ rows, RleScanline w row.1 row.2) ∧ rows.length ≤ h ∧ flat.length = (h - rows.length) * w ∧
  (rleOk w → ∀ q, flat.head? = some q → ¬(q.r = 2#8 ∧ q.g = 2#8 ∧ q.b.msb = false)) ∧
  (¬rleOk w → rows = [])

/-- The bytes of scanline data (R78). -/
def imageDataBytes (rows : List (List Byte × List Quad)) (flat : List Quad) : List Byte :=
  rows.flatMap Prod.fst ++ flatBytes flat

/-- The quads scanline data stands for, in raster order (R143). -/
def imageDataQuads (rows : List (List Byte × List Quad)) (flat : List Quad) : List Quad :=
  rows.flatMap Prod.snd ++ flat

/-! ## How a command ends -/

/-- `s` after the command of word `x` has been started and has ended successfully, having moved these
numbers of bytes in, bytes out and pixels, and nothing else changed (R139, R157). -/
def State.completed (s : State) (x : Word) (nin nout npix : Nat) : State :=
  { s with
    regs := { s.regs with cmd := x },
    status := { done := true, err := .none, cause := .none, mode := s.status.mode, op := x.extractLsb' 0 4 },
    errinfo := { phase := .none, plane := .r, pos := 0#15 },
    counters :=
      { incount := BitVec.ofNat 32 nin, outcount := BitVec.ofNat 32 nout, pixcount := BitVec.ofNat 32 npix },
    engine := .idle }

/-- `s` after the command of word `x` has been refused inside its `CMD` write with error `err`, and
nothing else changed (R139, R158). -/
def State.turnedAway (s : State) (x : Word) (err : ErrKind) : State :=
  { s with
    regs := { s.regs with cmd := x },
    status := { done := true, err := err, cause := .none, mode := s.status.mode, op := x.extractLsb' 0 4 },
    errinfo := { phase := .none, plane := .r, pos := 0#15 },
    counters := { incount := 0#32, outcount := 0#32, pixcount := 0#32 },
    engine := .idle }

/-- `s` after the command of word `x` has entered `RUNNING` inside its `CMD` write, and nothing else
changed (R40, R139). -/
def State.entered (s : State) (x : Word) (op : Op) : State :=
  { s with
    regs := { s.regs with cmd := x },
    status := { done := false, err := .none, cause := .none, mode := s.status.mode, op := x.extractLsb' 0 4 },
    errinfo := { phase := .none, plane := .r, pos := 0#15 },
    counters := { incount := 0#32, outcount := 0#32, pixcount := 0#32 },
    engine := .running op .entry }

/-! ## Runs -/

/-- `k` steps, one after the other, stopping at a fault or a refusal. -/
def stepN : Nat → State → Result
  | 0, s => .next s
  | k + 1, s =>
    match step s with
    | .next t => stepN k t
    | .fault r => .fault r
    | .refused r => .refused r

/-- The command `i`, started in `s` by its `CMD` write, comes to its end in `t`: some number of steps
after the write the engine is idle there. -/
def RunsTo (i : Instr) (s t : State) : Prop :=
  ∃ s1 k, exec i s = .next s1 ∧ stepN k s1 = .next t ∧ t.engine = .idle

/-! ## The states the rules keep the machine in -/

/-- Every byte of `SB` from `a` up to `b` has been written. -/
def Filled (m : Memory) (a b : Nat) : Prop := ∀ i, a ≤ i → i < b → (Memory.read m i).isSome = true

/-- `data` is plane `p` of a scanline of width `w`, as written in `SB` (R50). -/
def HoldsPlane (m : Memory) (w : Nat) (p : Plane) (data : List Byte) : Prop :=
  data.length = w ∧ ∀ i, i < w → Memory.read m (planeAddr w p i) = data[i]?

/-- The geometry a scanline subroutine runs under (R126, R142, R145). -/
def ScanGeometry (s : State) : Prop := rleOk s.w ∧ s.y < s.h

/-- The commands that decode scanlines. -/
def Op.decodesScanlines (op : Op) : Prop := op = .scanDec ∨ op = .imgDec

/-- The commands that encode scanlines. -/
def Op.encodesScanlines (op : Op) : Prop := op = .scanEnc ∨ op = .imgEnc

/-- The commands that run over a whole image. -/
def Op.wholeImage (op : Op) : Prop := op = .imgDec ∨ op = .imgEnc

/-- The `CMD` word of a command (R69). -/
def Op.word : Op → Word
  | .flatRd => 3#32
  | .flatWr => 4#32
  | .scanDec => 5#32
  | .scanEnc => 6#32
  | .imgDec => 7#32
  | .imgEnc => 8#32

/-- What holds of a running command at position `k`: the geometry its checks established (R126, R155),
the part of `SB` it has written (R46), the mode of a whole-image command (R39, R41), and the bounds of
its local variables. -/
def PosOk (s : State) (op : Op) : Pos → Prop
  | .entry =>
    (op = .scanDec ∨ op = .scanEnc → ScanGeometry s) ∧ (op.wholeImage → s.w ≠ 0 ∧ s.h ≠ 0)
  | .marker buf =>
    op.decodesScanlines ∧ ScanGeometry s ∧ (op.wholeImage → s.status.mode = .rle) ∧ buf.length ≤ 4
  | .token p pos buf =>
    op.decodesScanlines ∧ ScanGeometry s ∧ (op.wholeImage → s.status.mode = .rle) ∧
      pos ≤ s.w ∧ buf.length ≤ 2 ∧ (buf ≠ [] → pos < s.w) ∧ Filled s.sb 0 (planeAddr s.w p pos)
  | .litRest p pos c buf =>
    op.decodesScanlines ∧ ScanGeometry s ∧ (op.wholeImage → s.status.mode = .rle) ∧
      1 ≤ c ∧ c ≤ 128 ∧ pos + c ≤ s.w ∧ buf.length ≤ c - 1 ∧
      Filled s.sb 0 (planeAddr s.w p (pos + 1))
  | .emit i =>
    op.decodesScanlines ∧ ScanGeometry s ∧ (op.wholeImage → s.status.mode = .rle) ∧
      i ≤ s.w ∧ Filled s.sb 0 (4 * s.w)
  | .quad _ buf =>
    (op = .flatRd ∨ op.decodesScanlines ∧ s.status.mode = .flat) ∧ buf.length ≤ 4
  | .pixel _ => op = .flatWr ∨ op = .imgEnc ∧ s.status.mode = .flat
  | .quadOut _ rest => (op = .flatWr ∨ op = .imgEnc ∧ s.status.mode = .flat) ∧ rest.length ≤ 4
  | .flatDone => op = .flatRd ∨ op = .flatWr ∨ op ≠ .scanEnc ∧ s.status.mode = .flat
  | .markerOut rest =>
    op.encodesScanlines ∧ ScanGeometry s ∧ (op.wholeImage → s.status.mode = .rle) ∧ rest.length ≤ 4
  | .pixIn i =>
    op.encodesScanlines ∧ ScanGeometry s ∧ (op.wholeImage → s.status.mode = .rle) ∧
      i ≤ s.w ∧ ∀ p : Plane, Filled s.sb (planeAddr s.w p 0) (planeAddr s.w p i)
  | .planeStart _ =>
    op.encodesScanlines ∧ ScanGeometry s ∧ (op.wholeImage → s.status.mode = .rle) ∧
      Filled s.sb 0 (4 * s.w)
  | .planeScan p data cur =>
    op.encodesScanlines ∧ ScanGeometry s ∧ (op.wholeImage → s.status.mode = .rle) ∧
      Filled s.sb 0 (4 * s.w) ∧ HoldsPlane s.sb s.w p data ∧ cur ≤ s.w
  | .planeEmit p data _ cur =>
    op.encodesScanlines ∧ ScanGeometry s ∧ (op.wholeImage → s.status.mode = .rle) ∧
      Filled s.sb 0 (4 * s.w) ∧ HoldsPlane s.sb s.w p data ∧ cur ≤ s.w

/-- What holds of the engine: nothing when idle; when running, `CMD` is the running command's word, the
flags are those of a command under way (R44), and the position is one its rule reaches. -/
def EngineOk (s : State) : Prop :=
  match s.engine with
  | .idle => True
  | .running op k =>
    s.regs.cmd = op.word ∧ s.status.done = false ∧ s.status.err = .none ∧ PosOk s op k

/-- The flags fit together: an error is reported only with `DONE` (R158), `CAUSE` exactly with a
`FormatError` (R26, R154), and `OP` is that of the last command word (R26). -/
def StatusOk (s : State) : Prop :=
  (s.status.err ≠ .none → s.status.done = true) ∧
  (s.status.cause ≠ .none ↔ s.status.err = .format) ∧
  s.status.op = cmdOp s.regs.cmd

/-- The invariant of the machine. -/
def Inv (s : State) : Prop := Memory.wf s.sb = true ∧ StatusOk s ∧ EngineOk s

/-! ## What a step can depend on -/

/-- The indices of `SB` that a scanline subroutine at position `k` has written itself, on a scanline of
width `w` (R46, R118, R124, R128). -/
def Pos.wrote (w : Nat) : Pos → Nat → Prop
  | .token p pos _, a => a < planeAddr w p pos
  | .litRest p pos _ _, a => a < planeAddr w p (pos + 1)
  | .emit _, a => a < 4 * w
  | .pixIn i, a => ∃ p : Plane, planeAddr w p 0 ≤ a ∧ a < planeAddr w p i
  | .planeStart _, a => a < 4 * w
  | .planeScan _ _ _, a => a < 4 * w
  | .planeEmit _ _ _ _, a => a < 4 * w
  | _, _ => False

/-- The indices of `SB` that the running command has written for the scanline under way. -/
def State.wrote (s : State) (a : Nat) : Prop :=
  match s.engine with
  | .idle => False
  | .running _ k => k.wrote s.w a

/-- `s` with another content of `SB`: written bytes `m`, and other unspecified bytes where nothing is
written. -/
def State.withSB (s : State) (m : Memory) (epoch : Nat) : State := { s with sb := m, sbEpoch := epoch }

/-- A content of `SB` that agrees with that of `s` on what the running command has written itself. -/
def State.agrees (s : State) (m : Memory) : Prop := ∀ a, s.wrote a → Memory.read m a = Memory.read s.sb a

/-- A safe state: the next step is a step of the hardware, not a fault or a refusal of the model, and it
depends on no byte of `SB` that the running command has not written itself: with any other content
there, written or unspecified, the step does the same, up to such content again (R46). -/
def Safe (s : State) : Prop :=
  ∃ t, step s = .next t ∧
    ∀ m n, s.agrees m → ∃ m' n', step (s.withSB m n) = .next (t.withSB m' n') ∧ t.agrees m'

end Sys2Proof.Machine
end

