-- ==== Sys2Proof/WellFormed.lean ====
section
/-!
DEFINITION. Which terms of `Instr` stand for words of the hardware: the side conditions the encoding
rules put on the fields (R69, R71 to R73, R81).
-/

namespace Sys2Proof

/-- The conditions of R81 (an illegal word is one that is not legal), R82 (a nonmarker fails
`is_marker`) and R72 (`n = 0` is no run and no literal). Every other term stands for a word. -/
def WellFormed : Instr → Bool
  | .clear => true
  | .cvtDec => true
  | .cvtEnc => true
  | .flatRd => true
  | .flatWr => true
  | .scanDec => true
  | .scanEnc => true
  | .imgDec => true
  | .imgEnc => true
  | .illegal x => decide (¬ legalCommandWord x)
  | .marker _ _ => true
  | .nonmarker b0 b1 b2 _ => !isMarker b0 b1 b2
  | .run n _ => n != 0#7
  | .lit n _ => n != 0#7
  | .lit128 _ => true
  | .zero _ => true
  | .quad _ _ _ _ => true
  | .regRd _ _ => true
  | .regWr _ _ _ => true

end Sys2Proof
end

