-- ==== Sys2Proof/Certificates/Slice0/Obligations.lean ====
section
/-!
DEFINITION. The statements about the machine. Each names the rule of spec/ it formalises; a clause that
rests on a choice of the model names its log entry.
-/

open Sys2Proof Sys2Proof.Machine

/-! ## Encoding -/

/-- Decoding the words of a well-formed instruction gives it back, and on a stream leaves the bytes after
them (30_encoding.md). -/
def Obligations.EncodingRoundTrip : Prop :=
  ∀ i : Instr, WellFormed i = true →
    decode (encode i) = .ok (i, []) ∧
    ∀ ctx bs rest, encode i = .stream ctx bs → decodeStream ctx (bs ++ rest) = .ok (i, rest)

/-- What the decoder reads is well formed, and is the one instruction with those words: of a stream, the
bytes before the rest; of `CMD`, the word; of the bus, the access (30_encoding.md). -/
def Obligations.DecodedWordsEncodeBack : Prop :=
  (∀ ctx bs i rest, decodeStream ctx bs = .ok (i, rest) →
    WellFormed i = true ∧ ∃ pre, bs = pre ++ rest ∧ encode i = .stream ctx pre) ∧
  (∀ x, WellFormed (decodeCommand x) = true ∧ encode (decodeCommand x) = .cmd32 x) ∧
  ∀ a, WellFormed (decodeBus a) = true ∧ encode (decodeBus a) = .hostbus a

/-- R68 and R69: the nine opcodes, and which words are no legal command. -/
def Obligations.CommandWordAssignment : Prop :=
  (decodeCommand 0x00000000#32 = .clear ∧ decodeCommand 0x00000001#32 = .cvtDec ∧
    decodeCommand 0x00000002#32 = .cvtEnc ∧ decodeCommand 0x00000003#32 = .flatRd ∧
    decodeCommand 0x00000004#32 = .flatWr ∧ decodeCommand 0x00000005#32 = .scanDec ∧
    decodeCommand 0x00000006#32 = .scanEnc ∧ decodeCommand 0x00000007#32 = .imgDec ∧
    decodeCommand 0x00000008#32 = .imgEnc) ∧
  ∀ x : Word, decodeCommand x = .illegal x ↔
    x.extractLsb' 4 28 ≠ 0#28 ∨ 9 ≤ (x.extractLsb' 0 4).toNat

/-- R72: the count byte alone decides what a plane token is. -/
def Obligations.CountByteDecidesToken : Prop :=
  ∀ c v : Byte,
    (c.toNat = 0 → decodeToken c v = .zero v) ∧
    (1 ≤ c.toNat → c.toNat ≤ 127 → decodeToken c v = .lit (BitVec.ofNat 7 c.toNat) v) ∧
    (c.toNat = 128 → decodeToken c v = .lit128 v) ∧
    (129 ≤ c.toNat → decodeToken c v = .run (BitVec.ofNat 7 (c.toNat - 128)) v)

/-- Words of every format, written out from the spec's encodings, decode to their instructions: a legal
and an illegal command word, a host read and a host write, a marker and four bytes that are none, the four
kinds of plane token, and a quad (30_encoding.md section 1). -/
def Obligations.WordsOfEachFamilyDecode : Prop :=
  decodeCommand 0b00000000000000000000000000000010#32 = .cvtEnc ∧
  decodeCommand 0x00000011#32 = .illegal 0x00000011#32 ∧
  decode (.hostbus (.read .word 0x04#8)) = .ok (.regRd .word 0x04#8, []) ∧
  decode (.hostbus (.write .word 0x08#8 0x0000012C#32)) =
    .ok (.regWr .word 0x08#8 0x0000012C#32, []) ∧
  decodeScanStart 0x02#8 0x02#8 0x01#8 0x2C#8 = .marker 1#7 0x2C#8 ∧
  decodeScanStart 0x02#8 0x02#8 0x80#8 0x08#8 = .nonmarker 0x02#8 0x02#8 0x80#8 0x08#8 ∧
  decodeToken 0x8A#8 0x05#8 = .run 10#7 0x05#8 ∧
  decodeToken 0x03#8 0x07#8 = .lit 3#7 0x07#8 ∧
  decodeToken 0x80#8 0x00#8 = .lit128 0x00#8 ∧
  decodeToken 0x00#8 0x05#8 = .zero 0x05#8 ∧
  decodeStream .flat [0x80#8, 0x40#8, 0x20#8, 0x81#8] =
    .ok (.quad 0x80#8 0x40#8 0x20#8 0x81#8, [])

/-! ## The colour converter -/

/-- R95 and R96: every lane of `DecodeQuad` is exactly `m * 2^(e-136)`, +0 when it is zero, never a NaN,
an infinity or -0, and between the smallest and the largest result; exponent byte 0 is black. -/
def Obligations.DecodeQuadIsExact : Prop :=
  (∀ q : Quad, q.e = 0#8 → decodeQuad q = { r := 0#32, g := 0#32, b := 0#32 }) ∧
  (∀ q : Quad, q.e ≠ 0#8 →
    f32Val (decodeQuad q).r = (q.r.toNat : ℚ) * 2 ^ ((q.e.toNat : ℤ) - 136) ∧
    f32Val (decodeQuad q).g = (q.g.toNat : ℚ) * 2 ^ ((q.e.toNat : ℤ) - 136) ∧
    f32Val (decodeQuad q).b = (q.b.toNat : ℚ) * 2 ^ ((q.e.toNat : ℤ) - 136)) ∧
  (∀ q : Quad, ∀ x ∈ [(decodeQuad q).r, (decodeQuad q).g, (decodeQuad q).b],
    f32Finite x ∧ f32Sign x = false ∧ (f32Val x = 0 → x = 0#32) ∧
      (x ≠ 0#32 → (2 : ℚ) ^ (-135 : ℤ) ≤ f32Val x) ∧ f32Val x ≤ 255 * 2 ^ (119 : ℤ)) ∧
  decodeQuad { r := 1#8, g := 0#8, b := 0#8, e := 1#8 } =
    { r := 0x00004000#32, g := 0#32, b := 0#32 } ∧
  decodeQuad { r := 255#8, g := 255#8, b := 255#8, e := 255#8 } =
    { r := 0x7EFF0000#32, g := 0x7EFF0000#32, b := 0x7EFF0000#32 }

/-- R97: the bit-level form of a lane equals the exact one, for every mantissa and every `e` but 0. -/
def Obligations.DecodeLaneBitLevelForm : Prop :=
  ∀ m e : Byte, e ≠ 0#8 → decodeLane m e = decodeLaneBits m e

/-- R101: the table of `San`; a sanitized lane is non-negative and finite, and the order of patterns is
the order of values. -/
def Obligations.SanitationTable : Prop :=
  (∀ x, f32Exp x = 255 → f32Frac x ≠ 0 → sanitize x = 0#32) ∧
  (∀ x, ¬(f32Exp x = 255 ∧ f32Frac x ≠ 0) → f32Sign x = true → sanitize x = 0#32) ∧
  sanitize 0x7F800000#32 = 0x7F7FFFFF#32 ∧
  (∀ x, f32Exp x ≠ 255 → f32Sign x = false → sanitize x = x) ∧
  (∀ x, f32Finite (sanitize x) ∧ 0 ≤ f32Val (sanitize x)) ∧
  ∀ x y, f32Val (sanitize x) ≤ f32Val (sanitize y) ↔ (sanitize x).toNat ≤ (sanitize y).toNat

/-- R99: a pixel whose largest sanitized lane is below `10^-32` is black; else each mantissa is the floor
of its lane times `2^(8 - e2)`, with `e2` the exponent of the frexp decomposition of the largest lane, and
the exponent byte is `(e2 + 128) mod 256`. -/
def Obligations.EncodePixelIsExactFloor : Prop :=
  ∀ p : Pixel,
    (pixelMax p < 10 ^ (-32 : ℤ) → encodePixel p = { r := 0#8, g := 0#8, b := 0#8, e := 0#8 }) ∧
    (10 ^ (-32 : ℤ) ≤ pixelMax p →
      ∃ (f : ℚ) (e2 : ℤ), 1 / 2 ≤ f ∧ f < 1 ∧ pixelMax p = f * 2 ^ e2 ∧
        ((encodePixel p).r.toNat : ℤ) = ⌊f32Val (sanitize p.r) * (f * 256 / pixelMax p)⌋ ∧
        ((encodePixel p).g.toNat : ℤ) = ⌊f32Val (sanitize p.g) * (f * 256 / pixelMax p)⌋ ∧
        ((encodePixel p).b.toNat : ℤ) = ⌊f32Val (sanitize p.b) * (f * 256 / pixelMax p)⌋ ∧
        ((encodePixel p).e.toNat : ℤ) = (e2 + 128) % 256)

/-- R100: 0x0A4FB11F is the pattern nearest to `10^-32` and lies above it, 0x0A4FB11E is the next one below
and lies below it. On a non-negative finite pattern `v` the black test of the converter is `v < 10^-32` on
the real value, is the comparison of patterns with 0x0A4FB11F, and is the same test whatever constant above
the lower value and up to the upper one is taken for `10^-32`; every subnormal, and +0, is black. So a
pixel is encoded as black exactly when the pattern of its largest sanitized lane is below 0x0A4FB11F. -/
def Obligations.BlackTestComparesPatterns : Prop :=
  (f32Val 0x0A4FB11E#32 < 10 ^ (-32 : ℤ) ∧ 10 ^ (-32 : ℤ) < f32Val 0x0A4FB11F#32 ∧
    f32Val 0x0A4FB11F#32 - 10 ^ (-32 : ℤ) < 10 ^ (-32 : ℤ) - f32Val 0x0A4FB11E#32) ∧
  (∀ v : Word, f32Finite v → f32Sign v = false →
    (isBlack (scaled v) ↔ f32Val v < 10 ^ (-32 : ℤ)) ∧
    (isBlack (scaled v) ↔ v.toNat < 0x0A4FB11F) ∧
    (∀ c : ℚ, f32Val 0x0A4FB11E#32 < c → c ≤ f32Val 0x0A4FB11F#32 →
      (isBlack (scaled v) ↔ f32Val v < c)) ∧
    (f32Exp v = 0 → isBlack (scaled v))) ∧
  ∀ p : Pixel, encodePixel p = { r := 0#8, g := 0#8, b := 0#8, e := 0#8 } ↔
    (maxPattern p).toNat < 0x0A4FB11F

/-- R102 and R103: the largest lane of a pixel that is not black is a normal value with biased exponent
20..254, and its frexp decomposition, the exponent byte and the three mantissas come from the patterns. -/
def Obligations.EncodeBitLevelForm : Prop :=
  ∀ p : Pixel, 10 ^ (-32 : ℤ) ≤ pixelMax p →
    (f32Val (maxPattern p) = pixelMax p ∧
      20 ≤ f32Exp (maxPattern p) ∧ f32Exp (maxPattern p) ≤ 254 ∧
      pixelMax p =
        ((1 + (f32Frac (maxPattern p) : ℚ) / 2 ^ 23) / 2) * 2 ^ ((f32Exp (maxPattern p) : ℤ) - 126) ∧
      (encodePixel p).e.toNat = (f32Exp (maxPattern p) + 2) % 256) ∧
    (encodePixel p).r.toNat = encodeLaneBits (sanitize p.r) (f32Exp (maxPattern p)) ∧
    (encodePixel p).g.toNat = encodeLaneBits (sanitize p.g) (f32Exp (maxPattern p)) ∧
    (encodePixel p).b.toNat = encodeLaneBits (sanitize p.b) (f32Exp (maxPattern p))

/-- R104: the exponent byte wraps and does not saturate. Below `2^127` it is `B + 2`, in 22..255; from `2^127`
on it is 0 and the quad decodes to black, and so for a pixel with +infinity in any lane. -/
def Obligations.ExponentByteWraps : Prop :=
  ∀ p : Pixel, 10 ^ (-32 : ℤ) ≤ pixelMax p →
    (pixelMax p < 2 ^ (127 : ℤ) →
      (encodePixel p).e.toNat = f32Exp (maxPattern p) + 2 ∧ 22 ≤ (encodePixel p).e.toNat) ∧
    (2 ^ (127 : ℤ) ≤ pixelMax p →
      (encodePixel p).e = 0#8 ∧ decodeQuad (encodePixel p) = { r := 0#32, g := 0#32, b := 0#32 }) ∧
    (p.r = 0x7F800000#32 ∨ p.g = 0x7F800000#32 ∨ p.b = 0x7F800000#32 →
      (encodePixel p).e = 0#8 ∧ decodeQuad (encodePixel p) = { r := 0#32, g := 0#32, b := 0#32 })

/-- R105: for a pixel that is not black the mantissa of the largest lane is `floor(f * 256)`, in 128..255,
and every other one is at most that; a lane that is not the largest may lose all its bits. -/
def Obligations.MantissaRange : Prop :=
  (∀ p : Pixel, 10 ^ (-32 : ℤ) ≤ pixelMax p →
    ∀ l ∈ [(p.r, (encodePixel p).r), (p.g, (encodePixel p).g), (p.b, (encodePixel p).b)],
      (f32Val (sanitize l.1) = pixelMax p → 128 ≤ l.2.toNat ∧
        ∀ (f : ℚ) (e2 : ℤ), 1 / 2 ≤ f → f < 1 → pixelMax p = f * 2 ^ e2 →
          (l.2.toNat : ℤ) = ⌊f * 256⌋) ∧
      ∀ k ∈ [(p.r, (encodePixel p).r), (p.g, (encodePixel p).g), (p.b, (encodePixel p).b)],
        f32Val (sanitize k.1) = pixelMax p → l.2.toNat ≤ k.2.toNat) ∧
  encodePixel { r := 0x43800000#32, g := 0x3F800000#32, b := 0#32 } =
    { r := 128#8, g := 0#8, b := 0#8, e := 137#8 }

/-- R107 (a) and (b): decoding what was encoded never exceeds the input, is below it by less than one unit
of the shared mantissa, and keeps the largest lane to within `2^-7`. -/
def Obligations.ConversionErrorBound : Prop :=
  ∀ p : Pixel, 10 ^ (-32 : ℤ) ≤ pixelMax p → pixelMax p < 2 ^ (127 : ℤ) →
    ∃ e2 : ℤ, 2 ^ (e2 - 1) ≤ pixelMax p ∧ pixelMax p < 2 ^ e2 ∧
      ∀ l ∈ [(p.r, (decodeQuad (encodePixel p)).r), (p.g, (decodeQuad (encodePixel p)).g),
          (p.b, (decodeQuad (encodePixel p)).b)],
        0 ≤ f32Val (sanitize l.1) - f32Val l.2 ∧
        f32Val (sanitize l.1) - f32Val l.2 < 2 ^ (e2 - 8) ∧
        (f32Val (sanitize l.1) = pixelMax p →
          f32Val (sanitize l.1) - f32Val l.2 < 2 ^ (-7 : ℤ) * f32Val (sanitize l.1))

/-- R107 (c): which quads re-encode to themselves. -/
def Obligations.NormalisedQuadsReencode : Prop :=
  ∀ q : Quad, 128 ≤ max q.r.toNat (max q.g.toNat q.b.toNat) →
    (encodePixel (decodeQuad q) = q ↔
      23 ≤ q.e.toNat ∨ q.e.toNat = 22 ∧ 208 ≤ max q.r.toNat (max q.g.toNat q.b.toNat)) ∧
    (¬(23 ≤ q.e.toNat ∨ q.e.toNat = 22 ∧ 208 ≤ max q.r.toNat (max q.g.toNat q.b.toNat)) →
      encodePixel (decodeQuad q) = { r := 0#8, g := 0#8, b := 0#8, e := 0#8 })

/-! ## Commands that end inside their `CMD` write -/

/-- R150: CLEAR clears `DONE`, `ERR`, `CAUSE`, `ERRINFO` and the counters and nothing else, so `irq` is
low; while busy it is ignored. -/
def Obligations.ClearReturnsStatusToIdle : Prop :=
  encode .clear = .cmd32 0x00000000#32 ∧
  (∀ s : State, s.busy = false →
    exec .clear s = .next { s with
      regs := { s.regs with cmd := 0#32 },
      status := { done := false, err := .none, cause := .none, mode := s.status.mode, op := 0#4 },
      errinfo := { phase := .none, plane := .r, pos := 0#15 },
      counters := { incount := 0#32, outcount := 0#32, pixcount := 0#32 } }) ∧
  (∀ s t : State, s.busy = false → exec .clear s = .next t →
    t.busy = false ∧ t.irq = false ∧ (s.status.mode = .rle → t.statusWord = 0x00000000#32)) ∧
  ∀ s : State, s.busy = true → exec .clear s = .next s

/-- CVT_DEC writes `FR`, `FG`, `FB` from the quad packed in `QUAD` and ends inside the write; nothing else
changes but what every command changes (40_color_converter.md). -/
def Obligations.CvtDecWritesPixelRegisters : Prop :=
  ∀ (s : State) (q : Quad), s.busy = false → s.regs.quad = q.e ++ q.b ++ q.g ++ q.r →
    exec .cvtDec s = .next ({ s with
      regs := { s.regs with
        fr := (decodeQuad q).r, fg := (decodeQuad q).g, fb := (decodeQuad q).b } }.completed 1#32 0 0 0)

/-- CVT_ENC writes `QUAD` from `FR`, `FG`, `FB` and ends inside the write; nothing else changes but what
every command changes (40_color_converter.md). -/
def Obligations.CvtEncWritesQuad : Prop :=
  ∀ (s : State) (q : Quad), s.busy = false →
    encodePixel { r := s.regs.fr, g := s.regs.fg, b := s.regs.fb } = q →
    exec .cvtEnc s = .next ({ s with
      regs := { s.regs with quad := q.e ++ q.b ++ q.g ++ q.r } }.completed 2#32 0 0 0)

/-- R152: an illegal word is stored in `CMD` and raises `IllegalCommand`; no other register changes and
no port is touched. -/
def Obligations.IllegalWordRaises : Prop :=
  (∀ (s : State) (x : Word), s.busy = false →
    x.extractLsb' 4 28 ≠ 0#28 ∨ 9 ≤ (x.extractLsb' 0 4).toNat →
    decodeCommand x = .illegal x ∧ exec (.illegal x) s = .next (s.turnedAway x .illegal)) ∧
  decodeCommand 0x00000011#32 = .illegal 0x00000011#32 ∧
  ∀ s : State, s.busy = false → s.status.mode = .rle →
    ∀ t, exec (.illegal 0x9#32) s = .next t → t.statusWord = 0x00009016#32

/-! ## Commands that run -/

/-- The six streaming commands enter `RUNNING` at the `CMD` write: FLAT_RD and FLAT_WR for every `COUNT`;
SCAN_DEC and SCAN_ENC when `8 <= WIDTH <= 32767` and `YPOS < HEIGHT`; IMG_DEC and IMG_ENC when `WIDTH` and
`HEIGHT` are not 0. Nothing else changes but what every start changes (10_state.md, 44_image_codec.md). That
a running command's first actions come in a later step is the model's choice (log entry 18). -/
def Obligations.StreamingCommandsEnterRunning : Prop :=
  ∀ s : State, s.busy = false →
    (exec .flatRd s = .next (s.entered 3#32 .flatRd) ∧
      exec .flatWr s = .next (s.entered 4#32 .flatWr)) ∧
    (8 ≤ s.w → s.w ≤ 32767 → s.y < s.h →
      exec .scanDec s = .next (s.entered 5#32 .scanDec) ∧
      exec .scanEnc s = .next (s.entered 6#32 .scanEnc)) ∧
    (s.w ≠ 0 → s.h ≠ 0 →
      exec .imgDec s = .next (s.entered 7#32 .imgDec) ∧
      exec .imgEnc s = .next (s.entered 8#32 .imgEnc))

/-- R155: an unusable geometry raises `ConfigError`, inside the `CMD` write and with no port touched; the flat commands have no configuration error. -/
def Obligations.UnusableGeometryIsRefused : Prop :=
  ∀ s : State, s.busy = false →
    ((s.w = 0 ∨ s.h = 0) →
      exec .imgDec s = .next (s.turnedAway 7#32 .config) ∧
      exec .imgEnc s = .next (s.turnedAway 8#32 .config)) ∧
    ((¬(8 ≤ s.w ∧ s.w ≤ 32767) ∨ s.h = 0 ∨ s.h ≤ s.y) →
      exec .scanDec s = .next (s.turnedAway 5#32 .config) ∧
      exec .scanEnc s = .next (s.turnedAway 6#32 .config)) ∧
    (∀ t, exec .flatRd s = .next t → t.status.err ≠ .config) ∧
    ∀ t, exec .flatWr s = .next t → t.status.err ≠ .config

/-- FLAT_RD on a stream of `COUNT` quads: it runs to its end, emits their pixels in order, consumes
exactly their bytes and changes nothing else but what every command changes (41_flat_codec.md). -/
def Obligations.FlatReadRunsToItsEnd : Prop :=
  ∀ (s : State) (qs : List Quad) (rest : List BinAnswer), s.busy = false → s.host = [] →
    s.regs.count.toNat = qs.length → s.ports.bin = asAnswers (flatBytes qs) ++ rest →
    s.ports.poutReady = true →
    RunsTo .flatRd s ({ s with
      ports := { s.ports with bin := rest, pout := s.ports.pout ++ qs.map decodeQuad }
      }.completed 3#32 (4 * qs.length) 0 qs.length)

/-- FLAT_WR on `COUNT` pixels: it runs to its end, writes their quads in order, takes exactly those pixels
and changes nothing else but what every command changes (41_flat_codec.md). -/
def Obligations.FlatWriteRunsToItsEnd : Prop :=
  ∀ (s : State) (ps rest : List Pixel), s.busy = false → s.host = [] →
    s.regs.count.toNat = ps.length → s.ports.pin = ps ++ rest →
    s.ports.boutReady = true → s.ports.boutReject = none →
    RunsTo .flatWr s ({ s with
      ports := { s.ports with
        pin := rest, bout := s.ports.bout ++ flatBytes (ps.map encodePixel) }
      }.completed 4#32 0 (4 * ps.length) ps.length)

/-- SCAN_DEC on an RLE scanline, however its planes are cut into tokens: it runs to its end and emits the
`WIDTH` pixels of the four planes, `YPOS` goes up by 1, `MODE` stays, the bytes consumed are the
marker's and the tokens', and `SB` is written below `4 * WIDTH` only (42_scanline_decode.md). -/
def Obligations.ScanDecodeRunsToItsEnd : Prop :=
  ∀ (s : State) (tr tg tb te : List Byte) (qs : List Quad) (rest : List BinAnswer),
    s.busy = false → s.host = [] → 8 ≤ s.w → s.w ≤ 32767 → s.y < s.h → qs.length = s.w →
    expandPlane s.w tr = some (qs.map Quad.r, []) → expandPlane s.w tg = some (qs.map Quad.g, []) →
    expandPlane s.w tb = some (qs.map Quad.b, []) → expandPlane s.w te = some (qs.map Quad.e, []) →
    s.ports.bin = asAnswers (markerBytes s.w ++ tr ++ tg ++ tb ++ te) ++ rest →
    s.ports.poutReady = true →
    ∃ m, RunsTo .scanDec s ({ s with
      sb := m,
      regs := { s.regs with ypos := s.regs.ypos + 1#32 },
      ports := { s.ports with bin := rest, pout := s.ports.pout ++ qs.map decodeQuad }
      }.completed 5#32 (4 + tr.length + tg.length + tb.length + te.length) 0 s.w) ∧
      ∀ a, 4 * s.w ≤ a → Memory.read m a = Memory.read s.sb a

/-- SCAN_DEC on four bytes that are no marker: it decodes the rest of the image, from the current scanline
on, as flat data with those bytes as its first quad; `MODE` becomes `FLAT` and `YPOS` becomes `HEIGHT`
(42_scanline_decode.md). -/
def Obligations.FallbackDecodesRestOfImage : Prop :=
  ∀ (s : State) (q : Quad) (qs : List Quad) (rest : List BinAnswer),
    s.busy = false → s.host = [] → 8 ≤ s.w → s.w ≤ 32767 → s.y < s.h →
    ¬(q.r = 2#8 ∧ q.g = 2#8 ∧ q.b.msb = false) → (q :: qs).length = (s.h - s.y) * s.w →
    s.ports.bin = asAnswers (flatBytes (q :: qs)) ++ rest → s.ports.poutReady = true →
    RunsTo .scanDec s ({ s with
      status := { s.status with mode := .flat },
      regs := { s.regs with ypos := s.regs.height },
      ports := { s.ports with bin := rest, pout := s.ports.pout ++ (q :: qs).map decodeQuad }
      }.completed 5#32 (4 * (q :: qs).length) 0 (q :: qs).length)

/-- SCAN_ENC on `WIDTH` pixels: it runs to its end, writes the marker and the four encoded planes,
`YPOS` goes up by 1, and `SB` is written below `4 * WIDTH` only (43_scanline_encode.md). -/
def Obligations.ScanEncodeRunsToItsEnd : Prop :=
  ∀ (s : State) (ps rest : List Pixel), s.busy = false → s.host = [] →
    8 ≤ s.w → s.w ≤ 32767 → s.y < s.h → ps.length = s.w → s.ports.pin = ps ++ rest →
    s.ports.boutReady = true → s.ports.boutReject = none →
    ∃ m, RunsTo .scanEnc s ({ s with
      sb := m,
      regs := { s.regs with ypos := s.regs.ypos + 1#32 },
      ports := { s.ports with
        pin := rest, bout := s.ports.bout ++ scanlineBytes s.w (ps.map encodePixel) }
      }.completed 6#32 0 (scanlineBytes s.w (ps.map encodePixel)).length s.w) ∧
      ∀ a, 4 * s.w ≤ a → Memory.read m a = Memory.read s.sb a

/-- IMG_DEC on the scanline data of an image (`ImageData`): `k` RLE scanlines, their planes cut into tokens
in any way, and then the flat rest of the image or nothing; or, when the width is no RLE width, flat quads
only. It runs to its end, emits the `WIDTH * HEIGHT` pixels in raster order and consumes exactly those
bytes; `MODE` is `RLE` only if all scanlines were, `YPOS` is `HEIGHT`, and `SB` is written below `4 * WIDTH`
only, and not at all without an RLE scanline (44_image_codec.md section 2). So (R146) running IMG_ENC and then
IMG_DEC on the bytes it wrote, with the same `WIDTH` and `HEIGHT`, succeeds and emits
`DecodeQuad(EncodePixel(p))` for each pixel. -/
def Obligations.ImageRoundTrip : Prop :=
  (∀ (s : State) (rows : List (List Byte × List Quad)) (flat : List Quad) (rest : List BinAnswer),
    s.busy = false → s.host = [] → 1 ≤ s.w → 1 ≤ s.h → ImageData s.w s.h rows flat →
    s.ports.bin = asAnswers (imageDataBytes rows flat) ++ rest → s.ports.poutReady = true →
    ∃ m, RunsTo .imgDec s ({ s with
      sb := m,
      status := { s.status with mode :=
        if 8 ≤ s.w ∧ s.w ≤ 32767 ∧ rows.length = s.h then .rle else .flat },
      regs := { s.regs with ypos := s.regs.height },
      ports := { s.ports with
        bin := rest, pout := s.ports.pout ++ (imageDataQuads rows flat).map decodeQuad }
      }.completed 7#32 (imageDataBytes rows flat).length 0 (s.w * s.h)) ∧
      (∀ a, 4 * s.w ≤ a → Memory.read m a = Memory.read s.sb a) ∧ (rows = [] → m = s.sb)) ∧
  ∀ (s1 s2 : State) (ps rest1 : List Pixel) (rest2 : List BinAnswer),
    s1.busy = false → s1.host = [] → 1 ≤ s1.w → 1 ≤ s1.h → ps.length = s1.w * s1.h →
    s1.ports.pin = ps ++ rest1 → s1.ports.boutReady = true → s1.ports.boutReject = none →
    s2.busy = false → s2.host = [] → s2.w = s1.w → s2.h = s1.h → s2.ports.poutReady = true →
    ∃ t1 bs, RunsTo .imgEnc s1 t1 ∧ t1.status.done = true ∧ t1.status.err = .none ∧
      t1.ports.bout = s1.ports.bout ++ bs ∧
      (s2.ports.bin = asAnswers bs ++ rest2 →
        ∃ t2, RunsTo .imgDec s2 t2 ∧ t2.status.done = true ∧ t2.status.err = .none ∧
          t2.ports.bin = rest2 ∧
          t2.ports.pout = s2.ports.pout ++ ps.map fun p => decodeQuad (encodePixel p))

/-- IMG_ENC writes the scanline data of the image: RLE scanlines only, when the width allows RLE, and flat
quads otherwise; `MODE` says which, `YPOS` ends at `HEIGHT`, and `SB` is written below `4 * WIDTH` only, and
not at all when the width does not allow RLE (44_image_codec.md, 30_encoding.md). -/
def Obligations.ImageEncodeWritesScanlineData : Prop :=
  ∀ (s : State) (ps rest : List Pixel), s.busy = false → s.host = [] → 1 ≤ s.w → 1 ≤ s.h →
    ps.length = s.w * s.h → s.ports.pin = ps ++ rest →
    s.ports.boutReady = true → s.ports.boutReject = none →
    ∃ m, RunsTo .imgEnc s ({ s with
      sb := m,
      status := { s.status with mode := if 8 ≤ s.w ∧ s.w ≤ 32767 then .rle else .flat },
      regs := { s.regs with ypos := s.regs.height },
      ports := { s.ports with
        pin := rest, bout := s.ports.bout ++ imageBytes s.w s.h (ps.map encodePixel) }
      }.completed 8#32 0 (imageBytes s.w s.h (ps.map encodePixel)).length (s.w * s.h)) ∧
      (∀ a, 4 * s.w ≤ a → Memory.read m a = Memory.read s.sb a) ∧
      (¬(8 ≤ s.w ∧ s.w ≤ 32767) → m = s.sb)

/-! ## Host accesses -/

/-- R181: while busy every host write, `CMD` included, is ignored, and every read returns the live value
and changes nothing else. -/
def Obligations.BusyWritesAreIgnored : Prop :=
  ∀ s : State, s.busy = true →
    (∀ size off x, exec (busInstr (.write size off x)) s = .next s ∧
      exec (.regWr size off x) s = .next s) ∧
    ∀ size off, exec (busInstr (.read size off)) s = .next { s with rdata := s.readBus size off }

/-- A whole-word host write to `CMD` is the command its word encodes (44_image_codec.md). -/
def Obligations.CmdWriteStartsCommand : Prop :=
  ∀ (s : State) (x : Word),
    busInstr (.write .word 0x00#8 x) = decodeCommand x ∧
    exec (.regWr .word 0x00#8 x) s = exec (decodeCommand x) s

/-- A whole-word write to one of the eight other writable registers, made while idle, stores all 32 bits,
reads back as written and changes no other register (10_state.md). -/
def Obligations.WritableRegistersReadBack : Prop :=
  ∀ (s : State) (off : BitVec 8) (x : Word), s.busy = false →
    off ∈ [0x08#8, 0x0C#8, 0x10#8, 0x14#8, 0x18#8, 0x1C#8, 0x20#8, 0x24#8] →
    ∃ r : Regs, exec (.regWr .word off x) s = .next { s with regs := r } ∧
      ({ s with regs := r } : State).readReg off = x ∧
      ∀ other, other ≠ off → ({ s with regs := r } : State).readReg other = s.readReg other

/-- A host write to a read-only register, to a reserved or misaligned offset, or narrower than a word is
ignored (10_state.md, 20_memory.md). -/
def Obligations.OtherWritesAreIgnored : Prop :=
  ∀ (s : State) (size : AccessSize) (off : BitVec 8) (x : Word), s.busy = false →
    size ≠ .word ∨ off.toNat % 4 ≠ 0 ∨ off = 0x04#8 ∨ 0x28 ≤ off.toNat →
    exec (.regWr size off x) s = .next s

/-- A host read returns the register of the map at its offset, or 0 at a reserved or misaligned offset or
when it is narrower than a word; it changes nothing but the data returned (10_state.md, 20_memory.md). The
field that holds the data is the model's (log entry 13). -/
def Obligations.RegisterReadFollowsMap : Prop :=
  ∀ (s : State) (size : AccessSize) (off : BitVec 8),
    ∃ v, exec (.regRd size off) s = .next { s with rdata := v } ∧
      (size = .word →
        (off = 0x00#8 → v = s.regs.cmd) ∧ (off = 0x04#8 → v = s.statusWord) ∧
        (off = 0x08#8 → v = s.regs.width) ∧ (off = 0x0C#8 → v = s.regs.height) ∧
        (off = 0x10#8 → v = s.regs.ypos) ∧ (off = 0x14#8 → v = s.regs.count) ∧
        (off = 0x18#8 → v = s.regs.quad) ∧ (off = 0x1C#8 → v = s.regs.fr) ∧
        (off = 0x20#8 → v = s.regs.fg) ∧ (off = 0x24#8 → v = s.regs.fb) ∧
        (off = 0x28#8 → v = s.errinfo.word) ∧ (off = 0x2C#8 → v = s.counters.incount) ∧
        (off = 0x30#8 → v = s.counters.outcount) ∧ (off = 0x34#8 → v = s.counters.pixcount)) ∧
      (size ≠ .word ∨ off.toNat % 4 ≠ 0 ∨ 0x38 ≤ off.toNat → v = 0#32)

/-- Where the fields of `STATUS` and `ERRINFO` stand in the words a host reads, every other bit being 0, and
the value each field has for each of its meanings (10_state.md, 60_exceptions.md). -/
def Obligations.StatusAndErrinfoLayout : Prop :=
  (ErrKind.code .none = 0#3 ∧ ErrKind.code .read = 1#3 ∧ ErrKind.code .write = 2#3 ∧
    ErrKind.code .format = 3#3 ∧ ErrKind.code .config = 4#3 ∧ ErrKind.code .illegal = 5#3) ∧
  (Cause.code .none = 0#3 ∧ Cause.code .wrongWidth = 1#3 ∧ Cause.code .zeroCount = 2#3 ∧
    Cause.code .runOverflow = 3#3 ∧ Cause.code .literalOverflow = 4#3) ∧
  (Mode.code .rle = 0#1 ∧ Mode.code .flat = 1#1) ∧
  (Plane.code .r = 0#2 ∧ Plane.code .g = 1#2 ∧ Plane.code .b = 2#2 ∧ Plane.code .e = 3#2) ∧
  (Phase.code .none = 0#2 ∧ Phase.code .marker = 1#2 ∧ Phase.code .plane = 2#2 ∧
    Phase.code .flat = 3#2) ∧
  ∀ s : State,
    s.statusWord.getLsbD 0 = s.busy ∧ s.statusWord.getLsbD 1 = s.status.done ∧
    s.statusWord.extractLsb' 2 3 = s.status.err.code ∧
    s.statusWord.extractLsb' 5 3 = s.status.cause.code ∧
    s.statusWord.extractLsb' 8 1 = s.status.mode.code ∧ s.statusWord.extractLsb' 9 3 = 0#3 ∧
    s.statusWord.extractLsb' 12 4 = s.status.op ∧ s.statusWord.extractLsb' 16 16 = 0#16 ∧
    s.status.err.code.toNat < 6 ∧ s.status.cause.code.toNat < 5 ∧
    s.errinfo.word.extractLsb' 0 15 = s.errinfo.pos ∧ s.errinfo.word.getLsbD 15 = false ∧
    s.errinfo.word.extractLsb' 16 2 = s.errinfo.plane.code ∧
    s.errinfo.word.extractLsb' 18 2 = s.errinfo.phase.code ∧
    s.errinfo.word.extractLsb' 20 12 = 0#12

/-! ## Stream units -/

/-- R117: at a scanline start a marker that declares `WIDTH` opens plane R; any other raises `FormatError`
with cause `WRONG_WIDTH` and the declared width in `ERRINFO`, and so does every width below 8 when
`WIDTH` is one the scanline commands accept. -/
def Obligations.MarkerWidthIsChecked : Prop :=
  ∀ (s : State) (op : Op) (buf : List Byte) (hi : BitVec 7) (lo : Byte),
    s.engine = .running op (.marker buf) →
    (hi.toNat * 256 + lo.toNat = s.w →
      exec (.marker hi lo) s = .next { s with engine := .running op (.token .r 0 []) }) ∧
    (hi.toNat * 256 + lo.toNat ≠ s.w →
      exec (.marker hi lo) s = .next { s with
        status := { s.status with done := true, err := .format, cause := .wrongWidth },
        errinfo := { phase := .marker, plane := .r, pos := hi ++ lo },
        engine := .idle }) ∧
    (8 ≤ s.w → hi.toNat * 256 + lo.toNat < 8 → hi.toNat * 256 + lo.toNat ≠ s.w)

/-- Four bytes that are no marker switch `MODE` to `FLAT` and become the first of the quads of the rest of
the image; nothing else changes (42_scanline_decode.md). -/
def Obligations.NonmarkerSwitchesToFlat : Prop :=
  ∀ (s : State) (op : Op) (buf : List Byte) (b0 b1 b2 b3 : Byte),
    s.engine = .running op (.marker buf) →
    exec (.nonmarker b0 b1 b2 b3) s = .next { s with
      status := { s.status with mode := .flat },
      engine := .running op (.quad ((s.h - s.y) * s.w - 1) [b0, b1, b2, b3]) }

/-- R119: a run that fits writes its bytes into the plane and moves on by its length; one that would
overflow raises `RUN_OVERFLOW` and writes nothing. The decoder never reads a run of length 0. -/
def Obligations.RunTokenFillsPlane : Prop :=
  (∀ (s : State) (op : Op) (p : Plane) (pos : Nat) (buf : List Byte) (n : BitVec 7) (v : Byte),
    s.engine = .running op (.token p pos buf) → s.w ≤ 32767 → pos ≤ s.w →
    (pos + n.toNat ≤ s.w → ∃ m,
      exec (.run n v) s =
        .next { s with sb := m, engine := .running op (.token p (pos + n.toNat) []) } ∧
      ∀ a, Memory.read m a =
        if planeAddr s.w p pos ≤ a ∧ a < planeAddr s.w p pos + n.toNat then some v
        else Memory.read s.sb a) ∧
    (s.w < pos + n.toNat →
      exec (.run n v) s = .next { s with
        status := { s.status with done := true, err := .format, cause := .runOverflow },
        errinfo := { phase := .plane, plane := p, pos := BitVec.ofNat 15 pos },
        engine := .idle })) ∧
  ∀ c v n u, decodeToken c v = .run n u → 1 ≤ n.toNat ∧ n.toNat = c.toNat - 128

/-- A literal token that fits writes its first data byte and goes on to read the others; one that would
overflow raises `LITERAL_OVERFLOW` with nothing written and no further byte read
(42_scanline_decode.md). -/
def Obligations.LiteralTokenStarts : Prop :=
  ∀ (s : State) (op : Op) (p : Plane) (pos : Nat) (buf : List Byte) (i : Instr) (c : Nat) (v : Byte),
    (∃ n : BitVec 7, n ≠ 0#7 ∧ c = n.toNat ∧ i = .lit n v) ∨ c = 128 ∧ i = .lit128 v →
    s.engine = .running op (.token p pos buf) → s.w ≤ 32767 → pos ≤ s.w →
    (pos + c ≤ s.w → ∃ m,
      exec i s = .next { s with sb := m, engine := .running op (.litRest p pos c []) } ∧
      ∀ a, Memory.read m a =
        if a = planeAddr s.w p pos then some v else Memory.read s.sb a) ∧
    (s.w < pos + c →
      exec i s = .next { s with
        status := { s.status with done := true, err := .format, cause := .literalOverflow },
        errinfo := { phase := .plane, plane := p, pos := BitVec.ofNat 15 pos },
        engine := .idle })

/-- The rest of a literal token: the engine pulls the remaining data bytes as data, writes them after the
first, and stands at the next token (42_scanline_decode.md). That this takes exactly `c` steps, one for each
of the `c - 1` pulls and one for the writing, is the model's choice (log entries 3 and 12). -/
def Obligations.LiteralDataFillsPlane : Prop :=
  ∀ (s : State) (op : Op) (p : Plane) (pos : Nat) (data : List Byte) (rest : List BinAnswer),
    s.engine = .running op (.litRest p pos (data.length + 1) []) → s.host = [] →
    s.w ≤ 32767 → pos + data.length + 1 ≤ s.w → s.ports.bin = asAnswers data ++ rest →
    ∃ m,
      stepN (data.length + 1) s = .next { s with
        sb := m,
        ports := { s.ports with bin := rest },
        counters := { s.counters with
          incount := s.counters.incount + BitVec.ofNat 32 data.length },
        engine := .running op (.token p (pos + data.length + 1) []) } ∧
      ∀ a, Memory.read m a =
        if planeAddr s.w p (pos + 1) ≤ a ∧ a < planeAddr s.w p (pos + 1) + data.length
        then data[a - planeAddr s.w p (pos + 1)]? else Memory.read s.sb a

/-- R75: count byte 0 raises `FormatError` with cause `ZERO_COUNT` after both bytes are read, and writes
nothing. -/
def Obligations.ZeroCountRaises : Prop :=
  (∀ x, decodeToken 0x00#8 x = .zero x) ∧
  ∀ (s : State) (op : Op) (p : Plane) (pos : Nat) (buf : List Byte) (x : Byte),
    s.engine = .running op (.token p pos buf) →
    exec (.zero x) s = .next { s with
      status := { s.status with done := true, err := .format, cause := .zeroCount },
      errinfo := { phase := .plane, plane := p, pos := BitVec.ofNat 15 pos },
      engine := .idle }

/-- A quad of flat data puts its pixel on POUT and counts it; then the next quad is read, or the flat part
is over. While POUT does not accept, nothing changes (41_flat_codec.md, 20_memory.md). -/
def Obligations.QuadPutsPixel : Prop :=
  ∀ (s : State) (op : Op) (left : Nat) (buf : List Byte) (r g b e : Byte),
    s.engine = .running op (.quad left buf) →
    (s.ports.poutReady = true →
      exec (.quad r g b e) s = .next { s with
        ports := { s.ports with pout := s.ports.pout ++ [decodeQuad { r, g, b, e }] },
        counters := { s.counters with pixcount := s.counters.pixcount + 1#32 },
        engine := .running op (match left with | 0 => .flatDone | n + 1 => .quad n []) }) ∧
    (s.ports.poutReady = false → exec (.quad r g b e) s = .next s)

/-! ## Steps -/

/-- A step runs the decoded instruction: the host's next register access, or the stream unit whose bytes
the engine has read, is executed by `exec`, in the state that is left when it is fetched (log entries 1
and 3). -/
def Obligations.StepRunsDecodedInstruction : Prop :=
  (∀ (s : State) (a : BusAccess) (rest : List HostAct), s.host = .bus a :: rest →
    step s = exec (busInstr a) { s with host := rest }) ∧
  ∀ (s : State) (op : Op) (k : Pos) (ctx : StreamContext) (bs left : List Byte) (i : Instr),
    s.host = [] → s.engine = .running op k → k.unit = some (ctx, bs) →
    decodeStream ctx bs = .ok (i, left) → step s = exec i s

/-- A pull of a byte consumes exactly that byte, counts it and adds it to what the engine has read; nothing
else changes (20_memory.md). The engine pulls at a scanline start, a plane token, a literal's data and a
flat quad. -/
def Obligations.PullConsumesOneByte : Prop :=
  ∀ (s : State) (op : Op) (k k' : Pos) (b : Byte) (rest : List BinAnswer),
    s.host = [] → s.engine = .running op k → s.ports.bin = .byte b :: rest →
    (∃ buf, k = .marker buf ∧ buf.length < 4 ∧ k' = .marker (buf ++ [b])) ∨
    (∃ p pos buf, k = .token p pos buf ∧ buf.length < 2 ∧ (pos < s.w ∨ buf ≠ []) ∧
      k' = .token p pos (buf ++ [b])) ∨
    (∃ p pos c buf, k = .litRest p pos c buf ∧ buf.length + 1 < c ∧
      k' = .litRest p pos c (buf ++ [b])) ∨
    (∃ left buf, k = .quad left buf ∧ buf.length < 4 ∧ k' = .quad left (buf ++ [b])) →
    step s = .next { s with
      ports := { s.ports with bin := rest },
      counters := { s.counters with incount := s.counters.incount + 1#32 },
      engine := .running op k' }

/-- A pull that is answered `FAIL` raises `ReadError`, with the phase, plane and position of the place the
command was at; bytes consumed before stay consumed (20_memory.md, 60_exceptions.md). The host answers
`FAIL` once, or for good after `EOS`. -/
def Obligations.FailedPullRaisesReadError : Prop :=
  ∀ (s : State) (op : Op) (k : Pos) (info : ErrInfo) (rest : List BinAnswer),
    s.host = [] → s.engine = .running op k →
    s.ports.bin = .fail :: rest ∨ s.ports.bin = [] ∧ s.ports.binEos = true ∧ rest = [] →
    (∃ buf, k = .marker buf ∧ buf.length < 4 ∧
      info = { phase := .marker, plane := .r, pos := 0#15 }) ∨
    (∃ p pos buf, k = .token p pos buf ∧ buf.length < 2 ∧ (pos < s.w ∨ buf ≠ []) ∧
      info = { phase := .plane, plane := p, pos := BitVec.ofNat 15 pos }) ∨
    (∃ p pos c buf, k = .litRest p pos c buf ∧ buf.length + 1 < c ∧
      info = { phase := .plane, plane := p, pos := BitVec.ofNat 15 pos }) ∨
    (∃ left buf, k = .quad left buf ∧ buf.length < 4 ∧
      info = { phase := .flat, plane := .r, pos := 0#15 }) →
    step s = .next { s with
      status := { s.status with done := true, err := .read, cause := .none },
      errinfo := info,
      ports := { s.ports with bin := rest },
      engine := .idle }

/-- A push that is answered `FAIL` raises `WriteError`, with the phase, plane and position of the place the
command was at; the byte is not written and the bytes before it stay written (20_memory.md,
60_exceptions.md). -/
def Obligations.FailedPushRaisesWriteError : Prop :=
  ∀ (s : State) (op : Op) (k : Pos) (info : ErrInfo), s.host = [] → s.engine = .running op k →
    s.ports.boutReady = true → s.ports.boutReject = some 0 →
    (∃ b bs, k = .markerOut (b :: bs) ∧ info = { phase := .marker, plane := .r, pos := 0#15 }) ∨
    (∃ p data t ts cur b bs, k = .planeEmit p data (t :: ts) cur ∧ t.bytes = b :: bs ∧
      info = { phase := .plane, plane := p, pos := BitVec.ofNat 15 t.start }) ∨
    (∃ left b bs, k = .quadOut left (b :: bs) ∧
      info = { phase := .flat, plane := .r, pos := 0#15 }) →
    step s = .next { s with
      status := { s.status with done := true, err := .write, cause := .none },
      errinfo := info,
      ports := { s.ports with boutReject := none },
      engine := .idle }

/-- An idle engine, and one that waits on a port the host does not answer, keep all their state
(60_exceptions.md, 70_reset_and_hazards.md). -/
def Obligations.WaitingEngineKeepsState : Prop :=
  ∀ s : State, s.host = [] →
    s.engine = .idle ∨
    (s.ports.bin = [] ∧ s.ports.binEos = false ∧
      ((∃ op buf, s.engine = .running op (.marker buf) ∧ buf.length < 4) ∨
       (∃ op p pos buf, s.engine = .running op (.token p pos buf) ∧ buf.length < 2 ∧
          (pos < s.w ∨ buf ≠ [])) ∨
       (∃ op p pos c buf, s.engine = .running op (.litRest p pos c buf) ∧ buf.length + 1 < c) ∨
       ∃ op left buf, s.engine = .running op (.quad left buf) ∧ buf.length < 4)) ∨
    (s.ports.boutReady = false ∧
      ((∃ op b bs, s.engine = .running op (.markerOut (b :: bs))) ∨
       (∃ op p data t ts cur, s.engine = .running op (.planeEmit p data (t :: ts) cur) ∧
          t.bytes ≠ []) ∨
       ∃ op left b bs, s.engine = .running op (.quadOut left (b :: bs)))) ∨
    (s.ports.pin = [] ∧
      ((∃ op i, s.engine = .running op (.pixIn i) ∧ i < s.w) ∨
       ∃ op left, s.engine = .running op (.pixel left))) ∨
    (s.ports.poutReady = false ∧
      ((∃ op left r g b e, s.engine = .running op (.quad left [r, g, b, e])) ∨
       ∃ op i, s.engine = .running op (.emit i) ∧ i < s.w ∧ s.w ≤ 32767)) →
    step s = .next s

/-- R173 and R174: `rst` gives every piece of block state the value it has after reset, whatever the engine
was doing, and moves nothing on the ports. -/
def Obligations.ResetRestoresBlockState : Prop :=
  ∀ (s : State) (rest : List HostAct), s.host = .rst :: rest →
    ∃ t, step s = .next t ∧ t.regs = State.reset.regs ∧ t.status = State.reset.status ∧
      t.errinfo = State.reset.errinfo ∧ t.counters = State.reset.counters ∧ t.engine = .idle ∧
      t.status.done = false ∧ t.irq = false ∧ t.ports = s.ports

/-- R45: the values of the block's state after reset. -/
def Obligations.ResetValues : Prop :=
  (∀ off, State.reset.readReg off = 0#32) ∧
  State.reset.status = { done := false, err := .none, cause := .none, mode := .rle, op := 0#4 } ∧
  State.reset.regs.cmd = 0#32 ∧ State.reset.regs.width = 0#32 ∧ State.reset.regs.height = 0#32 ∧
  State.reset.regs.ypos = 0#32 ∧ State.reset.regs.count = 0#32 ∧ State.reset.regs.quad = 0#32 ∧
  State.reset.regs.fr = 0#32 ∧ State.reset.regs.fg = 0#32 ∧ State.reset.regs.fb = 0#32 ∧
  State.reset.errinfo = { phase := .none, plane := .r, pos := 0#15 } ∧
  State.reset.counters = { incount := 0#32, outcount := 0#32, pixcount := 0#32 } ∧
  State.reset.engine = .idle ∧ State.reset.busy = false ∧ State.reset.irq = false

/-! ## The whole machine -/

/-- The invariant holds at reset. -/
def Obligations.InvariantHoldsAtReset : Prop := Inv State.reset

/-- Every step keeps the invariant: the scanline buffer stays canonical, `OP` is that of `CMD`, `ERR` and
`CAUSE` fit, and a running command is at a place its rule reaches, with the geometry and the mode its
rule gives it and with every byte of `SB` it will read written (10_state.md, 42 and 43). -/
def Obligations.EveryStepKeepsInvariant : Prop :=
  ∀ s t : State, Inv s → step s = .next t → Inv t

/-- From a state of the invariant every step is a step of the hardware (no index outside `SB`, no instruction
without a meaning) and depends on no byte of `SB` that the running command has not written itself: with any
other bytes there, written or unspecified, the step does the same (10_state.md, 20_memory.md). -/
def Obligations.InvariantStatesAreSafe : Prop := ∀ s : State, Inv s → Safe s

/-- R39: `MODE` changes only at the start of a whole-image command, at a fallback, or at reset; and what it
becomes there. -/
def Obligations.ModeChangesOnlyWhereSaid : Prop :=
  ∀ s t : State, step s = .next t → t.status.mode ≠ s.status.mode →
    (∃ op, (op = .imgDec ∨ op = .imgEnc) ∧ s.engine = .running op .entry ∧
      t.status.mode = if 8 ≤ s.w ∧ s.w ≤ 32767 then .rle else .flat) ∨
    (∃ op b0 b1 b2 b3 bs, s.engine = .running op (.marker (b0 :: b1 :: b2 :: b3 :: bs)) ∧
      isMarker b0 b1 b2 = false ∧ t.status.mode = .flat) ∨
    ∃ rest, s.host = .rst :: rest ∧ t.status.mode = .rle

/-- The engine writes no operand register: `CMD`, `WIDTH`, `HEIGHT`, `COUNT`, `QUAD`, `FR`, `FG`, `FB`
change only in a step in which the host writes a register or `rst` is asserted; and a step that changes
`YPOS` otherwise is the start of a whole-image command, the end of a scanline, or the end of a flat part
(10_state.md). -/
def Obligations.EngineWritesOnlyYpos : Prop :=
  ∀ s t : State, step s = .next t →
    (¬∃ rest, s.host = .rst :: rest) →
    (¬∃ size off x rest, s.host = .bus (.write size off x) :: rest) →
    t.regs = { s.regs with ypos := t.regs.ypos } ∧
    (t.regs.ypos ≠ s.regs.ypos →
      (∃ op, (op = .imgDec ∨ op = .imgEnc) ∧ s.engine = .running op .entry ∧ t.regs.ypos = 0#32) ∨
      (∃ op i, s.engine = .running op (.emit i) ∧ s.w ≤ i ∧ t.regs.ypos = s.regs.ypos + 1#32) ∨
      (∃ op data cur, s.engine = .running op (.planeScan .e data cur) ∧ data.length ≤ cur ∧
        t.regs.ypos = s.regs.ypos + 1#32) ∨
      ∃ op, s.engine = .running op .flatDone ∧ t.regs.ypos = s.regs.height)

/-- R163: `irq` rises only when a command ends and falls only at a `CMD` write or at reset. -/
def Obligations.CompletionLineFollowsCommands : Prop :=
  ∀ s t : State, step s = .next t →
    (s.irq = false → t.irq = true →
      t.busy = false ∧ (s.busy = true ∨ ∃ x rest, s.host = .bus (.write .word 0x00#8 x) :: rest)) ∧
    (s.irq = true → t.irq = false →
      (s.busy = false ∧ ∃ x rest, s.host = .bus (.write .word 0x00#8 x) :: rest) ∨
      ∃ rest, s.host = .rst :: rest)

/-- In one step of the engine at most one transfer happens on the four ports, and what was accepted on the
output ports stays, in order (20_memory.md, 70_reset_and_hazards.md). That a step is one transfer is the
model's choice within the transaction level (log entry 3). -/
def Obligations.OneTransferPerStep : Prop :=
  ∀ s t : State, s.host = [] → step s = .next t →
    (t.ports.bin = s.ports.bin ∧ t.ports.bout = s.ports.bout ∧ t.ports.pin = s.ports.pin ∧
      t.ports.pout = s.ports.pout) ∨
    (∃ a, s.ports.bin = a :: t.ports.bin ∧ t.ports.bout = s.ports.bout ∧
      t.ports.pin = s.ports.pin ∧ t.ports.pout = s.ports.pout) ∨
    (∃ b, t.ports.bin = s.ports.bin ∧ t.ports.bout = s.ports.bout ++ [b] ∧
      t.ports.pin = s.ports.pin ∧ t.ports.pout = s.ports.pout) ∨
    (∃ p, t.ports.bin = s.ports.bin ∧ t.ports.bout = s.ports.bout ∧
      s.ports.pin = p :: t.ports.pin ∧ t.ports.pout = s.ports.pout) ∨
    ∃ p, t.ports.bin = s.ports.bin ∧ t.ports.bout = s.ports.bout ∧
      t.ports.pin = s.ports.pin ∧ t.ports.pout = s.ports.pout ++ [p]

/-! ## The plane encoder -/

/-- R136 (a): each pass of the plane encoder advances, and stays inside the plane. -/
def Obligations.EncoderPassAdvances : Prop :=
  ∀ (data : List Byte) (cur : Nat), cur < data.length →
    cur < (encodePass data cur).2 ∧ (encodePass data cur).2 ≤ data.length

/-- R136 (b): the tokens written for a plane decode to that plane, whatever bytes follow. -/
def Obligations.EncodedPlaneDecodes : Prop :=
  ∀ data rest : List Byte, expandPlane data.length (encodePlane data ++ rest) = some (data, rest)

/-- R136 (c): every run token written has length 2..127 and is 2 or 3 only as a dangling short run; every
literal token has length 1..128 and carries that many bytes; no count byte 0x00 or 0x81 is written. -/
def Obligations.EncodedTokenRanges : Prop :=
  ∀ (data : List Byte) (cur : Nat), cur < data.length → ∀ t ∈ (encodePass data cur).1,
    ∃ c bs, t.bytes = c :: bs ∧ c ≠ 0x00#8 ∧ c ≠ 0x81#8 ∧ cur ≤ t.start ∧ t.start < data.length ∧
      (128 < c.toNat → bs.length = 1 ∧
        (t.phase = .emittingLiteral → c.toNat ≤ 131) ∧ (t.phase = .emittingRun → 132 ≤ c.toNat)) ∧
      (c.toNat ≤ 128 → bs.length = c.toNat ∧ t.phase = .emittingLiteral)

/-- R136 (d): the size of an encoded plane and of an encoded scanline. -/
def Obligations.EncodedSizeBound : Prop :=
  (∀ data : List Byte, (encodePlane data).length ≤ data.length + (data.length + 127) / 128) ∧
  ∀ (w : Nat) (qs : List Quad), qs.length = w →
    (scanlineBytes w qs).length ≤ 4 + 4 * (w + (w + 127) / 128)

/-- R132: a candidate run is never measured beyond 127 bytes; a stretch of more than 127 equal bytes, wherever
in a plane it begins, is written as a run of 127, then whatever the encoder makes of the rest. What stands
before the stretch is written as it would be without it. -/
def Obligations.LongRunsAreCapped : Prop :=
  (∀ (pre : List Byte) (v : Byte) (xs : List Byte), pre.getLast? ≠ some v →
    encodePlane (pre ++ List.replicate 127 v ++ xs) = encodePlane pre ++ 0xFF#8 :: v :: encodePlane xs) ∧
  (∀ xs : List Byte, runAt xs ≤ 127) ∧
  encodePlane (List.replicate 200 5#8) = [0xFF#8, 5#8, 0xC9#8, 5#8]
end

