-- ==== Sys2Proof/Laws/Memory.lean ====
section
/-!
SUPPORT. The laws of the scanline buffer: a read after a write to the same index gives the byte written,
a write leaves every other index alone, and every operation keeps the canonical form.
-/

namespace Sys2Proof.Machine

@[simp] theorem Memory.read_nil (a : Nat) : Memory.read [] a = none := rfl

theorem Memory.read_write_self (m : Memory) (a : Nat) (b : Byte) :
    Memory.read (Memory.write m a b) a = some b := by
  induction m with
  | nil => simp [Memory.write, Memory.read]
  | cons c m ih =>
    obtain ⟨k, v⟩ := c
    simp only [Memory.write]
    split
    · simp [Memory.read]
    · split
      · simp [Memory.read]
      · rename_i h; simp [Memory.read, h, ih]

theorem Memory.read_write_ne (m : Memory) {a i : Nat} (b : Byte) (h : i ≠ a) :
    Memory.read (Memory.write m a b) i = Memory.read m i := by
  induction m with
  | nil => simp [Memory.write, Memory.read, Ne.symm h]
  | cons c m ih =>
    obtain ⟨k, v⟩ := c
    simp only [Memory.write]
    split
    · simp [Memory.read, Ne.symm h]
    · split
      · rename_i hk; subst hk; simp [Memory.read, Ne.symm h]
      · simp [Memory.read, ih]

/-- A read after one byte was written, in one equation. -/
theorem Memory.read_write (m : Memory) (a i : Nat) (b : Byte) :
    Memory.read (Memory.write m a b) i = if i = a then some b else Memory.read m i := by
  split
  · rename_i h; subst h; exact Memory.read_write_self m i b
  · rename_i h; exact Memory.read_write_ne m b h

/-- A read after `MemWrite` (R50): inside the range it gives the byte written there, outside what it
gave before. -/
theorem Memory.read_writeList (bs : List Byte) (m : Memory) (a i : Nat) :
    Memory.read (Memory.writeList m a bs) i =
      if a ≤ i ∧ i < a + bs.length then bs[i - a]? else Memory.read m i := by
  induction bs generalizing m a with
  | nil => simp [Memory.writeList]
  | cons b bs ih =>
    simp only [Memory.writeList, ih, Memory.read_write, List.length_cons]
    by_cases h1 : i = a
    · subst h1; simp
    · by_cases h2 : a + 1 ≤ i ∧ i < a + 1 + bs.length
      · have h3 : a ≤ i ∧ i < a + (bs.length + 1) := by omega
        rw [if_pos h2, if_pos h3, show i - a = (i - (a + 1)) + 1 by omega, List.getElem?_cons_succ]
      · have h3 : ¬(a ≤ i ∧ i < a + (bs.length + 1)) := by omega
        rw [if_neg h2, if_neg h3, if_neg h1]

/-! ## The canonical form -/

/-- The head of a memory in canonical form lies inside `SB`. -/
theorem Memory.wf_head {k : Nat} {v : Byte} {m : Memory} (h : Memory.wf ((k, v) :: m) = true) :
    k < Config.sbCapacity := by
  induction m generalizing k v with
  | nil => simpa [Memory.wf] using h
  | cons c m ih =>
    obtain ⟨k', v'⟩ := c
    simp only [Memory.wf, Bool.and_eq_true, decide_eq_true_eq] at h
    exact lt_trans h.1 (ih h.2)

theorem Memory.wf_tail {c : Host.Cell} {m : Memory} (h : Memory.wf (c :: m) = true) :
    Memory.wf m = true := by
  cases m with
  | nil => rfl
  | cons d m => simp only [Memory.wf, Bool.and_eq_true] at h; exact h.2

/-- The canonical form of a list with a head: the head lies inside and below the next entry. -/
theorem Memory.wf_cons {k : Nat} {v : Byte} {m : Memory} :
    Memory.wf ((k, v) :: m) = true ↔
      k < Config.sbCapacity ∧ Memory.wf m = true ∧ ∀ c ∈ m.head?, k < c.1 := by
  constructor
  · intro h
    refine ⟨Memory.wf_head h, Memory.wf_tail h, ?_⟩
    cases m with
    | nil => simp
    | cons d m => simp only [Memory.wf, Bool.and_eq_true, decide_eq_true_eq] at h; simpa using h.1
  · rintro ⟨h1, h2, h3⟩
    cases m with
    | nil => simpa [Memory.wf] using h1
    | cons d m =>
      simp only [Memory.wf, Bool.and_eq_true, decide_eq_true_eq]
      exact ⟨by simpa using h3, h2⟩

theorem Memory.head_write (m : Memory) (a k : Nat) (b : Byte) (hk : k < a)
    (hm : ∀ c ∈ m.head?, k < c.1) : ∀ c ∈ (Memory.write m a b).head?, k < c.1 := by
  cases m with
  | nil => simpa [Memory.write] using hk
  | cons d m =>
    obtain ⟨k', v'⟩ := d
    simp only [Memory.write]
    split
    · simpa using hk
    · split
      · simpa using hk
      · simpa using hm

/-- One byte written inside `SB` keeps the canonical form. -/
theorem Memory.wf_write {m : Memory} {a : Nat} (b : Byte) (hm : Memory.wf m = true)
    (ha : a < Config.sbCapacity) : Memory.wf (Memory.write m a b) = true := by
  induction m with
  | nil => simpa [Memory.write, Memory.wf] using ha
  | cons d m ih =>
    obtain ⟨k, v⟩ := d
    have h := Memory.wf_cons.1 hm
    simp only [Memory.write]
    split
    · rename_i hlt; exact Memory.wf_cons.2 ⟨ha, hm, by simpa using hlt⟩
    · split
      · rename_i heq; subst heq; exact Memory.wf_cons.2 ⟨ha, h.2.1, h.2.2⟩
      · exact Memory.wf_cons.2 ⟨h.1, ih h.2.1, Memory.head_write m a k b (by omega) h.2.2⟩

/-- `MemWrite` inside `SB` keeps the canonical form. -/
theorem Memory.wf_writeList {bs : List Byte} {m : Memory} {a : Nat} (hm : Memory.wf m = true)
    (ha : a + bs.length ≤ Config.sbCapacity) : Memory.wf (Memory.writeList m a bs) = true := by
  induction bs generalizing m a with
  | nil => exact hm
  | cons b bs ih =>
    simp only [List.length_cons] at ha
    exact ih (Memory.wf_write b hm (by omega)) (by omega)

/-! ## `MemRead` -/

/-- A written byte reads as what was written (R50). -/
theorem Memory.byteAt_of_read {m : Memory} {epoch i : Nat} {b : Byte} (h : Memory.read m i = some b) :
    Memory.byteAt m epoch i = b := by simp [Memory.byteAt, h]

@[simp] theorem Memory.bytesAt_length (m : Memory) (epoch a n : Nat) :
    (Memory.bytesAt m epoch a n).length = n := by
  induction n generalizing a with
  | zero => rfl
  | succ n ih => simp [Memory.bytesAt, ih]

/-- `MemRead` gives the bytes in order (R50). -/
theorem Memory.bytesAt_getElem? (m : Memory) (epoch a n i : Nat) :
    (Memory.bytesAt m epoch a n)[i]? = if i < n then some (Memory.byteAt m epoch (a + i)) else none := by
  induction n generalizing a i with
  | zero => simp [Memory.bytesAt]
  | succ n ih =>
    cases i with
    | zero => simp [Memory.bytesAt]
    | succ i => simp [Memory.bytesAt, ih, Nat.add_assoc, Nat.add_comm 1 i]

/-- `MemRead` of written bytes depends on those bytes only. -/
theorem Memory.bytesAt_congr {m m' : Memory} {epoch epoch' a n : Nat}
    (h : ∀ i, a ≤ i → i < a + n → (Memory.read m i).isSome = true ∧ Memory.read m' i = Memory.read m i) :
    Memory.bytesAt m' epoch' a n = Memory.bytesAt m epoch a n := by
  induction n generalizing a with
  | zero => rfl
  | succ n ih =>
    obtain ⟨h1, h2⟩ := h a (by omega) (by omega)
    obtain ⟨b, hb⟩ := Option.isSome_iff_exists.1 h1
    simp only [Memory.bytesAt]
    rw [ih fun i h1 h2 => h i (by omega) (by omega), Memory.byteAt_of_read hb,
      Memory.byteAt_of_read (h2.trans hb)]

end Sys2Proof.Machine
end

