-- ==== Sys2Proof/Laws/Numeric.lean ====
section
/-!
SUPPORT. What the numeric operations of the converter do: the fields of a pattern by division, the value
of a pattern from its scaled integer, and the pattern of a scaled integer.
-/

namespace Sys2Proof.Machine

theorem f32Exp_eq (b : Word) : f32Exp b = b.toNat / 2 ^ 23 % 256 := by
  simp [f32Exp, BitVec.extractLsb'_toNat, Nat.shiftRight_eq_div_pow]

theorem f32Frac_eq (b : Word) : f32Frac b = b.toNat % 2 ^ 23 := by
  simp [f32Frac, BitVec.extractLsb'_toNat]

theorem f32Sign_eq_false (b : Word) : f32Sign b = false ↔ b.toNat < 2 ^ 31 := by
  simp [f32Sign, BitVec.msb_eq_decide]

theorem f32Frac_lt (b : Word) : f32Frac b < 2 ^ 23 := by
  rw [f32Frac_eq]; omega

/-- The value of a non-negative finite pattern is its scaled integer times `2^-149` (R10). -/
theorem f32Val_eq_scaled {b : Word} (hs : f32Sign b = false) :
    f32Val b = (scaled b : ℚ) * 2 ^ (-149 : ℤ) := by
  unfold f32Val scaled
  by_cases h : f32Exp b = 0
  · simp [h, hs]
  · obtain ⟨k, hk⟩ : ∃ k, f32Exp b = k + 1 := ⟨f32Exp b - 1, by omega⟩
    have e : ((k : ℤ) + 1 - 127) = (k : ℤ) + 23 + (-149) := by ring
    simp only [hk, hs]
    push_cast
    rw [e, zpow_add₀ (by norm_num), zpow_add₀ (by norm_num)]
    norm_num
    ring

/-- The pattern of an exactly representable scaled integer: it is finite, not negative, and has that
scaled integer (R10). -/
theorem f32OfScaled_spec {n : Nat} (hd : 2 ^ (Nat.log2 n - 23) ∣ n) (hn : n < 2 ^ 277) :
    f32Sign (f32OfScaled n) = false ∧ f32Finite (f32OfScaled n) ∧ scaled (f32OfScaled n) = n := by
  obtain ⟨m, hm⟩ := hd
  generalize hk : Nat.log2 n - 23 = k at hm
  have hp : 0 < 2 ^ k := Nat.two_pow_pos k
  have hq : n / 2 ^ k = m := by rw [hm, Nat.mul_div_cancel_left _ hp]
  have hm24 : m < 2 ^ 24 := by
    rw [← hq, Nat.div_lt_iff_lt_mul hp, ← Nat.pow_add]
    exact Nat.lt_of_lt_of_le Nat.lt_log2_self (Nat.pow_le_pow_right (by decide) (by omega))
  have hk253 : k ≤ 253 := by
    by_cases h0 : n = 0
    · subst h0; simp at hk; omega
    · have := (Nat.log2_lt h0).2 hn; omega
  have hm23 : k ≠ 0 → 2 ^ 23 ≤ m := by
    intro h
    have h0 : n ≠ 0 := by rintro rfl; simp at hk; omega
    rw [← hq, Nat.le_div_iff_mul_le hp, ← Nat.pow_add]
    exact Nat.le_trans (Nat.pow_le_pow_right (by decide) (by omega)) (Nat.log2_self_le h0)
  have hP : (f32OfScaled n).toNat = k * 2 ^ 23 + m := by
    simp only [f32OfScaled, hk, hq, BitVec.toNat_ofNat]; omega
  refine ⟨by rw [f32Sign_eq_false, hP]; omega, ?_, ?_⟩
  · unfold f32Finite; rw [f32Exp_eq, hP]; omega
  · unfold scaled
    rw [f32Exp_eq, f32Frac_eq, hP]
    by_cases h : m < 2 ^ 23
    · have : k = 0 := by by_contra hc; have := hm23 hc; omega
      subst this
      rw [if_pos (by omega)]; simp at hm ⊢; omega
    · have e : (k * 2 ^ 23 + m) / 2 ^ 23 % 256 = k + 1 := by omega
      have f : (k * 2 ^ 23 + m) % 2 ^ 23 = m - 2 ^ 23 := by omega
      rw [e, f, if_neg (by omega), show 2 ^ 23 + (m - 2 ^ 23) = m by omega, hm, Nat.add_sub_cancel,
        Nat.mul_comm]

end Sys2Proof.Machine
end

