-- ==== Sys2Proof/Laws/State.lean ====
section
/-!
SUPPORT. What each named update of the state leaves in each field, once, so that no proof unfolds a
record update.
-/

namespace Sys2Proof.Machine

@[simp] theorem State.start_regs (s : State) (x : Word) : (s.start x).regs = { s.regs with cmd := x } := rfl
@[simp] theorem State.start_status (s : State) (x : Word) : (s.start x).status = { s.status with done := false, err := .none, cause := .none, op := x.extractLsb' 0 4 } := rfl
@[simp] theorem State.start_errinfo (s : State) (x : Word) : (s.start x).errinfo = ErrInfo.zero := rfl
@[simp] theorem State.start_counters (s : State) (x : Word) : (s.start x).counters = { incount := 0#32, outcount := 0#32, pixcount := 0#32 } := rfl
@[simp] theorem State.start_engine (s : State) (x : Word) : (s.start x).engine = s.engine := rfl
@[simp] theorem State.start_sb (s : State) (x : Word) : (s.start x).sb = s.sb := rfl
@[simp] theorem State.start_sbEpoch (s : State) (x : Word) : (s.start x).sbEpoch = s.sbEpoch := rfl
@[simp] theorem State.start_ports (s : State) (x : Word) : (s.start x).ports = s.ports := rfl
@[simp] theorem State.start_host (s : State) (x : Word) : (s.start x).host = s.host := rfl
@[simp] theorem State.start_rdata (s : State) (x : Word) : (s.start x).rdata = s.rdata := rfl

@[simp] theorem State.at_regs (s : State) (op : Op) (k : Pos) : (s.at op k).regs = s.regs := rfl
@[simp] theorem State.at_status (s : State) (op : Op) (k : Pos) : (s.at op k).status = s.status := rfl
@[simp] theorem State.at_errinfo (s : State) (op : Op) (k : Pos) : (s.at op k).errinfo = s.errinfo := rfl
@[simp] theorem State.at_counters (s : State) (op : Op) (k : Pos) : (s.at op k).counters = s.counters := rfl
@[simp] theorem State.at_engine (s : State) (op : Op) (k : Pos) : (s.at op k).engine = .running op k := rfl
@[simp] theorem State.at_sb (s : State) (op : Op) (k : Pos) : (s.at op k).sb = s.sb := rfl
@[simp] theorem State.at_sbEpoch (s : State) (op : Op) (k : Pos) : (s.at op k).sbEpoch = s.sbEpoch := rfl
@[simp] theorem State.at_ports (s : State) (op : Op) (k : Pos) : (s.at op k).ports = s.ports := rfl
@[simp] theorem State.at_host (s : State) (op : Op) (k : Pos) : (s.at op k).host = s.host := rfl
@[simp] theorem State.at_rdata (s : State) (op : Op) (k : Pos) : (s.at op k).rdata = s.rdata := rfl

@[simp] theorem State.finish_regs (s : State) : (s.finish).regs = s.regs := rfl
@[simp] theorem State.finish_status (s : State) : (s.finish).status = { s.status with done := true, err := .none, cause := .none } := rfl
@[simp] theorem State.finish_errinfo (s : State) : (s.finish).errinfo = s.errinfo := rfl
@[simp] theorem State.finish_counters (s : State) : (s.finish).counters = s.counters := rfl
@[simp] theorem State.finish_engine (s : State) : (s.finish).engine = .idle := rfl
@[simp] theorem State.finish_sb (s : State) : (s.finish).sb = s.sb := rfl
@[simp] theorem State.finish_sbEpoch (s : State) : (s.finish).sbEpoch = s.sbEpoch := rfl
@[simp] theorem State.finish_ports (s : State) : (s.finish).ports = s.ports := rfl
@[simp] theorem State.finish_host (s : State) : (s.finish).host = s.host := rfl
@[simp] theorem State.finish_rdata (s : State) : (s.finish).rdata = s.rdata := rfl

@[simp] theorem State.raise_regs (s : State) (err : ErrKind) (cause : Cause) (info : ErrInfo) : (s.raise err cause info).regs = s.regs := rfl
@[simp] theorem State.raise_status (s : State) (err : ErrKind) (cause : Cause) (info : ErrInfo) : (s.raise err cause info).status = { s.status with done := true, err := err, cause := cause } := rfl
@[simp] theorem State.raise_errinfo (s : State) (err : ErrKind) (cause : Cause) (info : ErrInfo) : (s.raise err cause info).errinfo = info := rfl
@[simp] theorem State.raise_counters (s : State) (err : ErrKind) (cause : Cause) (info : ErrInfo) : (s.raise err cause info).counters = s.counters := rfl
@[simp] theorem State.raise_engine (s : State) (err : ErrKind) (cause : Cause) (info : ErrInfo) : (s.raise err cause info).engine = .idle := rfl
@[simp] theorem State.raise_sb (s : State) (err : ErrKind) (cause : Cause) (info : ErrInfo) : (s.raise err cause info).sb = s.sb := rfl
@[simp] theorem State.raise_sbEpoch (s : State) (err : ErrKind) (cause : Cause) (info : ErrInfo) : (s.raise err cause info).sbEpoch = s.sbEpoch := rfl
@[simp] theorem State.raise_ports (s : State) (err : ErrKind) (cause : Cause) (info : ErrInfo) : (s.raise err cause info).ports = s.ports := rfl
@[simp] theorem State.raise_host (s : State) (err : ErrKind) (cause : Cause) (info : ErrInfo) : (s.raise err cause info).host = s.host := rfl
@[simp] theorem State.raise_rdata (s : State) (err : ErrKind) (cause : Cause) (info : ErrInfo) : (s.raise err cause info).rdata = s.rdata := rfl

@[simp] theorem State.setYpos_regs (s : State) (v : Word) : (s.setYpos v).regs = { s.regs with ypos := v } := rfl
@[simp] theorem State.setYpos_status (s : State) (v : Word) : (s.setYpos v).status = s.status := rfl
@[simp] theorem State.setYpos_errinfo (s : State) (v : Word) : (s.setYpos v).errinfo = s.errinfo := rfl
@[simp] theorem State.setYpos_counters (s : State) (v : Word) : (s.setYpos v).counters = s.counters := rfl
@[simp] theorem State.setYpos_engine (s : State) (v : Word) : (s.setYpos v).engine = s.engine := rfl
@[simp] theorem State.setYpos_sb (s : State) (v : Word) : (s.setYpos v).sb = s.sb := rfl
@[simp] theorem State.setYpos_sbEpoch (s : State) (v : Word) : (s.setYpos v).sbEpoch = s.sbEpoch := rfl
@[simp] theorem State.setYpos_ports (s : State) (v : Word) : (s.setYpos v).ports = s.ports := rfl
@[simp] theorem State.setYpos_host (s : State) (v : Word) : (s.setYpos v).host = s.host := rfl
@[simp] theorem State.setYpos_rdata (s : State) (v : Word) : (s.setYpos v).rdata = s.rdata := rfl

@[simp] theorem State.setMode_regs (s : State) (m : Mode) : (s.setMode m).regs = s.regs := rfl
@[simp] theorem State.setMode_status (s : State) (m : Mode) : (s.setMode m).status = { s.status with mode := m } := rfl
@[simp] theorem State.setMode_errinfo (s : State) (m : Mode) : (s.setMode m).errinfo = s.errinfo := rfl
@[simp] theorem State.setMode_counters (s : State) (m : Mode) : (s.setMode m).counters = s.counters := rfl
@[simp] theorem State.setMode_engine (s : State) (m : Mode) : (s.setMode m).engine = s.engine := rfl
@[simp] theorem State.setMode_sb (s : State) (m : Mode) : (s.setMode m).sb = s.sb := rfl
@[simp] theorem State.setMode_sbEpoch (s : State) (m : Mode) : (s.setMode m).sbEpoch = s.sbEpoch := rfl
@[simp] theorem State.setMode_ports (s : State) (m : Mode) : (s.setMode m).ports = s.ports := rfl
@[simp] theorem State.setMode_host (s : State) (m : Mode) : (s.setMode m).host = s.host := rfl
@[simp] theorem State.setMode_rdata (s : State) (m : Mode) : (s.setMode m).rdata = s.rdata := rfl

@[simp] theorem State.assertReset_regs (s : State) : (s.assertReset).regs = State.reset.regs := rfl
@[simp] theorem State.assertReset_status (s : State) : (s.assertReset).status = State.reset.status := rfl
@[simp] theorem State.assertReset_errinfo (s : State) : (s.assertReset).errinfo = State.reset.errinfo := rfl
@[simp] theorem State.assertReset_counters (s : State) : (s.assertReset).counters = State.reset.counters := rfl
@[simp] theorem State.assertReset_engine (s : State) : (s.assertReset).engine = State.reset.engine := rfl
@[simp] theorem State.assertReset_sb (s : State) : (s.assertReset).sb = State.reset.sb := rfl
@[simp] theorem State.assertReset_sbEpoch (s : State) : (s.assertReset).sbEpoch = s.sbEpoch + 1 := rfl
@[simp] theorem State.assertReset_ports (s : State) : (s.assertReset).ports = s.ports := rfl
@[simp] theorem State.assertReset_host (s : State) : (s.assertReset).host = s.host := rfl
@[simp] theorem State.assertReset_rdata (s : State) : (s.assertReset).rdata = s.rdata := rfl

@[simp] theorem State.start_busy (s : State) (x : Word) : (s.start x).busy = s.busy := rfl
@[simp] theorem State.at_busy (s : State) (op : Op) (k : Pos) : (s.at op k).busy = true := rfl
@[simp] theorem State.finish_busy (s : State) : (s.finish).busy = false := rfl
@[simp] theorem State.raise_busy (s : State) (err : ErrKind) (cause : Cause) (info : ErrInfo) : (s.raise err cause info).busy = false := rfl
@[simp] theorem State.setYpos_busy (s : State) (v : Word) : (s.setYpos v).busy = s.busy := rfl
@[simp] theorem State.setMode_busy (s : State) (m : Mode) : (s.setMode m).busy = s.busy := rfl
@[simp] theorem State.assertReset_busy (s : State) : (s.assertReset).busy = false := rfl

@[simp] theorem State.start_w (s : State) (x : Word) : (s.start x).w = s.w := rfl
@[simp] theorem State.start_h (s : State) (x : Word) : (s.start x).h = s.h := rfl
@[simp] theorem State.start_y (s : State) (x : Word) : (s.start x).y = s.y := rfl
@[simp] theorem State.at_w (s : State) (op : Op) (k : Pos) : (s.at op k).w = s.w := rfl
@[simp] theorem State.at_h (s : State) (op : Op) (k : Pos) : (s.at op k).h = s.h := rfl
@[simp] theorem State.at_y (s : State) (op : Op) (k : Pos) : (s.at op k).y = s.y := rfl
@[simp] theorem State.finish_w (s : State) : (s.finish).w = s.w := rfl
@[simp] theorem State.finish_h (s : State) : (s.finish).h = s.h := rfl
@[simp] theorem State.finish_y (s : State) : (s.finish).y = s.y := rfl
@[simp] theorem State.raise_w (s : State) (err : ErrKind) (cause : Cause) (info : ErrInfo) : (s.raise err cause info).w = s.w := rfl
@[simp] theorem State.raise_h (s : State) (err : ErrKind) (cause : Cause) (info : ErrInfo) : (s.raise err cause info).h = s.h := rfl
@[simp] theorem State.raise_y (s : State) (err : ErrKind) (cause : Cause) (info : ErrInfo) : (s.raise err cause info).y = s.y := rfl
@[simp] theorem State.setYpos_w (s : State) (v : Word) : (s.setYpos v).w = s.w := rfl
@[simp] theorem State.setYpos_h (s : State) (v : Word) : (s.setYpos v).h = s.h := rfl
@[simp] theorem State.setYpos_y (s : State) (v : Word) : (s.setYpos v).y = v.toNat := rfl
@[simp] theorem State.setMode_w (s : State) (m : Mode) : (s.setMode m).w = s.w := rfl
@[simp] theorem State.setMode_h (s : State) (m : Mode) : (s.setMode m).h = s.h := rfl
@[simp] theorem State.setMode_y (s : State) (m : Mode) : (s.setMode m).y = s.y := rfl

/-- `BUSY` is 0 exactly when the engine is idle (R40). -/
theorem State.busy_eq_false (s : State) : s.busy = false ↔ s.engine = .idle := by
  cases h : s.engine <;> simp [State.busy, Engine.isRunning, h]

/-- `BUSY` is 1 exactly when a command is running (R40). -/
theorem State.busy_eq_true (s : State) : s.busy = true ↔ ∃ op k, s.engine = .running op k := by
  cases h : s.engine <;> simp [State.busy, Engine.isRunning, h]

end Sys2Proof.Machine
end

