-- ==== Sys2Proof/Laws/Ops.lean ====
section
/-!
SUPPORT. What each shared operation can do, once: if it answers a next state, then one of these cases
holds. Later proofs cite these and do not unfold the operations.
-/

namespace Sys2Proof.Machine

/-- One pull of `ReadExact` (R52): a byte is consumed and counted, or `ReadError` is raised, or the
engine waits. -/
theorem pullByte_next {s t : State} {info : ErrInfo} {next : Byte → State → Result}
    (h : pullByte s info next = .next t) :
    (∃ b rest, s.ports.bin = .byte b :: rest ∧
      next b { s with
        ports := { s.ports with bin := rest },
        counters := { s.counters with incount := s.counters.incount + 1#32 } } = .next t) ∨
    (∃ rest, s.ports.bin = .fail :: rest ∧
      t = { s with ports := { s.ports with bin := rest } }.raise .read .none info) ∨
    (s.ports.bin = [] ∧ s.ports.binEos = true ∧ t = s.raise .read .none info) ∨
    (s.ports.bin = [] ∧ s.ports.binEos = false ∧ t = s) := by
  unfold pullByte at h
  split at h
  · rename_i b rest hb; exact .inl ⟨b, rest, hb, h⟩
  · rename_i rest hb; exact .inr (.inl ⟨rest, hb, by simpa [eq_comm] using h⟩)
  · rename_i hb
    split at h
    · rename_i he; exact .inr (.inr (.inl ⟨hb, he, by simpa [eq_comm] using h⟩))
    · rename_i he; exact .inr (.inr (.inr ⟨hb, by simpa using he, by simpa [eq_comm] using h⟩))

/-- One push of `WriteExact` (R53): the byte is accepted and counted, or `WriteError` is raised, or the
engine waits. `r` is what is left of a `REJECT after n`. -/
theorem pushByte_next {s t : State} {info : ErrInfo} {b : Byte} {next : State → Result}
    (h : pushByte s info b next = .next t) :
    (s.ports.boutReady = true ∧ s.ports.boutReject ≠ some 0 ∧
      ∃ r, next { s with
        ports := { s.ports with bout := s.ports.bout ++ [b], boutReject := r },
        counters := { s.counters with outcount := s.counters.outcount + 1#32 } } = .next t) ∨
    (s.ports.boutReady = true ∧ s.ports.boutReject = some 0 ∧
      t = { s with ports := { s.ports with boutReject := none } }.raise .write .none info) ∨
    (s.ports.boutReady = false ∧ t = s) := by
  unfold pushByte at h
  split at h
  · rename_i hr
    split at h
    · rename_i h0; exact .inr (.inl ⟨hr, h0, by simpa [eq_comm] using h⟩)
    · rename_i n hn; exact .inl ⟨hr, by simp [hn], some n, h⟩
    · rename_i hn
      exact .inl ⟨hr, by simp [hn], none, by simpa only [hn] using h⟩
  · rename_i hr; exact .inr (.inr ⟨by simpa using hr, by simpa [eq_comm] using h⟩)

/-- `PixPut` (R54): the pixel is accepted and counted, or the engine waits. -/
theorem putPixel_next {s t : State} {p : Pixel} {next : State → Result}
    (h : putPixel s p next = .next t) :
    (s.ports.poutReady = true ∧
      next { s with
        ports := { s.ports with pout := s.ports.pout ++ [p] },
        counters := { s.counters with pixcount := s.counters.pixcount + 1#32 } } = .next t) ∨
    (s.ports.poutReady = false ∧ t = s) := by
  unfold putPixel at h
  split at h
  · rename_i hr; exact .inl ⟨hr, h⟩
  · rename_i hr; exact .inr ⟨by simpa using hr, by simpa [eq_comm] using h⟩

/-- `PixGet` (R55): a pixel is taken and counted, or the engine waits. -/
theorem takePixel_next {s t : State} {next : Pixel → State → Result}
    (h : takePixel s next = .next t) :
    (∃ p rest, s.ports.pin = p :: rest ∧
      next p { s with
        ports := { s.ports with pin := rest },
        counters := { s.counters with pixcount := s.counters.pixcount + 1#32 } } = .next t) ∨
    (s.ports.pin = [] ∧ t = s) := by
  unfold takePixel at h
  split at h
  · rename_i p rest hp; exact .inl ⟨p, rest, hp, h⟩
  · rename_i hp; exact .inr ⟨hp, by simpa [eq_comm] using h⟩

/-- `MemWrite` (R50): the bytes are written inside `SB`. -/
theorem writeSB_next {s t : State} {a : Nat} {bs : List Byte} {next : State → Result}
    (h : writeSB s a bs next = .next t) :
    a + bs.length ≤ Config.sbCapacity ∧ next { s with sb := Memory.writeList s.sb a bs } = .next t := by
  unfold writeSB at h
  split at h
  · rename_i ha; exact ⟨ha, h⟩
  · cases h

/-- `MemRead` (R50): the bytes are inside `SB`, and nothing changes. -/
theorem readSB_next {s t : State} {a n : Nat} {next : List Byte → Result}
    (h : readSB s a n next = .next t) :
    a + n ≤ Config.sbCapacity ∧ next (Memory.bytesAt s.sb s.sbEpoch a n) = .next t := by
  unfold readSB at h
  split at h
  · rename_i ha; exact ⟨ha, h⟩
  · cases h

end Sys2Proof.Machine
end

