-- ==== Sys2Proof/Laws/PerInstr.lean ====
section
/-!
SUPPORT. A fact about the words of each instruction, one lemma per constructor: a command word is legal
unless the instruction is ILLEGAL, a stream unit has the length its place on the stream fixes, and a host
access is its own encoding (R67, R68, R70, R71, R118, R151).
-/

namespace Sys2Proof

/-- How many bytes the engine reads before it decodes: 4 at a scanline start (R116), 2 for a plane token
(R118), 4 for a quad (R109). -/
def StreamContext.unitBytes : StreamContext → Nat
  | .scanStart => 4
  | .planeToken => 2
  | .flat => 4

/-- The form of an instruction's words. -/
def Laws.EncodedForm.Statement (i : Instr) : Prop :=
  match encode i with
  | .cmd32 x => legalCommandWord x ∨ i = .illegal x
  | .stream ctx bytes => bytes.length = ctx.unitBytes
  | .hostbus a => decodeBus a = i

theorem Laws.EncodedForm.clear : Laws.EncodedForm.Statement .clear := .inl (by decide)
theorem Laws.EncodedForm.cvtDec : Laws.EncodedForm.Statement .cvtDec := .inl (by decide)
theorem Laws.EncodedForm.cvtEnc : Laws.EncodedForm.Statement .cvtEnc := .inl (by decide)
theorem Laws.EncodedForm.flatRd : Laws.EncodedForm.Statement .flatRd := .inl (by decide)
theorem Laws.EncodedForm.flatWr : Laws.EncodedForm.Statement .flatWr := .inl (by decide)
theorem Laws.EncodedForm.scanDec : Laws.EncodedForm.Statement .scanDec := .inl (by decide)
theorem Laws.EncodedForm.scanEnc : Laws.EncodedForm.Statement .scanEnc := .inl (by decide)
theorem Laws.EncodedForm.imgDec : Laws.EncodedForm.Statement .imgDec := .inl (by decide)
theorem Laws.EncodedForm.imgEnc : Laws.EncodedForm.Statement .imgEnc := .inl (by decide)
theorem Laws.EncodedForm.illegal (x : Word) : Laws.EncodedForm.Statement (.illegal x) := .inr rfl
theorem Laws.EncodedForm.marker (hi : BitVec 7) (lo : Byte) :
    Laws.EncodedForm.Statement (.marker hi lo) := rfl
theorem Laws.EncodedForm.nonmarker (b0 b1 b2 b3 : Byte) :
    Laws.EncodedForm.Statement (.nonmarker b0 b1 b2 b3) := rfl
theorem Laws.EncodedForm.run (n : BitVec 7) (v : Byte) : Laws.EncodedForm.Statement (.run n v) := rfl
theorem Laws.EncodedForm.lit (n : BitVec 7) (v : Byte) : Laws.EncodedForm.Statement (.lit n v) := rfl
theorem Laws.EncodedForm.lit128 (v : Byte) : Laws.EncodedForm.Statement (.lit128 v) := rfl
theorem Laws.EncodedForm.zero (x : Byte) : Laws.EncodedForm.Statement (.zero x) := rfl
theorem Laws.EncodedForm.quad (r g b e : Byte) : Laws.EncodedForm.Statement (.quad r g b e) := rfl
theorem Laws.EncodedForm.regRd (size : AccessSize) (off : BitVec 8) :
    Laws.EncodedForm.Statement (.regRd size off) := rfl
theorem Laws.EncodedForm.regWr (size : AccessSize) (off : BitVec 8) (x : Word) :
    Laws.EncodedForm.Statement (.regWr size off x) := rfl

end Sys2Proof
end

