-- ==== Sys2Proof/Laws/PlaneEncode.lean ====
section
/-!
SUPPORT. What one candidate and one search of the plane encoder find (R130, R131, R133).
-/

namespace Sys2Proof.Machine

/-- A candidate has length 1 to 127, lies inside what is left of the plane, and consists of equal bytes. -/
theorem runAt_spec (x : Byte) (xs : List Byte) :
    1 ≤ runAt (x :: xs) ∧ runAt (x :: xs) ≤ 127 ∧ runAt (x :: xs) ≤ (x :: xs).length ∧
      (x :: xs).take (runAt (x :: xs)) = List.replicate (runAt (x :: xs)) x := by
  have hlen : (xs.takeWhile (· == x)).length ≤ xs.length := (List.takeWhile_sublist _).length_le
  refine ⟨by simp [runAt], by simp [runAt], by simp [runAt]; omega, ?_⟩
  have htake : ∀ k, k ≤ (xs.takeWhile (· == x)).length → xs.take k = List.replicate k x := by
    intro k hk
    obtain ⟨t, ht⟩ := List.takeWhile_prefix (p := (· == x)) (l := xs)
    have hpre : xs.take k = (xs.takeWhile (· == x)).take k := by
      conv_lhs => rw [← ht]
      rw [List.take_append_of_le_length hk]
    rw [hpre, List.eq_replicate_iff]
    exact ⟨by simp [hk], fun b hb => by simpa using List.mem_takeWhile_imp (List.mem_of_mem_take hb)⟩
  obtain ⟨k, hk⟩ : ∃ k, runAt (x :: xs) = k + 1 := ⟨runAt (x :: xs) - 1, by simp [runAt]⟩
  rw [hk, List.take_succ_cons, List.replicate_succ, htake k (by simp [runAt] at hk; omega)]

/-- The `k` bytes of a plane from `a` on are equal. -/
def EqualBytes (data : List Byte) (a k : Nat) : Prop :=
  (data.drop a).take k = List.replicate k (data.getD a 0#8)

/-- What a search from `cur` ends with: a qualifying run inside the plane, or the end of the plane; and
the last failed candidate, of at most 3 equal bytes, ends where the search does. -/
structure SearchSpec (data : List Byte) (cur : Nat) (f : Search) : Prop where
  cur_le : cur ≤ f.beg
  beg_le : f.beg ≤ data.length
  old_le : f.old ≤ 3 ∧ f.old ≤ f.beg - cur
  old_eq : EqualBytes data (f.beg - f.old) f.old
  found : 4 ≤ f.run → f.run ≤ 127 ∧ f.beg + f.run ≤ data.length ∧ EqualBytes data f.beg f.run
  ended : f.run < 4 → f.beg = data.length

/-- The candidate at a position of the plane. -/
theorem runAt_drop {data : List Byte} {a : Nat} (h : a < data.length) :
    1 ≤ runAt (data.drop a) ∧ runAt (data.drop a) ≤ 127 ∧ a + runAt (data.drop a) ≤ data.length ∧
      EqualBytes data a (runAt (data.drop a)) := by
  have hd : data.drop a = data[a] :: data.drop (a + 1) := List.drop_eq_getElem_cons h
  have hs := runAt_spec data[a] (data.drop (a + 1))
  rw [← hd] at hs
  have hg : data.getD a 0#8 = data[a] := by simp [h]
  refine ⟨hs.1, hs.2.1, ?_, ?_⟩
  · have := hs.2.2.1; simp at this; omega
  · rw [EqualBytes, hg]; exact hs.2.2.2

theorem searchRun_spec (data : List Byte) (cur : Nat) :
    ∀ fuel beg run old, cur ≤ beg → beg ≤ data.length → old ≤ 3 → old ≤ beg - cur →
      EqualBytes data (beg - old) old →
      (beg < data.length → 1 ≤ run ∧ run ≤ 127 ∧ beg + run ≤ data.length ∧ EqualBytes data beg run) →
      (beg = data.length → run = 1) → data.length - beg < fuel →
      SearchSpec data cur (searchRun data fuel beg run old) := by
  intro fuel
  induction fuel with
  | zero => intros; omega
  | succ fuel ih =>
    intro beg run old h1 h2 h3 h4 h5 h6 h7 h8
    unfold searchRun
    by_cases hc : run < Config.minRun ∧ beg < data.length
    · rw [if_pos hc]
      obtain ⟨hr, hb⟩ := hc
      obtain ⟨r1, r2, r3, r4⟩ := h6 hb
      simp only [Config.minRun] at hr
      refine ih (beg + run) (runAt (data.drop (beg + run))) run (by omega) (by omega) (by omega) (by omega)
        ?_ (fun h => runAt_drop h) ?_ (by omega)
      · rw [Nat.add_sub_cancel]; exact r4
      · intro h; rw [h, List.drop_length]; rfl
    · rw [if_neg hc]
      simp only [Config.minRun] at hc
      have hb : 4 ≤ run → beg < data.length := fun h => by
        rcases Nat.lt_or_ge beg data.length with h' | h'
        · exact h'
        · have := h7 (by omega); omega
      exact ⟨h1, h2, ⟨h3, h4⟩, h5, fun h => ⟨(h6 (hb h)).2.1, (h6 (hb h)).2.2.1, (h6 (hb h)).2.2.2⟩,
        fun h => by
          rcases Nat.lt_or_ge beg data.length with h' | h'
          · exact absurd ⟨h, h'⟩ hc
          · exact Nat.le_antisymm h2 h'⟩

/-- One search from a position inside the plane. -/
theorem search_spec {data : List Byte} {cur : Nat} (h : cur < data.length) :
    SearchSpec data cur (search data cur) := by
  unfold search searchRun
  rw [if_pos ⟨by decide, h⟩, Nat.add_zero]
  exact searchRun_spec data cur _ _ _ _ (Nat.le_refl _) (Nat.le_of_lt h) (by omega) (by omega)
    (by simp [EqualBytes]) (fun _ => runAt_drop h) (fun e => by omega) (by omega)

end Sys2Proof.Machine
end

