-- ==== Sys2Proof/Laws/Step.lean ====
section
/-!
SUPPORT. When a step is the engine's own next action: the host does nothing, and no stream unit has been
read in full.
-/

namespace Sys2Proof

/-- Bytes that end inside the unit do not decode. -/
theorem decodeStream_truncated {ctx : StreamContext} {bs : List Byte} (h : bs.length < ctx.unitBytes) :
    decodeStream ctx bs = .error (.truncated ctx bs.length) := by
  cases ctx <;> unfold decodeStream <;> split <;> simp_all [StreamContext.unitBytes] <;> omega

end Sys2Proof

namespace Sys2Proof.Machine

/-- An engine that has no stream unit to execute takes its own next action. -/
theorem step_engine {s : State} {op : Op} {k : Pos} (hh : s.host = []) (he : s.engine = .running op k)
    (hu : ∀ ctx bs, k.unit = some (ctx, bs) → bs.length < ctx.unitBytes) :
    step s = engineStep op k s := by
  simp only [step, nextEvent, hh, engineEvent, he]
  cases hk : k.unit with
  | none => rfl
  | some u => obtain ⟨ctx, bs⟩ := u; simp [decodeStream_truncated (hu ctx bs hk)]

end Sys2Proof.Machine
end

