-- ==== Sys2Proof/Tests/Slice0.lean ====
section
/-!
SUPPORT. Tests: words written out from the encoding tables of 30_encoding.md, one-step results taken from
the vectors of 95_test_vectors.md, and a witness of the hypotheses of each statement that has any.
-/

open Sys2Proof Sys2Proof.Machine

namespace Sys2Proof.Tests

/-- A field of the next state, if there is one. -/
def next? {α : Type} (r : Result) (f : State → α) : Option α :=
  match r with
  | .next s => some (f s)
  | .fault _ => none
  | .refused _ => none

/-- After reset, with `WIDTH` 8, `HEIGHT` 2 and `YPOS` 0. -/
def idle8 : State :=
  { State.reset with regs := { State.reset.regs with width := 8#32, height := 2#32 } }

/-- The same with a SCAN_DEC at a position. -/
def dec8 (k : Pos) : State :=
  { idle8 with
    regs := { idle8.regs with cmd := 5#32 }, status := { idle8.status with op := 5#4 },
    engine := .running .scanDec k }

/-- The same with a SCAN_ENC at a position. -/
def enc8 (k : Pos) : State :=
  { idle8 with
    regs := { idle8.regs with cmd := 6#32 }, status := { idle8.status with op := 6#4 },
    engine := .running .scanEnc k }

/-- A state with bytes on BIN. -/
def withBin (s : State) (bs : List Byte) : State :=
  { s with ports := { s.ports with bin := asAnswers bs } }

/-- A state whose host has these actions to come. -/
def withHost (s : State) (acts : List HostAct) : State := { s with host := acts }

/-- The pixel (1.0, 0.5, 0.25) and its quad (vector C-E2). -/
def pix : Pixel := { r := 0x3F800000#32, g := 0x3F000000#32, b := 0x3E800000#32 }
def pixQuad : Quad := { r := 128#8, g := 64#8, b := 32#8, e := 129#8 }

/-! ## Well-formedness -/

theorem test_wf_illegal : WellFormed (.illegal 0x00000008#32) = false := by decide
theorem test_wf_nonmarker : WellFormed (.nonmarker 2#8 2#8 0#8 8#8) = false := by decide
theorem test_wf_run : WellFormed (.run 0#7 5#8) = false := by decide
theorem test_wf_lit : WellFormed (.lit 0#7 5#8) = false := by decide

/-! ## Decoding: words written out from 30_encoding.md -/

theorem test_decode_clear : decodeCommand 0b00000000000000000000000000000000#32 = .clear := by decide
theorem test_decode_cvtDec : decodeCommand 0b00000000000000000000000000000001#32 = .cvtDec := by decide
theorem test_decode_cvtEnc : decodeCommand 0b00000000000000000000000000000010#32 = .cvtEnc := by decide
theorem test_decode_flatRd : decodeCommand 0b00000000000000000000000000000011#32 = .flatRd := by decide
theorem test_decode_flatWr : decodeCommand 0b00000000000000000000000000000100#32 = .flatWr := by decide
theorem test_decode_scanDec : decodeCommand 0b00000000000000000000000000000101#32 = .scanDec := by decide
theorem test_decode_scanEnc : decodeCommand 0b00000000000000000000000000000110#32 = .scanEnc := by decide
theorem test_decode_imgDec : decodeCommand 0b00000000000000000000000000000111#32 = .imgDec := by decide
theorem test_decode_imgEnc : decodeCommand 0b00000000000000000000000000001000#32 = .imgEnc := by decide
/-- The first reserved opcode, and an assigned one with a reserved bit set (vectors Y-2, Y-3). -/
theorem test_decode_illegal :
    decodeCommand 0b00000000000000000000000000001001#32 = .illegal 0x9#32 ∧
    decodeCommand 0b00000000000000000000000000010001#32 = .illegal 0x11#32 := by decide
/-- Width 300 is `02 02 01 2C` and 32767 is `02 02 7F FF` (X9). -/
theorem test_decode_marker :
    decodeScanStart 0b00000010#8 0b00000010#8 0b00000001#8 0b00101100#8 = .marker 1#7 0x2C#8 ∧
    decodeScanStart 0x02#8 0x02#8 0x7F#8 0xFF#8 = .marker 127#7 0xFF#8 := by decide
/-- Bit 7 of byte 2 set, and a second byte that is not 2. -/
theorem test_decode_nonmarker :
    decodeScanStart 0b00000010#8 0b00000010#8 0b10000000#8 0b00001000#8 =
      .nonmarker 0x02#8 0x02#8 0x80#8 0x08#8 ∧
    decodeScanStart 0x02#8 0x03#8 0x00#8 0x08#8 = .nonmarker 0x02#8 0x03#8 0x00#8 0x08#8 := by decide
theorem test_decode_run :
    decodeToken 0b10001010#8 0b00000101#8 = .run 10#7 5#8 ∧
    decodeToken 0b10000001#8 0b00000101#8 = .run 1#7 5#8 ∧
    decodeToken 0b11111111#8 0b00000101#8 = .run 127#7 5#8 := by decide
theorem test_decode_lit :
    decodeToken 0b00000001#8 0b00000101#8 = .lit 1#7 5#8 ∧
    decodeToken 0b01111111#8 0b00000101#8 = .lit 127#7 5#8 := by decide
theorem test_decode_lit128 : decodeToken 0b10000000#8 0b00000101#8 = .lit128 5#8 := by decide
theorem test_decode_zero : decodeToken 0b00000000#8 0b00000101#8 = .zero 5#8 := by decide
theorem test_decode_quad :
    decode (.stream .flat [0b10000000#8, 0b01000000#8, 0b00100000#8, 0b10000001#8]) =
      .ok (.quad 0x80#8 0x40#8 0x20#8 0x81#8, []) := rfl
theorem test_decode_regRd : decodeBus (.read .word 0x04#8) = .regRd .word 0x04#8 := by decide
theorem test_decode_regWr :
    decodeBus (.write .word 0x08#8 8#32) = .regWr .word 0x08#8 8#32 := by decide
theorem test_decode_truncated :
    decode (.stream .scanStart [2#8, 2#8, 0#8]) = .error (.truncated .scanStart 3) := rfl

/-! ## The opcode table's words -/

theorem test_table_words :
    decodeTableWord 32 0x00000008 = some .imgEnc ∧
    decodeTableWord 32 0x02020008 = some (.marker 0#7 8#8) ∧
    decodeTableWord 8 0x85 = some (.run 5#7 0#8) ∧ decodeTableWord 16 0x0703 = some (.lit 3#7 7#8) ∧
    decodeTableWord 8 0x80 = some (.lit128 0#8) ∧ decodeTableWord 8 0x00 = some (.zero 0#8) := by decide

/-- Placed after reset, a token of plane R is executed by the next step. -/
theorem test_fetch_run :
    next? (step (State.reset.withFetchWord 8 0x85)) State.engine =
      next? (exec (.run 5#7 0#8) (dec8 (.token .r 0 []) |> fun s =>
        { s with regs := { s.regs with width := 128#32 } })) State.engine := by decide

/-- Placed after reset, a command word is the next step's `CMD` write. -/
theorem test_fetch_flatRd :
    next? (step (State.reset.withFetchWord 32 3)) State.engine = some (.running .flatRd .entry) := by
  decide

/-! ## The colour converter: vectors of 2.1 and 2.2 -/

theorem test_decodeQuad_normal :
    decodeQuad pixQuad = pix ∧
    decodeQuad { r := 200#8, g := 100#8, b := 50#8, e := 140#8 } =
      { r := 0x45480000#32, g := 0x44C80000#32, b := 0x44480000#32 } := by decide
theorem test_decodeQuad_subnormal :
    decodeQuad { r := 255#8, g := 1#8, b := 0#8, e := 2#8 } =
      { r := 0x007F8000#32, g := 0x00008000#32, b := 0#32 } ∧
    decodeQuad { r := 1#8, g := 2#8, b := 3#8, e := 0#8 } = { r := 0#32, g := 0#32, b := 0#32 } := by
  decide
theorem test_encodePixel_truncates :
    encodePixel { r := 0x3DCCCCCD#32, g := 0x3E4CCCCD#32, b := 0x3E99999A#32 } =
      { r := 51#8, g := 102#8, b := 153#8, e := 127#8 } := by decide
theorem test_encodePixel_sanitizes :
    encodePixel { r := 0x7F800000#32, g := 0x7FC00000#32, b := 0x80000000#32 } =
      { r := 255#8, g := 0#8, b := 0#8, e := 0#8 } ∧
    encodePixel { r := 0x0A4FB11E#32, g := 0#32, b := 0#32 } =
      { r := 0#8, g := 0#8, b := 0#8, e := 0#8 } := by
  decide +kernel

/-! ## The plane encoder: vectors of 2.3 -/

/-- E-3, E-5, E-8. -/
theorem test_encodePlane_spans :
    encodePlane [1#8, 2#8, 2#8, 2#8, 2#8, 3#8, 4#8, 5#8] =
      [0x01#8, 1#8, 0x84#8, 2#8, 0x03#8, 3#8, 4#8, 5#8] ∧
    encodePlane [2#8, 2#8, 1#8, 1#8, 1#8, 1#8, 8#8, 8#8] =
      [0x82#8, 2#8, 0x84#8, 1#8, 0x82#8, 8#8] ∧
    encodePlane [1#8, 2#8, 3#8, 4#8, 5#8, 9#8, 9#8, 9#8] =
      [0x08#8, 1#8, 2#8, 3#8, 4#8, 5#8, 9#8, 9#8, 9#8] := by decide

/-! ## One step of each instruction -/

/-- Y-4. -/
theorem test_clear :
    next? (exec .clear (idle8.turnedAway 0x11#32 .illegal)) State.statusWord = some 0#32 := by decide
/-- C-D1 and program P1, line 2. -/
theorem test_cvtDec :
    next? (exec .cvtDec { idle8 with regs := { idle8.regs with quad := 0x81204080#32 } })
      (fun s => (s.pixelRegs, s.statusWord)) = some (pix, 0x00001002#32) := by decide
/-- C-E2. -/
theorem test_cvtEnc :
    next? (exec .cvtEnc { idle8 with regs :=
        { idle8.regs with fr := 0x3F800000#32, fg := 0x3F000000#32, fb := 0x3E800000#32 } })
      (fun s => (s.regs.quad, s.statusWord)) = some (0x81204080#32, 0x00002002#32) := by decide
theorem test_flatRd : next? (exec .flatRd idle8) State.statusWord = some 0x00003001#32 := by decide
theorem test_flatWr : next? (exec .flatWr idle8) State.statusWord = some 0x00004001#32 := by decide
/-- Width 7 is refused (R155, R144). -/
theorem test_scanDec :
    next? (exec .scanDec idle8) State.statusWord = some 0x00005001#32 ∧
    next? (exec .scanDec { idle8 with regs := { idle8.regs with width := 7#32 } }) State.statusWord =
      some 0x00005012#32 := by decide
/-- S-6. -/
theorem test_scanEnc :
    next? (exec .scanEnc { idle8 with regs := { idle8.regs with width := 32768#32 } }) State.statusWord =
      some 0x00006012#32 := by decide
/-- I-5: `YPOS` is unchanged. -/
theorem test_imgDec :
    next? (exec .imgDec { idle8 with regs := { idle8.regs with width := 0#32, ypos := 3#32 } })
      (fun s => (s.statusWord, s.regs.ypos)) = some (0x00007012#32, 3#32) := by decide
theorem test_imgEnc : next? (exec .imgEnc idle8) State.statusWord = some 0x00008001#32 := by decide
/-- Y-2. -/
theorem test_illegal :
    next? (exec (.illegal 0x9#32) idle8) (fun s => (s.statusWord, s.regs.cmd)) =
      some (0x00009016#32, 0x9#32) := by decide
/-- A marker of the wrong width reports the width it declares (R117). -/
theorem test_marker :
    next? (exec (.marker 1#7 0x2C#8) (dec8 (.marker []))) (fun s => (s.statusWord, s.errinfo.word)) =
      some (0x0000502E#32, 0x0004012C#32) := by decide
/-- The rest of the image has 16 quads, the first of which is read (R121). -/
theorem test_nonmarker :
    next? (exec (.nonmarker 0x80#8 0x80#8 0x80#8 0x81#8) (dec8 (.marker [])))
      (fun s => (s.statusWord, s.engine)) =
      some (0x00005101#32, .running .scanDec (.quad 15 [0x80#8, 0x80#8, 0x80#8, 0x81#8])) := by decide
/-- A run into the last byte of plane G, and one byte too many. -/
theorem test_run :
    next? (exec (.run 2#7 9#8) (dec8 (.token .g 6 []))) (fun s => (s.sb, s.engine)) =
      some ([(14, 9#8), (15, 9#8)], .running .scanDec (.token .g 8 [])) ∧
    next? (exec (.run 3#7 9#8) (dec8 (.token .g 6 []))) (fun s => (s.statusWord, s.errinfo.word, s.sb)) =
      some (0x0000506E#32, 0x00090006#32, []) := by decide
/-- A literal goes on to its other bytes, and one byte too many. -/
theorem test_lit :
    next? (exec (.lit 3#7 9#8) (dec8 (.token .b 5 []))) (fun s => (s.sb, s.engine)) =
      some ([(21, 9#8)], .running .scanDec (.litRest .b 5 3 [])) ∧
    next? (exec (.lit 4#7 9#8) (dec8 (.token .b 5 []))) (fun s => (s.statusWord, s.errinfo.word)) =
      some (0x0000508E#32, 0x000A0005#32) := by decide
/-- 128 bytes do not fit a plane of 8. -/
theorem test_lit128 :
    next? (exec (.lit128 9#8) (dec8 (.token .e 0 []))) (fun s => (s.statusWord, s.errinfo.word)) =
      some (0x0000508E#32, 0x000B0000#32) := by decide
/-- Program P4. -/
theorem test_zero :
    next? (exec (.zero 5#8) (dec8 (.token .r 0 []))) (fun s => (s.statusWord, s.errinfo.word)) =
      some (0x0000504E#32, 0x00080000#32) := by decide
/-- F-4: a marker's bytes are a plain quad in flat data. -/
theorem test_quad :
    next? (exec (.quad 2#8 2#8 0#8 8#8) (dec8 (.quad 0 []))) (fun s => (s.ports.pout, s.counters.pixcount)) =
      some ([{ r := 0x00400000#32, g := 0x00400000#32, b := 0#32 }], 1#32) := by decide
/-- Y-5, and a read narrower than a word (R58). -/
theorem test_regRd :
    next? (exec (.regRd .word 0x08#8) idle8) State.rdata = some 8#32 ∧
    next? (exec (.regRd .word 0x06#8) { idle8 with rdata := 1#32 }) State.rdata = some 0#32 ∧
    next? (exec (.regRd .half 0x08#8) { idle8 with rdata := 1#32 }) State.rdata = some 0#32 := by decide
/-- Y-6 and Y-7. -/
theorem test_regWr :
    next? (exec (.regWr .word 0x08#8 5#32) idle8) State.w = some 5 ∧
    next? (exec (.regWr .word 0x08#8 5#32) (dec8 (.marker []))) State.w = some 8 ∧
    next? (exec (.regWr .word 0x04#8 0xFFFF#32) idle8) State.statusWord = some 0#32 := by decide

/-! ## Witnesses: states and operands that meet the hypotheses of the statements -/

theorem witness_EncodingRoundTrip :
    WellFormed (.run 10#7 5#8) = true ∧ encode (.run 10#7 5#8) = .stream .planeToken [0x8A#8, 5#8] := by
  decide
theorem witness_DecodedWordsEncodeBack :
    decodeStream .scanStart [2#8, 2#8, 0#8, 8#8, 0x88#8] = .ok (.marker 0#7 8#8, [0x88#8]) := rfl
theorem witness_CommandWordAssignment :
    decodeCommand 0x9#32 = .illegal 0x9#32 ∧ decodeCommand 0xF#32 = .illegal 0xF#32 ∧
    decodeCommand 0x10#32 = .illegal 0x10#32 := by decide
theorem witness_CountByteDecidesToken :
    (0#8).toNat = 0 ∧ (1 ≤ (1#8).toNat ∧ (127#8).toNat ≤ 127) ∧ (128#8).toNat = 128 ∧
    129 ≤ (129#8).toNat ∧ 129 ≤ (255#8).toNat := by decide
theorem witness_DecodeQuadIsExact :
    ({ r := 1#8, g := 2#8, b := 3#8, e := 0#8 } : Quad).e = 0#8 ∧ pixQuad.e ≠ 0#8 ∧
    (decodeQuad { r := 1#8, g := 0#8, b := 0#8, e := 1#8 }).r ≠ 0#32 := by decide
theorem witness_DecodeLaneBitLevelForm : (1#8 : Byte) ≠ 0#8 ∧ (255#8 : Byte) ≠ 0#8 := by decide
theorem witness_SanitationTable :
    (f32Exp 0x7FC00000#32 = 255 ∧ f32Frac 0x7FC00000#32 ≠ 0) ∧
    (¬(f32Exp 0xFF800000#32 = 255 ∧ f32Frac 0xFF800000#32 ≠ 0) ∧ f32Sign 0xFF800000#32 = true) ∧
    f32Sign 0x80000000#32 = true ∧
    (f32Exp 0x7F7FFFFF#32 ≠ 255 ∧ f32Sign 0x7F7FFFFF#32 = false) := by decide

/-- The smallest lane that is not black. -/
def smallest : Pixel := { r := 0x0A4FB11F#32, g := 0#32, b := 0#32 }
/-- The largest lane whose exponent byte does not wrap, and the smallest whose does. -/
def below127 : Pixel := { r := 0x7EFFFFFF#32, g := 0#32, b := 0#32 }
def from127 : Pixel := { r := 0x7F000000#32, g := 0x3F800000#32, b := 0#32 }

theorem witness_EncodePixelIsExactFloor :
    pixelMax { r := 0x0A4FB11E#32, g := 0#32, b := 0#32 } < 10 ^ (-32 : ℤ) ∧
    10 ^ (-32 : ℤ) ≤ pixelMax smallest := by decide +kernel
theorem witness_BlackTestComparesPatterns :
    f32Finite 0x0A4FB11F#32 ∧ f32Sign 0x0A4FB11F#32 = false ∧ f32Finite 0x007FFFFF#32 ∧
    f32Exp 0x007FFFFF#32 = 0 ∧ f32Val 0x0A4FB11E#32 < f32Val 0x0A4FB11F#32 ∧
    (maxPattern smallest).toNat = 0x0A4FB11F ∧
    (maxPattern { r := 0x0A4FB11E#32, g := 0#32, b := 0#32 }).toNat < 0x0A4FB11F := by
  unfold f32Finite
  decide +kernel
theorem witness_EncodeBitLevelForm :
    10 ^ (-32 : ℤ) ≤ pixelMax smallest ∧ 10 ^ (-32 : ℤ) ≤ pixelMax from127 := by decide +kernel
theorem witness_ExponentByteWraps :
    (10 ^ (-32 : ℤ) ≤ pixelMax below127 ∧ pixelMax below127 < 2 ^ (127 : ℤ)) ∧
    (10 ^ (-32 : ℤ) ≤ pixelMax from127 ∧ 2 ^ (127 : ℤ) ≤ pixelMax from127) ∧
    10 ^ (-32 : ℤ) ≤ pixelMax { r := 0x7F800000#32, g := 0#32, b := 0#32 } ∧
    10 ^ (-32 : ℤ) ≤ pixelMax { r := 0#32, g := 0#32, b := 0x7F800000#32 } := by decide +kernel
theorem witness_MantissaRange :
    10 ^ (-32 : ℤ) ≤ pixelMax smallest ∧ f32Val (sanitize smallest.r) = pixelMax smallest ∧
    pixelMax pix = 1 / 2 * 2 ^ (1 : ℤ) := by decide +kernel
theorem witness_ConversionErrorBound :
    10 ^ (-32 : ℤ) ≤ pixelMax below127 ∧ pixelMax below127 < 2 ^ (127 : ℤ) ∧
    f32Val (sanitize below127.r) = pixelMax below127 := by decide +kernel
theorem witness_NormalisedQuadsReencode :
    128 ≤ max (128#8 : Byte).toNat (max (0#8 : Byte).toNat (0#8 : Byte).toNat) ∧ 23 ≤ (23#8 : Byte).toNat ∧
    (22#8 : Byte).toNat = 22 ∧ 208 ≤ (208#8 : Byte).toNat ∧ ¬ 208 ≤ (207#8 : Byte).toNat := by decide

theorem witness_ClearReturnsStatusToIdle :
    idle8.busy = false ∧ idle8.status.mode = .rle ∧
    (next? (exec .clear idle8) State.busy) = some false ∧
    (dec8 .entry).busy = true := by decide
theorem witness_CvtDecWritesPixelRegisters :
    idle8.busy = false ∧ (0x81204080#32 : Word) = pixQuad.e ++ pixQuad.b ++ pixQuad.g ++ pixQuad.r := by
  decide
theorem witness_CvtEncWritesQuad : idle8.busy = false ∧ encodePixel pix = pixQuad := by decide
theorem witness_IllegalWordRaises :
    idle8.busy = false ∧ idle8.status.mode = .rle ∧ (0x10#32 : Word).extractLsb' 4 28 ≠ 0#28 ∧
    9 ≤ ((0x9#32 : Word).extractLsb' 0 4).toNat := by decide
theorem witness_StreamingCommandsEnterRunning :
    idle8.busy = false ∧ 8 ≤ idle8.w ∧ idle8.w ≤ 32767 ∧ idle8.y < idle8.h ∧ idle8.w ≠ 0 ∧ idle8.h ≠ 0 := by
  decide
theorem witness_UnusableGeometryIsRefused :
    State.reset.busy = false ∧ State.reset.w = 0 ∧ ¬(8 ≤ State.reset.w ∧ State.reset.w ≤ 32767) ∧
    ({ idle8 with regs := { idle8.regs with ypos := 2#32 } } : State).h ≤
      ({ idle8 with regs := { idle8.regs with ypos := 2#32 } } : State).y := by decide

/-- FLAT_RD with two quads, and with none. -/
theorem witness_FlatReadRunsToItsEnd :
    (let s := withBin { idle8 with regs := { idle8.regs with count := 2#32 } } (flatBytes [pixQuad, pixQuad]);
      s.busy = false ∧ s.host = [] ∧ s.regs.count.toNat = [pixQuad, pixQuad].length ∧
      s.ports.bin = asAnswers (flatBytes [pixQuad, pixQuad]) ++ [] ∧ s.ports.poutReady = true) ∧
    idle8.regs.count.toNat = ([] : List Quad).length := by decide
theorem witness_FlatWriteRunsToItsEnd :
    let s : State := { idle8 with
      regs := { idle8.regs with count := 1#32 }, ports := { idle8.ports with pin := [pix, pix] } };
    s.busy = false ∧ s.host = [] ∧ s.regs.count.toNat = [pix].length ∧ s.ports.pin = [pix] ++ [pix] ∧
      s.ports.boutReady = true ∧ s.ports.boutReject = none := by decide

/-- A scanline of 8 equal quads, its planes cut into one run each or into a literal and a run. -/
def quads8 : List Quad := List.replicate 8 pixQuad
theorem witness_ScanDecodeRunsToItsEnd :
    let s := withBin idle8 (markerBytes 8 ++ [0x88#8, 128#8] ++ [0x81#8, 64#8, 0x87#8, 64#8]
      ++ [0x02#8, 32#8, 32#8, 0x86#8, 32#8] ++ [0x88#8, 129#8]);
    s.busy = false ∧ s.host = [] ∧ 8 ≤ s.w ∧ s.w ≤ 32767 ∧ s.y < s.h ∧ quads8.length = s.w ∧
    expandPlane s.w [0x88#8, 128#8] = some (quads8.map Quad.r, []) ∧
    expandPlane s.w [0x81#8, 64#8, 0x87#8, 64#8] = some (quads8.map Quad.g, []) ∧
    expandPlane s.w [0x02#8, 32#8, 32#8, 0x86#8, 32#8] = some (quads8.map Quad.b, []) ∧
    expandPlane s.w [0x88#8, 129#8] = some (quads8.map Quad.e, []) ∧
    s.ports.bin = asAnswers (markerBytes s.w ++ [0x88#8, 128#8] ++ [0x81#8, 64#8, 0x87#8, 64#8]
      ++ [0x02#8, 32#8, 32#8, 0x86#8, 32#8] ++ [0x88#8, 129#8]) ++ [] ∧ s.ports.poutReady = true := by
  decide
theorem witness_FallbackDecodesRestOfImage :
    let s := withBin idle8 (flatBytes (pixQuad :: List.replicate 15 pixQuad));
    s.busy = false ∧ s.host = [] ∧ 8 ≤ s.w ∧ s.w ≤ 32767 ∧ s.y < s.h ∧
    ¬(pixQuad.r = 2#8 ∧ pixQuad.g = 2#8 ∧ pixQuad.b.msb = false) ∧
    (pixQuad :: List.replicate 15 pixQuad).length = (s.h - s.y) * s.w ∧
    s.ports.bin = asAnswers (flatBytes (pixQuad :: List.replicate 15 pixQuad)) ++ [] ∧
    s.ports.poutReady = true := by decide
/-- Eight pixels on PIN, for an image of one scanline. -/
def pin8 : State :=
  { idle8 with
    regs := { idle8.regs with height := 1#32 },
    ports := { idle8.ports with pin := List.replicate 8 pix } }
theorem witness_ScanEncodeRunsToItsEnd :
    pin8.busy = false ∧ pin8.host = [] ∧ 8 ≤ pin8.w ∧ pin8.w ≤ 32767 ∧ pin8.y < pin8.h ∧
    (List.replicate 8 pix).length = pin8.w ∧ pin8.ports.pin = List.replicate 8 pix ++ [] ∧
    pin8.ports.boutReady = true ∧ pin8.ports.boutReject = none := by decide
/-- The bytes of example R145's kind: one run token for each plane. -/
def bytes8 : List Byte :=
  [2#8, 2#8, 0#8, 8#8, 0x88#8, 0x80#8, 0x88#8, 0x40#8, 0x88#8, 0x20#8, 0x88#8, 0x81#8]
/-- An image of two scanlines for IMG_DEC: one RLE scanline and a flat rest. -/
theorem witness_ImageRoundTrip_decode :
    let s := withBin idle8 (imageDataBytes [(bytes8, quads8)] quads8);
    s.busy = false ∧ s.host = [] ∧ 1 ≤ s.w ∧ 1 ≤ s.h ∧ ImageData s.w s.h [(bytes8, quads8)] quads8 ∧
    s.ports.bin = asAnswers (imageDataBytes [(bytes8, quads8)] quads8) ++ [] ∧
    s.ports.poutReady = true := by
  refine ⟨rfl, rfl, by decide, by decide, ⟨?_, by decide, rfl, ?_, fun h => absurd (by decide) h⟩, ?_, rfl⟩
  · simp only [List.mem_singleton, forall_eq]
    exact ⟨rfl, [0x88#8, 0x80#8], [0x88#8, 0x40#8], [0x88#8, 0x20#8], [0x88#8, 0x81#8], by decide⟩
  · intro _ q hq
    cases hq
    decide
  · decide
theorem witness_ImageRoundTrip :
    let s2 := withBin { idle8 with regs := { idle8.regs with height := 1#32 } } bytes8;
    pin8.busy = false ∧ pin8.host = [] ∧ 1 ≤ pin8.w ∧ 1 ≤ pin8.h ∧
    (List.replicate 8 pix).length = pin8.w * pin8.h ∧ pin8.ports.pin = List.replicate 8 pix ++ [] ∧
    pin8.ports.boutReady = true ∧ pin8.ports.boutReject = none ∧
    s2.busy = false ∧ s2.host = [] ∧ s2.w = pin8.w ∧ s2.h = pin8.h ∧ s2.ports.poutReady = true ∧
    imageBytes 8 1 ((List.replicate 8 pix).map encodePixel) = bytes8 ∧
    s2.ports.bin = asAnswers bytes8 ++ [] := by decide
theorem witness_ImageEncodeWritesScanlineData :
    pin8.busy = false ∧ pin8.host = [] ∧ 1 ≤ pin8.w ∧ 1 ≤ pin8.h ∧
    (List.replicate 8 pix).length = pin8.w * pin8.h ∧ pin8.ports.pin = List.replicate 8 pix ++ [] ∧
    pin8.ports.boutReady = true ∧ pin8.ports.boutReject = none ∧
    (let s : State := { pin8 with regs := { pin8.regs with width := 4#32, height := 2#32 } };
      ¬(8 ≤ s.w ∧ s.w ≤ 32767) ∧ (List.replicate 8 pix).length = s.w * s.h) := by decide

theorem witness_BusyWritesAreIgnored : (dec8 (.marker [])).busy = true := by decide
theorem witness_WritableRegistersReadBack :
    idle8.busy = false ∧
    0x08#8 ∈ [0x08#8, 0x0C#8, 0x10#8, 0x14#8, 0x18#8, 0x1C#8, 0x20#8, 0x24#8] ∧
    0x24#8 ∈ [0x08#8, 0x0C#8, 0x10#8, 0x14#8, 0x18#8, 0x1C#8, 0x20#8, 0x24#8] ∧ 0x00#8 ≠ 0x08#8 := by
  decide
theorem witness_OtherWritesAreIgnored :
    idle8.busy = false ∧ AccessSize.half ≠ .word ∧ (0x06#8).toNat % 4 ≠ 0 ∧ 0x28 ≤ (0x28#8).toNat ∧
    0x28 ≤ (0xFC#8).toNat := by decide
theorem witness_RegisterReadFollowsMap :
    AccessSize.byte ≠ .word ∧ (0x06#8).toNat % 4 ≠ 0 ∧ 0x38 ≤ (0x38#8).toNat ∧ 0x38 ≤ (0xFC#8).toNat ∧
    ¬ 0x38 ≤ (0x34#8).toNat := by decide

theorem witness_MarkerWidthIsChecked :
    (dec8 (.marker [])).engine = .running .scanDec (.marker []) ∧
    (0#7).toNat * 256 + (8#8).toNat = (dec8 (.marker [])).w ∧
    (0#7).toNat * 256 + (7#8).toNat ≠ (dec8 (.marker [])).w ∧ 8 ≤ (dec8 (.marker [])).w ∧
    (0#7).toNat * 256 + (7#8).toNat < 8 := by decide
theorem witness_NonmarkerSwitchesToFlat :
    (dec8 (.marker [])).engine = .running .scanDec (.marker []) := by decide
theorem witness_RunTokenFillsPlane :
    (dec8 (.token .g 6 [])).engine = .running .scanDec (.token .g 6 []) ∧
    (dec8 (.token .g 6 [])).w ≤ 32767 ∧ 6 ≤ (dec8 (.token .g 6 [])).w ∧
    6 + (2#7).toNat ≤ (dec8 (.token .g 6 [])).w ∧ (dec8 (.token .g 6 [])).w < 6 + (3#7).toNat ∧
    decodeToken 0x81#8 5#8 = .run 1#7 5#8 := by decide
theorem witness_LiteralTokenStarts :
    ((3#7 : BitVec 7) ≠ 0#7 ∧ 3 = (3#7).toNat) ∧
    (dec8 (.token .b 5 [])).engine = .running .scanDec (.token .b 5 []) ∧
    (dec8 (.token .b 5 [])).w ≤ 32767 ∧ 5 ≤ (dec8 (.token .b 5 [])).w ∧
    5 + 3 ≤ (dec8 (.token .b 5 [])).w ∧ (dec8 (.token .b 5 [])).w < 5 + (4#7).toNat ∧
    (dec8 (.token .b 5 [])).w < 5 + 128 := by decide
theorem witness_LiteralDataFillsPlane :
    let s := withBin (dec8 (.litRest .b 5 3 [])) [7#8, 9#8];
    s.engine = .running .scanDec (.litRest .b 5 ([7#8, 9#8].length + 1) []) ∧ s.host = [] ∧
    s.w ≤ 32767 ∧ 5 + [7#8, 9#8].length + 1 ≤ s.w ∧ s.ports.bin = asAnswers [7#8, 9#8] ++ [] := by decide
theorem witness_ZeroCountRaises :
    (dec8 (.token .r 0 [])).engine = .running .scanDec (.token .r 0 []) := by decide
theorem witness_QuadPutsPixel :
    let s := dec8 (.quad 0 []);
    let t : State := { s with ports := { s.ports with poutReady := false } };
    s.engine = .running .scanDec (.quad 0 []) ∧ s.ports.poutReady = true ∧
    t.engine = .running .scanDec (.quad 0 []) ∧ t.ports.poutReady = false := by decide

theorem witness_StepRunsDecodedInstruction :
    (withHost idle8 [.bus (.read .word 0x04#8)]).host = .bus (.read .word 0x04#8) :: [] ∧
    (dec8 (.token .r 0 [0x88#8, 5#8])).host = [] ∧
    (dec8 (.token .r 0 [0x88#8, 5#8])).engine = .running .scanDec (.token .r 0 [0x88#8, 5#8]) ∧
    (Pos.token .r 0 [0x88#8, 5#8]).unit = some (.planeToken, [0x88#8, 5#8]) ∧
    decodeStream .planeToken [0x88#8, 5#8] = .ok (.run 8#7 5#8, []) :=
  ⟨rfl, rfl, rfl, rfl, rfl⟩
/-- The four places at which the engine pulls a byte. -/
def pulling : List Pos :=
  [.marker [2#8, 2#8, 0#8], .token .r 7 [], .token .r 7 [0x81#8], .litRest .b 5 3 [7#8],
    .quad 0 [1#8, 2#8, 3#8]]
theorem witness_PullConsumesOneByte :
    ∀ k ∈ pulling, (withBin (dec8 k) [5#8]).host = [] ∧
      (withBin (dec8 k) [5#8]).engine = .running .scanDec k ∧
      (withBin (dec8 k) [5#8]).ports.bin = .byte 5#8 :: [] ∧ 7 < (withBin (dec8 k) [5#8]).w := by decide
/-- BIN ended, and one `FAIL` on BIN. -/
def ended (k : Pos) : State := { dec8 k with ports := { (dec8 k).ports with binEos := true } }
def failing (k : Pos) : State := { dec8 k with ports := { (dec8 k).ports with bin := [.fail] } }
theorem witness_FailedPullRaisesReadError :
    ∀ k ∈ pulling, (ended k).host = [] ∧ (ended k).engine = .running .scanDec k ∧
      (ended k).ports.bin = [] ∧ (ended k).ports.binEos = true ∧ (failing k).host = [] ∧
      (failing k).engine = .running .scanDec k ∧ (failing k).ports.bin = .fail :: [] := by decide
/-- The three places at which the engine pushes a byte. -/
def pushing : List Pos :=
  [.markerOut [2#8], .planeEmit .g [] [{ start := 0, phase := .emittingRun, bytes := [0x88#8, 5#8] }] 8,
    .quadOut 0 [1#8]]
def refusing (k : Pos) : State := { enc8 k with ports := { (enc8 k).ports with boutReject := some 0 } }
theorem witness_FailedPushRaisesWriteError :
    ∀ k ∈ pushing, (refusing k).host = [] ∧ (refusing k).engine = .running .scanEnc k ∧
      (refusing k).ports.boutReady = true ∧ (refusing k).ports.boutReject = some 0 := by decide
/-- Every place at which the engine waits, with a host that answers nothing. -/
def silent (s : State) : State :=
  { s with ports := { s.ports with boutReady := false, poutReady := false } }
theorem witness_WaitingEngineKeepsState :
    (idle8.host = [] ∧ idle8.engine = .idle) ∧
    (∀ k ∈ pulling, (silent (dec8 k)).host = [] ∧ (silent (dec8 k)).ports.bin = [] ∧
      (silent (dec8 k)).ports.binEos = false ∧ (silent (dec8 k)).engine = .running .scanDec k) ∧
    (∀ k ∈ pushing, (silent (enc8 k)).host = [] ∧ (silent (enc8 k)).ports.boutReady = false ∧
      (silent (enc8 k)).engine = .running .scanEnc k) ∧
    ((silent (enc8 (.pixIn 7))).ports.pin = [] ∧ 7 < (silent (enc8 (.pixIn 7))).w) ∧
    (silent (enc8 (.pixel 0))).ports.pin = [] ∧
    (silent (dec8 (.quad 0 [1#8, 2#8, 3#8, 4#8]))).ports.poutReady = false ∧
    ((silent (dec8 (.emit 7))).ports.poutReady = false ∧ 7 < (silent (dec8 (.emit 7))).w ∧
      (silent (dec8 (.emit 7))).w ≤ 32767 ∧
      (silent (dec8 (.emit 7))).engine = .running .scanDec (.emit 7)) := by decide
theorem witness_ResetRestoresBlockState :
    (withHost (dec8 (.marker [])) [.rst]).host = .rst :: [] := by decide

theorem witness_EveryStepKeepsInvariant : Inv State.reset ∧ ∃ t, step State.reset = .next t :=
  ⟨⟨by decide, by simp [StatusOk]; decide, trivial⟩, State.reset, rfl⟩
/-- From a state of a running command: the invariant holds at the start of plane R. -/
theorem witness_InvariantStatesAreSafe : Inv (dec8 (.token .r 0 [])) :=
  ⟨by decide, by simp [StatusOk]; decide,
    ⟨by decide, by decide, by decide, .inl rfl, ⟨by decide, by decide⟩,
      fun h => by simp [Op.wholeImage] at h, by decide, by decide, by decide,
      fun i _ h => absurd h (by simp [planeAddr, Plane.index])⟩⟩
/-- IMG_DEC at its start with `MODE` left `FLAT`, and at a scanline start with four bytes that are no
marker. -/
theorem witness_ModeChangesOnlyWhereSaid :
    (let s : State := { idle8 with
        status := { idle8.status with mode := .flat }, engine := .running .imgDec .entry };
      s.status.mode = .flat ∧ next? (step s) (fun t => t.status.mode) = some .rle) ∧
    (dec8 (.marker [1#8, 2#8, 3#8, 4#8])).status.mode = .rle ∧
    next? (step (dec8 (.marker [1#8, 2#8, 3#8, 4#8]))) (fun t => t.status.mode) = some .flat := by decide
/-- The end of a scanline. -/
theorem witness_EngineWritesOnlyYpos :
    (dec8 (.emit 8)).host = [] ∧ (dec8 (.emit 8)).regs.ypos = 0#32 ∧
    next? (step (dec8 (.emit 8))) (fun t => t.regs.ypos) = some 1#32 := by decide
theorem witness_CompletionLineFollowsCommands :
    ((dec8 (.emit 8)).irq = false ∧ next? (step (dec8 (.emit 8))) State.irq = some true) ∧
    (let s := withHost (idle8.turnedAway 9#32 .illegal) [.bus (.write .word 0x00#8 0#32)];
      s.irq = true ∧ next? (step s) State.irq = some false) ∧
    (let s := withHost (idle8.turnedAway 9#32 .illegal) [.rst];
      s.irq = true ∧ next? (step s) State.irq = some false) := by decide
theorem witness_OneTransferPerStep :
    (withBin (dec8 (.marker [])) [2#8]).host = [] ∧
    next? (step (withBin (dec8 (.marker [])) [2#8])) (fun t => t.ports.bin) = some [] := by decide

theorem witness_EncoderPassAdvances : 0 < [5#8].length ∧ 1 < [5#8, 6#8].length := by decide
/-- A dangling short run and a qualifying run: both kinds of run token and a literal. -/
theorem witness_EncodedTokenRanges :
    0 < [7#8, 7#8, 7#8, 5#8, 5#8, 5#8, 5#8].length ∧
    (encodePass [7#8, 7#8, 7#8, 5#8, 5#8, 5#8, 5#8] 0).1 =
      [{ start := 0, phase := .emittingLiteral, bytes := [0x83#8, 7#8] },
        { start := 3, phase := .emittingRun, bytes := [0x84#8, 5#8] }] ∧
    (encodePass [1#8] 0).1 = [{ start := 0, phase := .emittingLiteral, bytes := [0x01#8, 1#8] }] := by
  decide
theorem witness_EncodedSizeBound : quads8.length = 8 := by decide
/-- A stretch at the start of a plane, and one after a skipped span. -/
theorem witness_LongRunsAreCapped :
    ([] : List Byte).getLast? ≠ some 5#8 ∧ [1#8, 2#8, 2#8].getLast? ≠ some 5#8 := by decide

end Sys2Proof.Tests
end

section
/-!
PROOFS. Which command words are legal (R68, R69), and the plane token of count byte 0 (R75).
-/

namespace Sys2Proof

/-! ## Command words -/

theorem decodeCommand_of_rsv_ne_zero {x : Word} (hrsv : cmdRsv x ≠ 0#28) : decodeCommand x = .illegal x :=
  if_neg hrsv

theorem decodeCommand_of_nine_le_op {x : Word} (hop : 9 ≤ (cmdOp x).toNat) :
    decodeCommand x = .illegal x := by
  by_cases hrsv : cmdRsv x = 0#28
  · rw [decodeCommand, if_pos hrsv]
    split
    case h_10 => rfl
    all_goals omega
  · exact decodeCommand_of_rsv_ne_zero hrsv

theorem decodeCommand_ne_illegal {x : Word} (hlegal : legalCommandWord x) (y : Word) :
    decodeCommand x ≠ .illegal y := by
  obtain ⟨hrsv, hop⟩ := hlegal
  rw [decodeCommand, if_pos hrsv]
  interval_cases (cmdOp x).toNat <;> nofun

/-- R68: a word is the illegal command exactly when `RSV` is not 0 or `OP` is unassigned. -/
theorem decodeCommand_eq_illegal_iff (x : Word) :
    decodeCommand x = .illegal x ↔ cmdRsv x ≠ 0#28 ∨ 9 ≤ (cmdOp x).toNat := by
  constructor
  · intro hillegal
    by_contra! hlegal
    exact decodeCommand_ne_illegal hlegal x hillegal
  · rintro (hrsv | hop)
    · exact decodeCommand_of_rsv_ne_zero hrsv
    · exact decodeCommand_of_nine_le_op hop

/-- Settles O3: the nine assigned words are evaluated; the others are `decodeCommand_eq_illegal_iff`. -/
theorem commandWordAssignment : Obligations.CommandWordAssignment :=
  ⟨by decide, decodeCommand_eq_illegal_iff⟩

end Sys2Proof

namespace Sys2Proof.Machine

/-! ## The token of count byte 0 -/

/-- R75: at a plane token, ZERO raises `FormatError` and records where the token began. -/
theorem exec_zero_at_token {s : State} {op : Op} {p : Plane} {pos : Nat} {buf : List Byte}
    (heng : s.engine = .running op (.token p pos buf)) (x : Byte) :
    exec (.zero x) s = .next (s.raise .format .zeroCount (planeInfo p pos)) := by
  simp only [exec, execZero, heng]

/-- Settles O40: ZERO's one effect is `State.raise`, whose fields are the ones listed. -/
theorem zeroCountRaises : Obligations.ZeroCountRaises :=
  ⟨fun _ => rfl, fun _ _ _ _ _ x heng => exec_zero_at_token heng x⟩

end Sys2Proof.Machine
end

section
/-!
PROOFS. The order of non-negative binary32 patterns, of their scaled integers and of their values
(R10, R96, R101).
-/

namespace Sys2Proof.Machine

/-! ## The scaled integer against the exponent field -/

theorem scaled_of_exp_eq_zero {x : Word} (hexp : f32Exp x = 0) : scaled x = f32Frac x := if_pos hexp

theorem scaled_of_exp_ne_zero {x : Word} (hexp : f32Exp x ≠ 0) :
    scaled x = (2 ^ 23 + f32Frac x) * 2 ^ (f32Exp x - 1) := if_neg hexp

theorem toNat_eq_exp_frac {x : Word} (hsign : f32Sign x = false) :
    x.toNat = f32Exp x * 2 ^ 23 + f32Frac x := by
  rw [f32Sign_eq_false] at hsign
  rw [f32Exp_eq, f32Frac_eq]
  omega

theorem scaled_lt_two_pow (x : Word) : scaled x < 2 ^ (23 + f32Exp x) := by
  have hfrac := f32Frac_lt x
  by_cases hexp : f32Exp x = 0
  · rwa [scaled_of_exp_eq_zero hexp, hexp]
  · rw [scaled_of_exp_ne_zero hexp, show 23 + f32Exp x = 24 + (f32Exp x - 1) by omega, Nat.pow_add]
    exact Nat.mul_lt_mul_of_pos_right (by omega) (Nat.two_pow_pos _)

theorem two_pow_le_scaled {x : Word} (hexp : f32Exp x ≠ 0) : 2 ^ (22 + f32Exp x) ≤ scaled x := by
  rw [scaled_of_exp_ne_zero hexp, show 22 + f32Exp x = 23 + (f32Exp x - 1) by omega, Nat.pow_add]
  exact Nat.mul_le_mul_right _ (Nat.le_add_right _ _)

theorem log2_scaled {x : Word} (hexp : f32Exp x ≠ 0) : Nat.log2 (scaled x) = 22 + f32Exp x := by
  have hlow := two_pow_le_scaled hexp
  have hpos := Nat.two_pow_pos (22 + f32Exp x)
  rw [Nat.log2_eq_iff (by omega), show 22 + f32Exp x + 1 = 23 + f32Exp x by omega]
  exact ⟨hlow, scaled_lt_two_pow x⟩

/-! ## One order on patterns, scaled integers and values -/

theorem scaled_lt_of_toNat_lt {x y : Word} (hx : f32Sign x = false) (hy : f32Sign y = false)
    (hlt : x.toNat < y.toNat) : scaled x < scaled y := by
  have hfx := f32Frac_lt x
  have hfy := f32Frac_lt y
  rw [toNat_eq_exp_frac hx, toNat_eq_exp_frac hy] at hlt
  rcases Nat.lt_or_ge (f32Exp x) (f32Exp y) with hexp | hexp
  · calc scaled x < 2 ^ (23 + f32Exp x) := scaled_lt_two_pow x
      _ ≤ 2 ^ (22 + f32Exp y) := Nat.pow_le_pow_right (by decide) (by omega)
      _ ≤ scaled y := two_pow_le_scaled (by omega)
  · have heq : f32Exp y = f32Exp x := by omega
    have hfrac : f32Frac x < f32Frac y := by omega
    by_cases h0 : f32Exp x = 0
    · rwa [scaled_of_exp_eq_zero h0, scaled_of_exp_eq_zero (heq.trans h0)]
    · rw [scaled_of_exp_ne_zero h0, scaled_of_exp_ne_zero (heq ▸ h0), heq]
      exact Nat.mul_lt_mul_of_pos_right (by omega) (Nat.two_pow_pos _)

/-- On non-negative patterns the scaled integer is strictly increasing in the pattern (R101). -/
theorem scaled_le_scaled_iff {x y : Word} (hx : f32Sign x = false) (hy : f32Sign y = false) :
    scaled x ≤ scaled y ↔ x.toNat ≤ y.toNat := by
  refine ⟨fun hle => ?_, fun hle => ?_⟩
  · by_contra! hlt
    exact absurd (scaled_lt_of_toNat_lt hy hx hlt) (by omega)
  · rcases Nat.lt_or_eq_of_le hle with hlt | heq
    · exact (scaled_lt_of_toNat_lt hx hy hlt).le
    · rw [BitVec.eq_of_toNat_eq heq]

theorem f32Val_le_f32Val_iff_scaled {x y : Word} (hx : f32Sign x = false) (hy : f32Sign y = false) :
    f32Val x ≤ f32Val y ↔ scaled x ≤ scaled y := by
  rw [f32Val_eq_scaled hx, f32Val_eq_scaled hy, mul_le_mul_iff_left₀ (by positivity), Nat.cast_le]

/-- On non-negative patterns the order of values is the order of patterns (R101). -/
theorem f32Val_le_f32Val_iff {x y : Word} (hx : f32Sign x = false) (hy : f32Sign y = false) :
    f32Val x ≤ f32Val y ↔ x.toNat ≤ y.toNat :=
  (f32Val_le_f32Val_iff_scaled hx hy).trans (scaled_le_scaled_iff hx hy)

theorem f32Val_nonneg {x : Word} (hx : f32Sign x = false) : 0 ≤ f32Val x := by
  rw [f32Val_eq_scaled hx]
  positivity

/-- The only non-negative pattern of value 0 is +0. -/
theorem eq_zero_of_f32Val_eq_zero {x : Word} (hx : f32Sign x = false) (hval : f32Val x = 0) :
    x = 0#32 := by
  have hle : f32Val x ≤ f32Val 0#32 := by
    rw [hval]
    exact f32Val_nonneg (by decide)
  rw [f32Val_le_f32Val_iff hx (by decide)] at hle
  exact BitVec.eq_of_toNat_eq (Nat.le_zero.1 hle)

end Sys2Proof.Machine
end

section
/-!
PROOFS. Sanitation of a lane (R101).
-/

namespace Sys2Proof.Machine

theorem sanitize_nan {x : Word} (hexp : f32Exp x = 255) (hfrac : f32Frac x ≠ 0) :
    sanitize x = 0#32 := by
  simp [sanitize, hexp, hfrac]

theorem sanitize_negative {x : Word} (hnan : ¬(f32Exp x = 255 ∧ f32Frac x ≠ 0))
    (hsign : f32Sign x = true) : sanitize x = 0#32 := by
  by_cases hexp : f32Exp x = 255
  · have hfrac : f32Frac x = 0 := by simpa [hexp] using hnan
    simp [sanitize, hexp, hfrac, hsign]
  · simp [sanitize, hexp, hsign]

theorem sanitize_infinity : sanitize 0x7F800000#32 = 0x7F7FFFFF#32 := by decide

theorem sanitize_finite_nonneg {x : Word} (hexp : f32Exp x ≠ 255) (hsign : f32Sign x = false) :
    sanitize x = x := by
  simp [sanitize, hexp, hsign]

theorem sanitize_spec (x : Word) : f32Sign (sanitize x) = false ∧ f32Exp (sanitize x) ≠ 255 := by
  unfold sanitize
  split
  · split
    · decide
    · split <;> decide
  next hexp =>
    split
    · decide
    next hsign => exact ⟨Bool.eq_false_iff.2 hsign, hexp⟩

@[simp] theorem f32Sign_sanitize (x : Word) : f32Sign (sanitize x) = false := (sanitize_spec x).1

theorem f32Finite_sanitize (x : Word) : f32Finite (sanitize x) := (sanitize_spec x).2

/-- Settles O8: one equation per row of R101's table; the order is that of non-negative patterns. -/
theorem sanitationTable : Obligations.SanitationTable :=
  ⟨fun _ => sanitize_nan, fun _ => sanitize_negative, sanitize_infinity,
    fun _ => sanitize_finite_nonneg,
    fun x => ⟨f32Finite_sanitize x, f32Val_nonneg (f32Sign_sanitize x)⟩,
    fun x y => f32Val_le_f32Val_iff (f32Sign_sanitize x) (f32Sign_sanitize y)⟩

end Sys2Proof.Machine
end

section
/-!
PROOFS. DecodeQuad is exact (R95, R96), and its bit-level form (R97).
-/

namespace Sys2Proof.Machine

/-! ## One lane as a scaled integer -/

theorem decodeLane_eq_f32OfScaled (m e : Byte) :
    decodeLane m e = f32OfScaled (m.toNat * 2 ^ (e.toNat + 13)) := by
  have hexp : scaleBits + e.toNat - Config.decExpOffset = e.toNat + 13 := by
    simp only [scaleBits, Config.decExpOffset]
    omega
  rw [decodeLane, hexp]

theorem decodeLane_zero (e : Byte) : decodeLane 0#8 e = 0#32 := by
  rw [decodeLane_eq_f32OfScaled, BitVec.toNat_ofNat, Nat.zero_mod, Nat.zero_mul]
  decide

theorem log2_mantissa_le (m : Byte) : Nat.log2 m.toNat ≤ 7 := by
  by_cases h0 : m.toNat = 0
  · simp [h0]
  · have := (Nat.log2_lt h0).2 m.isLt
    omega

theorem log2_mul_two_pow {m : Nat} (hm : m ≠ 0) (j : Nat) :
    Nat.log2 (m * 2 ^ j) = Nat.log2 m + j := by
  have hpos := Nat.two_pow_pos j
  rw [Nat.log2_eq_iff (Nat.mul_ne_zero hm hpos.ne'), Nat.pow_add, show Nat.log2 m + j + 1 =
    Nat.log2 m + 1 + j by omega, Nat.pow_add _ (_ + 1)]
  exact ⟨Nat.mul_le_mul_right _ (Nat.log2_self_le hm),
    Nat.mul_lt_mul_of_pos_right Nat.lt_log2_self hpos⟩

/-- R96: a mantissa byte times the scale is exactly representable, so the lane is a non-negative finite
pattern with that scaled integer. -/
theorem decodeLane_spec (m e : Byte) :
    f32Sign (decodeLane m e) = false ∧ f32Finite (decodeLane m e) ∧
      scaled (decodeLane m e) = m.toNat * 2 ^ (e.toNat + 13) := by
  rw [decodeLane_eq_f32OfScaled]
  apply f32OfScaled_spec
  · by_cases h0 : m.toNat = 0
    · simp [h0]
    · have hlog := log2_mantissa_le m
      rw [log2_mul_two_pow h0]
      exact (pow_dvd_pow 2 (by omega)).trans (dvd_mul_left _ _)
  · calc m.toNat * 2 ^ (e.toNat + 13) < 2 ^ 8 * 2 ^ (e.toNat + 13) :=
          Nat.mul_lt_mul_of_pos_right m.isLt (Nat.two_pow_pos _)
      _ = 2 ^ (8 + (e.toNat + 13)) := (Nat.pow_add _ _ _).symm
      _ ≤ 2 ^ 277 := by
          have he := e.isLt
          gcongr <;> omega

/-! ## One lane as a value -/

/-- R95: a lane's value is the mantissa times `2^(e - 136)`. -/
theorem f32Val_decodeLane (m e : Byte) :
    f32Val (decodeLane m e) = (m.toNat : ℚ) * 2 ^ ((e.toNat : ℤ) - 136) := by
  obtain ⟨hsign, -, hscaled⟩ := decodeLane_spec m e
  rw [f32Val_eq_scaled hsign, hscaled,
    show (e.toNat : ℤ) - 136 = ((e.toNat + 13 : ℕ) : ℤ) + -149 by push_cast; ring,
    zpow_add₀ (by norm_num), zpow_natCast]
  push_cast
  ring

theorem two_zpow_le_f32Val_decodeLane {m e : Byte} (he : e ≠ 0#8) (hm : m ≠ 0#8) :
    (2 : ℚ) ^ (-135 : ℤ) ≤ f32Val (decodeLane m e) := by
  have he1 : 1 ≤ e.toNat := Nat.one_le_iff_ne_zero.2 fun h => he (BitVec.eq_of_toNat_eq h)
  have hm1 : 1 ≤ m.toNat := Nat.one_le_iff_ne_zero.2 fun h => hm (BitVec.eq_of_toNat_eq h)
  rw [f32Val_decodeLane]
  calc (2 : ℚ) ^ (-135 : ℤ) ≤ 2 ^ ((e.toNat : ℤ) - 136) := zpow_le_zpow_right₀ (by norm_num) (by omega)
    _ ≤ m.toNat * 2 ^ ((e.toNat : ℤ) - 136) :=
      le_mul_of_one_le_left (by positivity) (by exact_mod_cast hm1)

theorem f32Val_decodeLane_le (m e : Byte) : f32Val (decodeLane m e) ≤ 255 * 2 ^ (119 : ℤ) := by
  have hm : m.toNat ≤ 255 := Nat.le_of_lt_succ m.isLt
  have he : e.toNat ≤ 255 := Nat.le_of_lt_succ e.isLt
  rw [f32Val_decodeLane]
  exact mul_le_mul (by exact_mod_cast hm) (zpow_le_zpow_right₀ (by norm_num) (by omega))
    (by positivity) (by norm_num)

/-! ## The three lanes of a quad -/

theorem decodeQuad_of_exp_eq_zero {q : Quad} (he : q.e = 0#8) :
    decodeQuad q = { r := 0#32, g := 0#32, b := 0#32 } := if_pos he

theorem decodeQuad_of_exp_ne_zero {q : Quad} (he : q.e ≠ 0#8) :
    decodeQuad q = { r := decodeLane q.r q.e, g := decodeLane q.g q.e, b := decodeLane q.b q.e } :=
  if_neg he

/-- A lane of a decoded quad is +0, or comes from a non-zero mantissa and a non-zero exponent byte. -/
theorem lane_of_decodeQuad {q : Quad} {x : Word}
    (hx : x ∈ [(decodeQuad q).r, (decodeQuad q).g, (decodeQuad q).b]) :
    x = 0#32 ∨ ∃ m e : Byte, e ≠ 0#8 ∧ m ≠ 0#8 ∧ x = decodeLane m e := by
  by_cases he : q.e = 0#8
  · rw [decodeQuad_of_exp_eq_zero he] at hx
    exact .inl (by simpa using hx)
  · rw [decodeQuad_of_exp_ne_zero he] at hx
    obtain ⟨m, rfl⟩ : ∃ m, x = decodeLane m q.e := by
      simp only [List.mem_cons, List.not_mem_nil, or_false] at hx
      rcases hx with h | h | h <;> exact ⟨_, h⟩
    by_cases hm : m = 0#8
    · exact .inl (by rw [hm, decodeLane_zero])
    · exact .inr ⟨m, q.e, he, hm, rfl⟩

/-- R96: what every decoded lane satisfies. -/
theorem lane_of_decodeQuad_range {q : Quad} {x : Word}
    (hx : x ∈ [(decodeQuad q).r, (decodeQuad q).g, (decodeQuad q).b]) :
    f32Finite x ∧ f32Sign x = false ∧ (f32Val x = 0 → x = 0#32) ∧
      (x ≠ 0#32 → (2 : ℚ) ^ (-135 : ℤ) ≤ f32Val x) ∧ f32Val x ≤ 255 * 2 ^ (119 : ℤ) := by
  rcases lane_of_decodeQuad hx with rfl | ⟨m, e, he, hm, rfl⟩
  · have hval : f32Val 0#32 = 0 := by decide +kernel
    refine ⟨by unfold f32Finite; decide, by decide, fun _ => rfl, fun h => absurd rfl h, ?_⟩
    rw [hval]
    positivity
  · obtain ⟨hsign, hfinite, -⟩ := decodeLane_spec m e
    exact ⟨hfinite, hsign, eq_zero_of_f32Val_eq_zero hsign,
      fun _ => two_zpow_le_f32Val_decodeLane he hm, f32Val_decodeLane_le m e⟩

/-- Settles O6: the value of `decodeLane` is exact because its scaled integer is; the extreme quads are
evaluated. -/
theorem decodeQuadIsExact : Obligations.DecodeQuadIsExact := by
  refine ⟨fun _ => decodeQuad_of_exp_eq_zero, fun q he => ?_, fun q x => lane_of_decodeQuad_range,
    by decide, by decide +kernel⟩
  rw [decodeQuad_of_exp_ne_zero he]
  exact ⟨f32Val_decodeLane q.r q.e, f32Val_decodeLane q.g q.e, f32Val_decodeLane q.b q.e⟩

/-! ## The bit-level form -/

theorem toNat_positive_pattern (B F : Nat) :
    (0#1 ++ BitVec.ofNat 8 B ++ BitVec.ofNat 23 F : Word).toNat = B % 2 ^ 8 * 2 ^ 23 + F % 2 ^ 23 := by
  simp only [BitVec.toNat_append, BitVec.toNat_ofNat, Nat.zero_mod, Nat.zero_shiftLeft, Nat.zero_or]
  rw [← Nat.shiftLeft_add_eq_or_of_lt (Nat.mod_lt _ (Nat.two_pow_pos _)), Nat.shiftLeft_eq]

theorem decodeLaneBits_normal {m e : Byte} (hm : m ≠ 0#8) (hk : 10 ≤ Nat.log2 m.toNat + e.toNat) :
    decodeLaneBits m e = 0#1 ++ BitVec.ofNat 8 (Nat.log2 m.toNat + e.toNat - 9) ++
      BitVec.ofNat 23 (m.toNat * 2 ^ (23 - Nat.log2 m.toNat)) := by
  rw [decodeLaneBits, if_neg hm, if_pos hk, Nat.shiftLeft_eq]

theorem decodeLaneBits_subnormal {m e : Byte} (hm : m ≠ 0#8)
    (hk : Nat.log2 m.toNat + e.toNat < 10) :
    decodeLaneBits m e = BitVec.ofNat 32 (m.toNat * 2 ^ (e.toNat + 13)) := by
  rw [decodeLaneBits, if_neg hm, if_neg (Nat.not_le.2 hk), Nat.shiftLeft_eq]

/-- Shifted so that its top set bit is bit 23, a mantissa byte is a 24-bit significand. -/
theorem mantissa_shift_bounds {m : Byte} (hm : m.toNat ≠ 0) :
    2 ^ 23 ≤ m.toNat * 2 ^ (23 - Nat.log2 m.toNat) ∧
      m.toNat * 2 ^ (23 - Nat.log2 m.toNat) < 2 ^ 24 := by
  have hk := log2_mantissa_le m
  constructor
  · calc 2 ^ 23 = 2 ^ Nat.log2 m.toNat * 2 ^ (23 - Nat.log2 m.toNat) := by
          rw [← Nat.pow_add, Nat.add_sub_cancel' (by omega)]
      _ ≤ _ := Nat.mul_le_mul_right _ (Nat.log2_self_le hm)
  · calc m.toNat * 2 ^ (23 - Nat.log2 m.toNat)
        < 2 ^ (Nat.log2 m.toNat + 1) * 2 ^ (23 - Nat.log2 m.toNat) :=
          Nat.mul_lt_mul_of_pos_right Nat.lt_log2_self (Nat.two_pow_pos _)
      _ = 2 ^ 24 := by rw [← Nat.pow_add]; congr 1; omega

/-- A lane's pattern: with `k` the top set bit of `m`, its scaled integer has `k + e - 10` bits above the
significand. -/
theorem decodeLane_eq_ofNat {m : Byte} (hm : m.toNat ≠ 0) (e : Byte) :
    decodeLane m e = BitVec.ofNat 32 ((Nat.log2 m.toNat + e.toNat - 10) * 2 ^ 23 +
      m.toNat * 2 ^ (e.toNat + 13) / 2 ^ (Nat.log2 m.toNat + e.toNat - 10)) := by
  have hlog : Nat.log2 (m.toNat * 2 ^ (e.toNat + 13)) - 23 = Nat.log2 m.toNat + e.toNat - 10 := by
    rw [log2_mul_two_pow hm]
    omega
  rw [decodeLane_eq_f32OfScaled, f32OfScaled, hlog]

/-- R97's two formats: no bits above the significand is the subnormal one; in the normal one the
significand's bit 23 carries into the biased exponent. -/
theorem decodeLane_eq_decodeLaneBits (m e : Byte) : decodeLane m e = decodeLaneBits m e := by
  by_cases hm : m = 0#8
  · rw [hm, decodeLane_zero]
    rfl
  have hm0 : m.toNat ≠ 0 := fun h => hm (BitVec.eq_of_toNat_eq h)
  have hk := log2_mantissa_le m
  have he := e.isLt
  rw [decodeLane_eq_ofNat hm0]
  rcases Nat.lt_or_ge (Nat.log2 m.toNat + e.toNat) 10 with hsub | hnorm
  · rw [decodeLaneBits_subnormal hm hsub, Nat.sub_eq_zero_of_le (Nat.le_of_lt hsub), Nat.zero_mul,
      Nat.zero_add, Nat.pow_zero, Nat.div_one]
  · have hshift : m.toNat * 2 ^ (e.toNat + 13) / 2 ^ (Nat.log2 m.toNat + e.toNat - 10) =
        m.toNat * 2 ^ (23 - Nat.log2 m.toNat) := by
      rw [show e.toNat + 13 = 23 - Nat.log2 m.toNat + (Nat.log2 m.toNat + e.toNat - 10) by omega,
        Nat.pow_add, ← Nat.mul_assoc, Nat.mul_div_cancel _ (Nat.two_pow_pos _)]
    obtain ⟨hlow, hhigh⟩ := mantissa_shift_bounds hm0
    apply BitVec.eq_of_toNat_eq
    rw [decodeLaneBits_normal hm hnorm, hshift, toNat_positive_pattern, BitVec.toNat_ofNat]
    omega

/-- Settles O7: the two forms agree for every `e`, 0 included. -/
theorem decodeLaneBitLevelForm : Obligations.DecodeLaneBitLevelForm :=
  fun m e _ => decodeLane_eq_decodeLaneBits m e

end Sys2Proof.Machine
end

section
/-!
PROOFS. EncodePixel: the largest lane, the black test and the quad of a pixel that is not black (R99 to
R105).
-/

namespace Sys2Proof.Machine

/-! ## The largest sanitized lane -/

theorem toNat_maxPattern (p : Pixel) : (maxPattern p).toNat =
    max (sanitize p.r).toNat (max (sanitize p.g).toNat (sanitize p.b).toNat) := by
  rw [maxPattern, BitVec.toNat_ofNat, Nat.mod_eq_of_lt]
  exact max_lt (sanitize p.r).isLt (max_lt (sanitize p.g).isLt (sanitize p.b).isLt)

theorem maxPattern_mem (p : Pixel) :
    maxPattern p = sanitize p.r ∨ maxPattern p = sanitize p.g ∨ maxPattern p = sanitize p.b := by
  simp only [← BitVec.toNat_inj, toNat_maxPattern]
  omega

theorem maxPattern_eq_sanitize (p : Pixel) : ∃ x, maxPattern p = sanitize x := by
  rcases maxPattern_mem p with h | h | h <;> exact ⟨_, h⟩

@[simp] theorem f32Sign_maxPattern (p : Pixel) : f32Sign (maxPattern p) = false := by
  obtain ⟨x, hx⟩ := maxPattern_eq_sanitize p
  rw [hx, f32Sign_sanitize]

theorem f32Finite_maxPattern (p : Pixel) : f32Finite (maxPattern p) := by
  obtain ⟨x, hx⟩ := maxPattern_eq_sanitize p
  exact hx ▸ f32Finite_sanitize x

/-- A lane's input pattern beside the mantissa `EncodePixel` gives it. -/
def encodedLanes (p : Pixel) : List (Word × Byte) :=
  [(p.r, (encodePixel p).r), (p.g, (encodePixel p).g), (p.b, (encodePixel p).b)]

theorem mem_encodedLanes {p : Pixel} {x : Word} {m : Byte} : (x, m) ∈ encodedLanes p ↔
    (x = p.r ∧ m = (encodePixel p).r) ∨ (x = p.g ∧ m = (encodePixel p).g) ∨
      (x = p.b ∧ m = (encodePixel p).b) := by
  simp [encodedLanes]

theorem encodedLanes_r (p : Pixel) : (p.r, (encodePixel p).r) ∈ encodedLanes p :=
  mem_encodedLanes.2 (.inl ⟨rfl, rfl⟩)

theorem encodedLanes_g (p : Pixel) : (p.g, (encodePixel p).g) ∈ encodedLanes p :=
  mem_encodedLanes.2 (.inr (.inl ⟨rfl, rfl⟩))

theorem encodedLanes_b (p : Pixel) : (p.b, (encodePixel p).b) ∈ encodedLanes p :=
  mem_encodedLanes.2 (.inr (.inr ⟨rfl, rfl⟩))

theorem sanitize_toNat_le_maxPattern {p : Pixel} {x : Word} {m : Byte} (hx : (x, m) ∈ encodedLanes p) :
    (sanitize x).toNat ≤ (maxPattern p).toNat := by
  rw [toNat_maxPattern]
  rcases mem_encodedLanes.1 hx with ⟨rfl, -⟩ | ⟨rfl, -⟩ | ⟨rfl, -⟩ <;> omega

theorem scaled_sanitize_le {p : Pixel} {x : Word} {m : Byte} (hx : (x, m) ∈ encodedLanes p) :
    scaled (sanitize x) ≤ scaled (maxPattern p) :=
  (scaled_le_scaled_iff (f32Sign_sanitize x) (f32Sign_maxPattern p)).2 (sanitize_toNat_le_maxPattern hx)

/-- `max` may compare patterns (R101): the scaled integer the model's `EncodePixel` tests. -/
theorem scaled_maxPattern (p : Pixel) : scaled (maxPattern p) =
    max (scaled (sanitize p.r)) (max (scaled (sanitize p.g)) (scaled (sanitize p.b))) := by
  apply le_antisymm
  · rcases maxPattern_mem p with h | h | h <;> simp [h]
  · exact max_le (scaled_sanitize_le (encodedLanes_r p))
      (max_le (scaled_sanitize_le (encodedLanes_g p)) (scaled_sanitize_le (encodedLanes_b p)))

theorem f32Val_maxPattern (p : Pixel) : f32Val (maxPattern p) = pixelMax p := by
  have hmono : Monotone fun n : ℕ => (n : ℚ) * 2 ^ (-149 : ℤ) := fun m n hmn => by
    have : (m : ℚ) ≤ n := by exact_mod_cast hmn
    dsimp only
    gcongr
  simp only [pixelMax, f32Val_eq_scaled, f32Sign_sanitize, f32Sign_maxPattern, scaled_maxPattern]
  exact (hmono.map_max).trans (congrArg _ hmono.map_max)

/-! ## The black test -/

theorem isBlack_iff_value_lt (n : Nat) : isBlack n ↔ (n : ℚ) * 2 ^ (-149 : ℤ) < 10 ^ (-32 : ℤ) := by
  have hval : (n : ℚ) * 2 ^ (-149 : ℤ) < 10 ^ (-32 : ℤ) ↔ (n : ℚ) * 10 ^ 32 < 2 ^ 149 := by
    rw [zpow_neg, zpow_neg, ← div_eq_mul_inv, ← one_div, div_lt_div_iff₀ (by positivity) (by positivity)]
    norm_num
  rw [hval]
  exact_mod_cast Iff.rfl

theorem isBlack_of_le {m n : Nat} (hmn : m ≤ n) (hn : isBlack n) : isBlack m :=
  Nat.lt_of_le_of_lt (Nat.mul_le_mul_right _ hmn) hn

/-- R100: the largest black pattern and the smallest that is not. -/
theorem isBlack_threshold :
    isBlack (scaled 0x0A4FB11E#32) ∧ ¬ isBlack (scaled 0x0A4FB11F#32) := by decide +kernel

theorem toNat_lt_threshold_iff (v : Word) :
    v.toNat < 0x0A4FB11F ↔ v.toNat ≤ (0x0A4FB11E#32 : Word).toNat := Nat.lt_succ_iff

section Threshold

variable {v : Word} (hv : f32Sign v = false)
include hv

theorem isBlack_iff_f32Val_lt : isBlack (scaled v) ↔ f32Val v < 10 ^ (-32 : ℤ) := by
  rw [isBlack_iff_value_lt, f32Val_eq_scaled hv]

theorem isBlack_iff_toNat_lt : isBlack (scaled v) ↔ v.toNat < 0x0A4FB11F := by
  constructor
  · intro hblack
    by_contra! hge
    exact isBlack_threshold.2
      (isBlack_of_le ((scaled_le_scaled_iff (by decide) hv).2 hge) hblack)
  · intro hlt
    exact isBlack_of_le ((scaled_le_scaled_iff hv (by decide)).2 ((toNat_lt_threshold_iff v).1 hlt))
      isBlack_threshold.1

/-- R100: no pattern's value lies between those of 0x0A4FB11E and 0x0A4FB11F, so any constant there gives
the same test. -/
theorem isBlack_iff_f32Val_lt_constant {c : ℚ} (hlow : f32Val 0x0A4FB11E#32 < c)
    (hhigh : c ≤ f32Val 0x0A4FB11F#32) : isBlack (scaled v) ↔ f32Val v < c := by
  rw [isBlack_iff_toNat_lt hv]
  constructor
  · intro hlt
    exact ((f32Val_le_f32Val_iff hv (by decide)).2 ((toNat_lt_threshold_iff v).1 hlt)).trans_lt hlow
  · intro hlt
    by_contra! hge
    exact absurd (hhigh.trans ((f32Val_le_f32Val_iff (by decide) hv).2 hge)) (not_le.2 hlt)

theorem isBlack_of_exp_eq_zero (hexp : f32Exp v = 0) : isBlack (scaled v) := by
  have hfrac := f32Frac_lt v
  rw [isBlack_iff_toNat_lt hv, toNat_eq_exp_frac hv, hexp]
  omega

end Threshold

/-! ## The quad of a pixel that is not black -/

theorem encodePixel_of_isBlack {p : Pixel} (hblack : isBlack (scaled (maxPattern p))) :
    encodePixel p = { r := 0#8, g := 0#8, b := 0#8, e := 0#8 } := by
  rw [scaled_maxPattern] at hblack
  exact if_pos hblack

/-- R102: the largest lane is normal. -/
theorem exp_maxPattern_range {p : Pixel} (hp : ¬ isBlack (scaled (maxPattern p))) :
    20 ≤ f32Exp (maxPattern p) ∧ f32Exp (maxPattern p) ≤ 254 := by
  have hfinite := f32Finite_maxPattern p
  have hfrac := f32Frac_lt (maxPattern p)
  rw [isBlack_iff_toNat_lt (f32Sign_maxPattern p), toNat_eq_exp_frac (f32Sign_maxPattern p)] at hp
  rw [f32Finite] at hfinite
  have hexp := f32Exp_eq (maxPattern p)
  omega

theorem frexpExp_scaled {v : Word} (hexp : f32Exp v ≠ 0) :
    frexpExp (scaled v) = (f32Exp v : ℤ) - 126 := by
  rw [frexpExp, log2_scaled hexp, scaleBits]
  push_cast
  ring

theorem laneMantissa_exp (c B : Nat) : laneMantissa c ((B : ℤ) - 126) = c / 2 ^ (15 + B) := by
  have hexp : ((scaleBits : ℤ) - Config.mantBits + ((B : ℤ) - 126)).toNat = 15 + B := by
    simp only [scaleBits, Config.mantBits]
    omega
  rw [laneMantissa, hexp]

theorem exponentByte_exp (B : Nat) : exponentByte ((B : ℤ) - 126) = BitVec.ofNat 8 (B + 2) := by
  rw [exponentByte, show (B : ℤ) - 126 + Config.encExpOffset = ((B + 2 : ℕ) : ℤ) by
    simp only [Config.encExpOffset]; omega, BitVec.ofInt_natCast]

/-- The exact form of R99 by `B`, the biased exponent of the largest lane: each mantissa is the scaled
integer of its lane shifted right by `15 + B`. -/
theorem encodePixel_of_not_isBlack {p : Pixel} (hp : ¬ isBlack (scaled (maxPattern p))) :
    encodePixel p =
      { r := BitVec.ofNat 8 (scaled (sanitize p.r) / 2 ^ (15 + f32Exp (maxPattern p))),
        g := BitVec.ofNat 8 (scaled (sanitize p.g) / 2 ^ (15 + f32Exp (maxPattern p))),
        b := BitVec.ofNat 8 (scaled (sanitize p.b) / 2 ^ (15 + f32Exp (maxPattern p))),
        e := BitVec.ofNat 8 (f32Exp (maxPattern p) + 2) } := by
  obtain ⟨hlow, -⟩ := exp_maxPattern_range hp
  have hfrexp := frexpExp_scaled (v := maxPattern p) (by omega)
  rw [scaled_maxPattern] at hp hfrexp
  rw [encodePixel]
  simp only [if_neg hp, hfrexp, laneMantissa_exp, exponentByte_exp]

theorem encodePixel_e_toNat {p : Pixel} (hp : ¬ isBlack (scaled (maxPattern p))) :
    (encodePixel p).e.toNat = (f32Exp (maxPattern p) + 2) % 256 := by
  rw [encodePixel_of_not_isBlack hp, BitVec.toNat_ofNat]

/-- R105: no mantissa reaches 256. -/
theorem shifted_lane_lt {p : Pixel} {x : Word} {m : Byte} (hx : (x, m) ∈ encodedLanes p) :
    scaled (sanitize x) / 2 ^ (15 + f32Exp (maxPattern p)) < 256 := by
  rw [Nat.div_lt_iff_lt_mul (Nat.two_pow_pos _), show 256 = 2 ^ 8 by rfl, ← Nat.pow_add]
  calc scaled (sanitize x) ≤ scaled (maxPattern p) := scaled_sanitize_le hx
    _ < 2 ^ (23 + f32Exp (maxPattern p)) := scaled_lt_two_pow _
    _ = 2 ^ (8 + (15 + f32Exp (maxPattern p))) := by congr 1; omega

/-- R105: the mantissa of the largest lane has its top bit set. -/
theorem le_shifted_max {p : Pixel} (hp : ¬ isBlack (scaled (maxPattern p))) :
    128 ≤ scaled (maxPattern p) / 2 ^ (15 + f32Exp (maxPattern p)) := by
  obtain ⟨hlow, -⟩ := exp_maxPattern_range hp
  rw [Nat.le_div_iff_mul_le (Nat.two_pow_pos _), show 128 = 2 ^ 7 by rfl, ← Nat.pow_add]
  calc 2 ^ (7 + (15 + f32Exp (maxPattern p))) = 2 ^ (22 + f32Exp (maxPattern p)) := by congr 1; omega
    _ ≤ scaled (maxPattern p) := two_pow_le_scaled (by omega)

/-- The mantissas of a pixel that is not black. -/
theorem encodedLane_toNat {p : Pixel} (hp : ¬ isBlack (scaled (maxPattern p))) {x : Word} {m : Byte}
    (hx : (x, m) ∈ encodedLanes p) :
    m.toNat = scaled (sanitize x) / 2 ^ (15 + f32Exp (maxPattern p)) := by
  have hlt := shifted_lane_lt hx
  rw [encodedLanes, encodePixel_of_not_isBlack hp] at hx
  simp only [List.mem_cons, Prod.mk.injEq, List.not_mem_nil, or_false] at hx
  rcases hx with ⟨rfl, rfl⟩ | ⟨rfl, rfl⟩ | ⟨rfl, rfl⟩ <;> exact Nat.mod_eq_of_lt hlt

theorem exists_encodedLane_max (p : Pixel) :
    ∃ x m, (x, m) ∈ encodedLanes p ∧ maxPattern p = sanitize x := by
  rcases maxPattern_mem p with hr | hg | hb
  · exact ⟨p.r, _, encodedLanes_r p, hr⟩
  · exact ⟨p.g, _, encodedLanes_g p, hg⟩
  · exact ⟨p.b, _, encodedLanes_b p, hb⟩

/-- R105: the mantissa of a lane that attains the maximum has its top bit set. -/
theorem le_encodedLane_of_max {p : Pixel} (hp : ¬ isBlack (scaled (maxPattern p))) {x : Word} {m : Byte}
    (hx : (x, m) ∈ encodedLanes p) (hmax : scaled (sanitize x) = scaled (maxPattern p)) :
    128 ≤ m.toNat := by
  rw [encodedLane_toNat hp hx, hmax]
  exact le_shifted_max hp

end Sys2Proof.Machine
end

section
/-!
PROOFS. The statements about EncodePixel: its exact form (R99), the black test (R100), the bit-level form
(R102, R103), the exponent byte (R104) and the mantissas (R105).
-/

namespace Sys2Proof.Machine

/-- R100: a black pixel is the zero quad; one that is not has a mantissa of at least 128. -/
theorem encodePixel_eq_zero_iff (p : Pixel) :
    encodePixel p = { r := 0#8, g := 0#8, b := 0#8, e := 0#8 } ↔
      (maxPattern p).toNat < 0x0A4FB11F := by
  rw [← isBlack_iff_toNat_lt (f32Sign_maxPattern p)]
  refine ⟨fun hzero => ?_, encodePixel_of_isBlack⟩
  by_contra hp
  obtain ⟨x, m, hx, hmax⟩ := exists_encodedLane_max p
  have hmantissa := le_encodedLane_of_max hp hx (congrArg scaled hmax.symm)
  rw [encodedLanes, hzero] at hx
  have hm : m = 0#8 := by
    simp only [List.mem_cons, Prod.mk.injEq, List.not_mem_nil, or_false] at hx
    tauto
  simp [hm] at hmantissa

/-- Settles O10: the three constants are evaluated; the rest is the order of non-negative patterns. -/
theorem blackTestComparesPatterns : Obligations.BlackTestComparesPatterns :=
  ⟨by decide +kernel,
    fun _ _ hsign => ⟨isBlack_iff_f32Val_lt hsign, isBlack_iff_toNat_lt hsign,
      fun _ => isBlack_iff_f32Val_lt_constant hsign, isBlack_of_exp_eq_zero hsign⟩,
    encodePixel_eq_zero_iff⟩

/-! ## The frexp decomposition of the largest lane -/

theorem not_isBlack_of_threshold_le {p : Pixel} (hp : 10 ^ (-32 : ℤ) ≤ pixelMax p) :
    ¬ isBlack (scaled (maxPattern p)) := by
  rwa [isBlack_iff_f32Val_lt (f32Sign_maxPattern p), f32Val_maxPattern, not_lt]

theorem frexp_exponent_le {f f' : ℚ} {a b : ℤ} (hf : 1 / 2 ≤ f) (hf1' : f' < 1)
    (heq : f * 2 ^ a = f' * 2 ^ b) : a ≤ b := by
  have hlt : (2 : ℚ) ^ (a - 1) < 2 ^ b := by
    calc (2 : ℚ) ^ (a - 1) = 1 / 2 * 2 ^ a := by rw [zpow_sub_one₀ (by norm_num)]; ring
      _ ≤ f * 2 ^ a := by gcongr
      _ = f' * 2 ^ b := heq
      _ < 1 * 2 ^ b := by gcongr
      _ = 2 ^ b := one_mul _
  have := (zpow_lt_zpow_iff_right₀ (by norm_num : (1 : ℚ) < 2)).1 hlt
  omega

/-- R10: a value determines the exponent of its frexp decomposition. -/
theorem frexp_exponent_unique {v f f' : ℚ} {a b : ℤ} (hf : 1 / 2 ≤ f) (hf1 : f < 1) (hf' : 1 / 2 ≤ f')
    (hf1' : f' < 1) (hv : v = f * 2 ^ a) (hv' : v = f' * 2 ^ b) : a = b :=
  le_antisymm (frexp_exponent_le hf hf1' (hv.symm.trans hv'))
    (frexp_exponent_le hf' hf1 (hv'.symm.trans hv))

theorem f32Val_normal {v : Word} (hsign : f32Sign v = false) (hexp : f32Exp v ≠ 0) :
    f32Val v = (1 + (f32Frac v : ℚ) / 2 ^ 23) / 2 * 2 ^ ((f32Exp v : ℤ) - 126) := by
  rw [f32Val, if_neg hexp, hsign, show (f32Exp v : ℤ) - 126 = (f32Exp v - 127) + 1 by ring,
    zpow_add_one₀ (by norm_num)]
  simp only [Bool.false_eq_true, if_false]
  ring

/-- R102: `frexp` of a normal value. -/
theorem frexp_fraction_range (v : Word) :
    1 / 2 ≤ (1 + (f32Frac v : ℚ) / 2 ^ 23) / 2 ∧ (1 + (f32Frac v : ℚ) / 2 ^ 23) / 2 < 1 := by
  have hfrac : (f32Frac v : ℚ) < 2 ^ 23 := by exact_mod_cast f32Frac_lt v
  have hfrac1 : (f32Frac v : ℚ) / 2 ^ 23 < 1 := (div_lt_one (by positivity)).2 hfrac
  have hfrac0 : 0 ≤ (f32Frac v : ℚ) / 2 ^ 23 := by positivity
  constructor <;> linarith

theorem pixelMax_frexp {p : Pixel} (hp : ¬ isBlack (scaled (maxPattern p))) :
    pixelMax p = (1 + (f32Frac (maxPattern p) : ℚ) / 2 ^ 23) / 2 *
      2 ^ ((f32Exp (maxPattern p) : ℤ) - 126) := by
  obtain ⟨hlow, -⟩ := exp_maxPattern_range hp
  rw [← f32Val_maxPattern, f32Val_normal (f32Sign_maxPattern p) (by omega)]

/-- R99: shifting the scaled integer right by `15 + B` is the floor of the value times `2^(8 - e2)`. -/
theorem floor_value_shift (n B : Nat) :
    ⌊(n : ℚ) * 2 ^ (-149 : ℤ) * 2 ^ (8 - ((B : ℤ) - 126))⌋ = ((n / 2 ^ (15 + B) : ℕ) : ℤ) := by
  have hdiv : (n : ℚ) * 2 ^ (-149 : ℤ) * 2 ^ (8 - ((B : ℤ) - 126)) = (n : ℚ) / (2 ^ (15 + B) : ℕ) := by
    rw [mul_assoc, ← zpow_add₀ (by norm_num), show (-149 : ℤ) + (8 - ((B : ℤ) - 126)) =
      -((15 + B : ℕ) : ℤ) by push_cast; ring, zpow_neg, zpow_natCast, div_eq_mul_inv]
    push_cast
    rfl
  rw [hdiv, Rat.floor_natCast_div_natCast, Int.natCast_ediv]

theorem scale_eq_two_zpow {f v : ℚ} {e2 : ℤ} (hf : 1 / 2 ≤ f) (hv : v = f * 2 ^ e2) :
    f * 256 / v = 2 ^ (8 - e2) := by
  have hf0 : f ≠ 0 := by rintro rfl; norm_num at hf
  rw [hv, zpow_sub₀ (by norm_num)]
  field_simp
  norm_num

/-- R99: every mantissa is the floor of its lane times `f * 256 / v`, for the frexp decomposition of the
largest lane `v`. -/
theorem encodedLane_eq_floor {p : Pixel} (hp : ¬ isBlack (scaled (maxPattern p))) {f : ℚ} {e2 : ℤ}
    (hf : 1 / 2 ≤ f) (hf1 : f < 1) (hv : pixelMax p = f * 2 ^ e2) {x : Word} {m : Byte}
    (hx : (x, m) ∈ encodedLanes p) :
    (m.toNat : ℤ) = ⌊f32Val (sanitize x) * (f * 256 / pixelMax p)⌋ := by
  obtain ⟨hg, hg1⟩ := frexp_fraction_range (maxPattern p)
  have he2 := frexp_exponent_unique hf hf1 hg hg1 hv (pixelMax_frexp hp)
  rw [scale_eq_two_zpow hf hv, he2, f32Val_eq_scaled (f32Sign_sanitize x), floor_value_shift,
    encodedLane_toNat hp hx]

/-- Settles O9: the decomposition is R102's. -/
theorem encodePixelIsExactFloor : Obligations.EncodePixelIsExactFloor := by
  intro p
  constructor
  · intro hlt
    rw [← f32Val_maxPattern, ← isBlack_iff_f32Val_lt (f32Sign_maxPattern p)] at hlt
    exact encodePixel_of_isBlack hlt
  · intro hle
    have hp := not_isBlack_of_threshold_le hle
    have hv := pixelMax_frexp hp
    obtain ⟨hf, hf1⟩ := frexp_fraction_range (maxPattern p)
    refine ⟨_, _, hf, hf1, hv, encodedLane_eq_floor hp hf hf1 hv (encodedLanes_r p),
      encodedLane_eq_floor hp hf hf1 hv (encodedLanes_g p),
      encodedLane_eq_floor hp hf hf1 hv (encodedLanes_b p), ?_⟩
    rw [encodePixel_e_toNat hp]
    omega

/-! ## The bit-level form -/

/-- R103: the shift of the 24-bit significand is the shift of the scaled integer. -/
theorem scaled_shift_eq_encodeLaneBits {c : Word} {B : Nat} (hB : 8 ≤ B) (hle : f32Exp c ≤ B) :
    scaled c / 2 ^ (15 + B) = encodeLaneBits c B := by
  by_cases hexp : f32Exp c = 0
  · rw [encodeLaneBits, if_pos hexp, Nat.div_eq_of_lt]
    calc scaled c < 2 ^ (23 + f32Exp c) := scaled_lt_two_pow c
      _ ≤ 2 ^ (15 + B) := Nat.pow_le_pow_right Nat.two_pos (by omega)
  · rw [encodeLaneBits, if_neg hexp, scaled_of_exp_ne_zero hexp,
      show 15 + B = 16 + B - f32Exp c + (f32Exp c - 1) by omega,
      Nat.pow_add, Nat.mul_div_mul_right _ _ (Nat.two_pow_pos _)]

/-- R103. The biased exponent of the largest lane is at least that of any other. -/
theorem encodedLane_eq_encodeLaneBits {p : Pixel} (hp : ¬ isBlack (scaled (maxPattern p))) {x : Word}
    {m : Byte} (hx : (x, m) ∈ encodedLanes p) :
    m.toNat = encodeLaneBits (sanitize x) (f32Exp (maxPattern p)) := by
  obtain ⟨hlow, -⟩ := exp_maxPattern_range hp
  have hle := sanitize_toNat_le_maxPattern hx
  have hfrac := f32Frac_lt (maxPattern p)
  rw [toNat_eq_exp_frac (f32Sign_sanitize x), toNat_eq_exp_frac (f32Sign_maxPattern p)] at hle
  rw [encodedLane_toNat hp hx, scaled_shift_eq_encodeLaneBits (by omega) (by omega)]

/-- Settles O11, from the shift `15 + B` of the scaled integers. -/
theorem encodeBitLevelForm : Obligations.EncodeBitLevelForm := by
  intro p hle
  have hp := not_isBlack_of_threshold_le hle
  obtain ⟨hlow, hhigh⟩ := exp_maxPattern_range hp
  exact ⟨⟨f32Val_maxPattern p, hlow, hhigh, pixelMax_frexp hp, encodePixel_e_toNat hp⟩,
    encodedLane_eq_encodeLaneBits hp (encodedLanes_r p),
    encodedLane_eq_encodeLaneBits hp (encodedLanes_g p),
    encodedLane_eq_encodeLaneBits hp (encodedLanes_b p)⟩

/-! ## The exponent byte -/

/-- The largest lane is below `2^127` exactly when its biased exponent is not 254. -/
theorem pixelMax_lt_iff {p : Pixel} (hp : ¬ isBlack (scaled (maxPattern p))) :
    pixelMax p < 2 ^ (127 : ℤ) ↔ f32Exp (maxPattern p) ≤ 253 := by
  have hv := pixelMax_frexp hp
  obtain ⟨hf, hf1⟩ := frexp_fraction_range (maxPattern p)
  generalize (1 + (f32Frac (maxPattern p) : ℚ) / 2 ^ 23) / 2 = f at hv hf hf1
  constructor
  · intro hlt
    by_contra! hge
    have : (2 : ℚ) ^ (127 : ℤ) ≤ pixelMax p := by
      calc (2 : ℚ) ^ (127 : ℤ) = 1 / 2 * 2 ^ (128 : ℤ) := by norm_num
        _ ≤ f * 2 ^ ((f32Exp (maxPattern p) : ℤ) - 126) :=
          mul_le_mul hf (zpow_le_zpow_right₀ (by norm_num) (by omega)) (by positivity) (by linarith)
        _ = pixelMax p := hv.symm
    exact absurd hlt (not_lt.2 this)
  · intro hle
    calc pixelMax p = f * 2 ^ ((f32Exp (maxPattern p) : ℤ) - 126) := hv
      _ < 1 * 2 ^ ((f32Exp (maxPattern p) : ℤ) - 126) := by gcongr
      _ = 2 ^ ((f32Exp (maxPattern p) : ℤ) - 126) := one_mul _
      _ ≤ 2 ^ (127 : ℤ) := zpow_le_zpow_right₀ (by norm_num) (by omega)

/-- R104: from `2^127` on the exponent byte wraps to the black sentinel. -/
theorem encodePixel_wraps {p : Pixel} (hp : ¬ isBlack (scaled (maxPattern p)))
    (hge : 2 ^ (127 : ℤ) ≤ pixelMax p) :
    (encodePixel p).e = 0#8 ∧ decodeQuad (encodePixel p) = { r := 0#32, g := 0#32, b := 0#32 } := by
  obtain ⟨-, hhigh⟩ := exp_maxPattern_range hp
  have hexp : f32Exp (maxPattern p) = 254 := by
    have := mt (pixelMax_lt_iff hp).2 (not_lt.2 hge)
    omega
  have he : (encodePixel p).e = 0#8 := by
    apply BitVec.eq_of_toNat_eq
    rw [encodePixel_e_toNat hp, hexp]
    rfl
  exact ⟨he, decodeQuad_of_exp_eq_zero he⟩

theorem f32Val_sanitize_le_pixelMax {p : Pixel} {x : Word} {m : Byte} (hx : (x, m) ∈ encodedLanes p) :
    f32Val (sanitize x) ≤ pixelMax p := by
  rw [← f32Val_maxPattern, f32Val_le_f32Val_iff (f32Sign_sanitize x) (f32Sign_maxPattern p)]
  exact sanitize_toNat_le_maxPattern hx

theorem two_zpow_le_f32Val_sanitize_infinity :
    (2 : ℚ) ^ (127 : ℤ) ≤ f32Val (sanitize 0x7F800000#32) := by decide +kernel

theorem two_zpow_le_pixelMax_of_infinity {p : Pixel}
    (hinf : p.r = 0x7F800000#32 ∨ p.g = 0x7F800000#32 ∨ p.b = 0x7F800000#32) :
    2 ^ (127 : ℤ) ≤ pixelMax p := by
  obtain ⟨m, hx⟩ : ∃ m, (0x7F800000#32, m) ∈ encodedLanes p := by
    rcases hinf with h | h | h
    · exact ⟨_, h ▸ encodedLanes_r p⟩
    · exact ⟨_, h ▸ encodedLanes_g p⟩
    · exact ⟨_, h ▸ encodedLanes_b p⟩
  exact two_zpow_le_f32Val_sanitize_infinity.trans (f32Val_sanitize_le_pixelMax hx)

/-- Settles O12: `B + 2` wraps exactly for `B = 254`, which is `2^127 <= v`. -/
theorem exponentByteWraps : Obligations.ExponentByteWraps := by
  intro p hle
  have hp := not_isBlack_of_threshold_le hle
  obtain ⟨hlow, -⟩ := exp_maxPattern_range hp
  refine ⟨fun hlt => ?_, encodePixel_wraps hp,
    fun hinf => encodePixel_wraps hp (two_zpow_le_pixelMax_of_infinity hinf)⟩
  have hexp := (pixelMax_lt_iff hp).1 hlt
  rw [encodePixel_e_toNat hp]
  omega

/-! ## The mantissas -/

theorem scaled_eq_of_f32Val_eq_pixelMax {p : Pixel} {x : Word}
    (hmax : f32Val (sanitize x) = pixelMax p) : scaled (sanitize x) = scaled (maxPattern p) := by
  rw [← f32Val_maxPattern] at hmax
  exact le_antisymm
    ((f32Val_le_f32Val_iff_scaled (f32Sign_sanitize x) (f32Sign_maxPattern p)).1 hmax.le)
    ((f32Val_le_f32Val_iff_scaled (f32Sign_maxPattern p) (f32Sign_sanitize x)).1 hmax.ge)

theorem pixelMax_pos {p : Pixel} (hp : 10 ^ (-32 : ℤ) ≤ pixelMax p) : 0 < pixelMax p :=
  lt_of_lt_of_le (by positivity) hp

/-- R105: the mantissa of a lane that attains the maximum is `floor(f * 256)`. -/
theorem encodedLane_max_eq_floor {p : Pixel} (hle : 10 ^ (-32 : ℤ) ≤ pixelMax p) {x : Word} {m : Byte}
    (hx : (x, m) ∈ encodedLanes p) (hmax : f32Val (sanitize x) = pixelMax p) {f : ℚ} {e2 : ℤ}
    (hf : 1 / 2 ≤ f) (hf1 : f < 1) (hv : pixelMax p = f * 2 ^ e2) : (m.toNat : ℤ) = ⌊f * 256⌋ := by
  rw [encodedLane_eq_floor (not_isBlack_of_threshold_le hle) hf hf1 hv hx, hmax,
    mul_div_cancel₀ _ (pixelMax_pos hle).ne']

/-- R105: no mantissa exceeds that of a lane that attains the maximum. -/
theorem encodedLane_le_max {p : Pixel} (hp : ¬ isBlack (scaled (maxPattern p))) {x y : Word} {m n : Byte}
    (hx : (x, m) ∈ encodedLanes p) (hy : (y, n) ∈ encodedLanes p)
    (hmax : f32Val (sanitize y) = pixelMax p) : m.toNat ≤ n.toNat := by
  rw [encodedLane_toNat hp hx, encodedLane_toNat hp hy, scaled_eq_of_f32Val_eq_pixelMax hmax]
  exact Nat.div_le_div_right (scaled_sanitize_le hx)

/-- Settles O13: the shift of the scaled integers is monotone, and the example is evaluated. -/
theorem mantissaRange : Obligations.MantissaRange := by
  refine ⟨fun p hle => ?_, by decide +kernel⟩
  have hp := not_isBlack_of_threshold_le hle
  rintro ⟨x, m⟩ hx
  refine ⟨fun hmax => ⟨le_encodedLane_of_max hp hx (scaled_eq_of_f32Val_eq_pixelMax hmax),
    fun f e2 => encodedLane_max_eq_floor hle hx hmax⟩, ?_⟩
  rintro ⟨y, n⟩ hy hmax
  exact encodedLane_le_max hp hx hy hmax

end Sys2Proof.Machine
end

section
/-!
PROOFS. The addresses of a plane's bytes (R50) and `MemWrite` inside `SB`; the marker's width check (R117)
and the run token (R119).
-/

namespace Sys2Proof.Machine

/-! ## Writing inside a plane -/

theorem Plane.index_le (p : Plane) : p.index ≤ 3 := by
  cases p <;> decide

/-- R50: what fits in a plane of at most the largest RLE width lies inside `SB`. -/
theorem planeAddr_add_le_sbCapacity {w i n : Nat} (hw : w ≤ 32767) (hfit : i + n ≤ w) (p : Plane) :
    planeAddr w p i + n ≤ Config.sbCapacity := by
  calc p.index * w + i + n = p.index * w + (i + n) := Nat.add_assoc _ _ _
    _ ≤ 3 * 32767 + 32767 :=
      Nat.add_le_add (Nat.mul_le_mul (Plane.index_le p) hw) (hfit.trans hw)
    _ = Config.sbCapacity := rfl

/-- `MemWrite` inside `SB` cannot fail (R51). -/
theorem writeSB_of_le {s : State} {a : Nat} {bs : List Byte} (hle : a + bs.length ≤ Config.sbCapacity)
    (next : State → Result) :
    writeSB s a bs next = next { s with sb := Memory.writeList s.sb a bs } := if_pos hle

/-- A read after `n` equal bytes were written from `a` on. -/
theorem Memory.read_writeList_replicate (m : Memory) (a n i : Nat) (v : Byte) :
    Memory.read (Memory.writeList m a (List.replicate n v)) i =
      if a ≤ i ∧ i < a + n then some v else Memory.read m i := by
  rw [Memory.read_writeList, List.length_replicate]
  split
  next hin => exact List.getElem?_replicate_of_lt (by omega)
  next => rfl

/-! ## The marker -/

/-- R71: the width's 15 bits are the marker's low seven bits and its last byte. -/
theorem ofNat_markerWidth (hi : BitVec 7) (lo : Byte) : BitVec.ofNat 15 (markerWidth hi lo) = hi ++ lo := by
  apply BitVec.eq_of_toNat_eq
  have hhi := hi.isLt
  have hlo := lo.isLt
  rw [BitVec.toNat_append, ← Nat.shiftLeft_add_eq_or_of_lt hlo, Nat.shiftLeft_eq, BitVec.toNat_ofNat,
    markerWidth, Nat.mod_eq_of_lt (by omega)]

/-- R117: a marker of the right width opens plane R. -/
theorem exec_marker_of_eq {s : State} {op : Op} {buf : List Byte} {hi : BitVec 7} {lo : Byte}
    (heng : s.engine = .running op (.marker buf)) (hwidth : markerWidth hi lo = s.w) :
    exec (.marker hi lo) s = .next (s.at op (.token .r 0 [])) := by
  simp only [exec, execMarker, heng, if_pos hwidth]

/-- R117: a marker of any other width raises `FormatError` and records the width it declares. -/
theorem exec_marker_of_ne {s : State} {op : Op} {buf : List Byte} {hi : BitVec 7} {lo : Byte}
    (heng : s.engine = .running op (.marker buf)) (hwidth : markerWidth hi lo ≠ s.w) :
    exec (.marker hi lo) s =
      .next (s.raise .format .wrongWidth { phase := .marker, plane := .r, pos := hi ++ lo }) := by
  simp only [exec, execMarker, heng, if_neg hwidth, ofNat_markerWidth]

/-- Settles O35: the two outcomes of the check; a width below 8 is below `WIDTH`. -/
theorem markerWidthIsChecked : Obligations.MarkerWidthIsChecked :=
  fun _ _ _ _ _ heng => ⟨exec_marker_of_eq heng, exec_marker_of_ne heng,
    fun hle hlt => (hlt.trans_le hle).ne⟩

/-! ## The run token -/

/-- R119: a run that fits is written into its plane, and the next token is read. -/
theorem exec_run_of_le {s : State} {op : Op} {p : Plane} {pos : Nat} {buf : List Byte} {n : BitVec 7}
    (heng : s.engine = .running op (.token p pos buf)) (hw : s.w ≤ 32767) (hfit : pos + n.toNat ≤ s.w)
    (v : Byte) :
    exec (.run n v) s =
      .next ({ s with sb := Memory.writeList s.sb (planeAddr s.w p pos) (List.replicate n.toNat v) }.at
        op (.token p (pos + n.toNat) [])) := by
  have hrest : ¬ n.toNat > s.w - pos := by omega
  have hinside : planeAddr s.w p pos + (List.replicate n.toNat v).length ≤ Config.sbCapacity := by
    rw [List.length_replicate]
    exact planeAddr_add_le_sbCapacity hw hfit p
  simp only [exec, execRun, heng, if_neg hrest, writeSB_of_le hinside]

/-- R119: a run that would overflow its plane raises `FormatError` and writes nothing. -/
theorem exec_run_of_lt {s : State} {op : Op} {p : Plane} {pos : Nat} {buf : List Byte} {n : BitVec 7}
    (heng : s.engine = .running op (.token p pos buf)) (hpos : pos ≤ s.w) (hover : s.w < pos + n.toNat)
    (v : Byte) : exec (.run n v) s = .next (s.raise .format .runOverflow (planeInfo p pos)) := by
  have hrest : n.toNat > s.w - pos := by omega
  simp only [exec, execRun, heng, if_pos hrest]

theorem low7_toNat (b : Byte) : (low7 b).toNat = b.toNat % 128 := by
  simp [low7, BitVec.extractLsb'_toNat]

/-- R72: only a count byte above 128 is a run, and its length is the excess. -/
theorem toNat_of_decodeToken_eq_run {c v u : Byte} {n : BitVec 7} (hrun : decodeToken c v = .run n u) :
    128 < c.toNat ∧ n.toNat = c.toNat - 128 := by
  unfold decodeToken at hrun
  split at hrun
  next hbig =>
    obtain ⟨rfl, -⟩ := Instr.run.inj hrun
    have hc := c.isLt
    rw [low7_toNat]
    omega
  next =>
    split at hrun
    · nomatch hrun
    · split at hrun <;> nomatch hrun

/-- Settles O37: the run is written as `n` equal bytes, which the plane's addresses keep inside `SB`. -/
theorem runTokenFillsPlane : Obligations.RunTokenFillsPlane := by
  refine ⟨fun s op p pos buf n v heng hw hpos => ⟨fun hfit => ?_, fun hover => ?_⟩,
    fun c v n u hrun => ?_⟩
  · exact ⟨_, exec_run_of_le heng hw hfit v, fun a => Memory.read_writeList_replicate s.sb _ _ a v⟩
  · exact exec_run_of_lt heng hpos hover v
  · obtain ⟨hbig, hlen⟩ := toNat_of_decodeToken_eq_run hrun
    omega

end Sys2Proof.Machine
end

section
/-!
PROOFS. The plane encoder as a recursion over what is left of the plane (R130), and a qualifying run that
follows another byte, of which a capped run is the longest (R132).
-/

namespace Sys2Proof.Machine

/-! ## One search -/

theorem one_le_runAt : ∀ xs : List Byte, 1 ≤ runAt xs
  | [] => le_rfl
  | x :: xs => (runAt_spec x xs).1

/-- R132: no candidate is measured beyond `MAX_RUN`. -/
theorem runAt_le_maxRun : ∀ xs : List Byte, runAt xs ≤ 127
  | [] => by decide
  | x :: xs => (runAt_spec x xs).2.1

/-- A candidate that another byte follows is not lengthened by it. -/
theorem runAt_append {pre : List Byte} {y : Byte} (hpre : pre ≠ []) (hlast : pre.getLast? ≠ some y)
    (ys : List Byte) : runAt (pre ++ y :: ys) = runAt pre := by
  cases pre with
  | nil => exact absurd rfl hpre
  | cons x xs =>
    suffices htake : (xs ++ y :: ys).takeWhile (· == x) = xs.takeWhile (· == x) by
      simp only [List.cons_append, runAt, htake]
    rw [List.takeWhile_append]
    split
    next hall =>
      have hxs : xs = List.replicate xs.length x := by
        rw [List.eq_replicate_iff]
        have hself := (List.takeWhile_prefix (· == x)).eq_of_length hall
        exact ⟨rfl, fun b hb => by
          rw [← hself] at hb
          exact eq_of_beq (List.mem_takeWhile_imp (p := (· == x)) hb)⟩
      have hy : y ≠ x := by
        rintro rfl
        rw [hxs, ← List.replicate_succ, List.getLast?_replicate] at hlast
        simp at hlast
      rw [List.takeWhile_cons_of_neg (by simpa using hy), List.append_nil,
        (List.takeWhile_prefix (· == x)).eq_of_length hall]
    next => rfl

/-- One turn of the search (R130). -/
theorem searchRun_succ_of_lt {data : List Byte} {beg run : Nat} (hrun : run < 4) (hbeg : beg < data.length)
    (fuel old : Nat) :
    searchRun data (fuel + 1) beg run old =
      searchRun data fuel (beg + run) (runAt (data.drop (beg + run))) run := if_pos ⟨hrun, hbeg⟩

/-- The search stops at a qualifying run and at the end of the plane (R131). -/
theorem searchRun_of_stop {data : List Byte} {beg run : Nat} (hstop : 4 ≤ run ∨ data.length ≤ beg)
    (fuel old : Nat) : searchRun data fuel beg run old = { beg, run, old } := by
  cases fuel with
  | zero => rfl
  | succ fuel =>
    refine if_neg fun h => ?_
    obtain ⟨hrun, hbeg⟩ := h
    simp only [Config.minRun] at hrun
    omega

/-- The bound on the turns of a search is never reached (R130). -/
theorem searchRun_fuel {data : List Byte} {fuel fuel' beg run : Nat} (hrun : 1 ≤ run)
    (hfuel : data.length - beg ≤ fuel) (hfuel' : data.length - beg ≤ fuel') (old : Nat) :
    searchRun data fuel beg run old = searchRun data fuel' beg run old := by
  induction fuel generalizing fuel' beg run old with
  | zero =>
    have hstop : 4 ≤ run ∨ data.length ≤ beg := by omega
    rw [searchRun_of_stop hstop, searchRun_of_stop hstop]
  | succ fuel ih =>
    rcases em (run < 4 ∧ beg < data.length) with ⟨hshort, hbeg⟩ | hstop
    · obtain ⟨k, rfl⟩ : ∃ k, fuel' = k + 1 := ⟨fuel' - 1, by omega⟩
      rw [searchRun_succ_of_lt hshort hbeg, searchRun_succ_of_lt hshort hbeg]
      exact ih (one_le_runAt _) (by omega) (by omega) run
    · rw [searchRun_of_stop (by omega), searchRun_of_stop (by omega)]

/-- A search inside the plane begins with the candidate at its own position. -/
theorem search_eq {data : List Byte} {cur fuel : Nat} (hcur : cur < data.length)
    (hfuel : data.length - cur ≤ fuel) :
    search data cur = searchRun data fuel cur (runAt (data.drop cur)) 0 := by
  rw [search, searchRun_succ_of_lt (by decide) hcur, Nat.add_zero]
  exact searchRun_fuel (one_le_runAt _) (by omega) hfuel 0

/-! ## The encoder on what is left of the plane -/

/-- The result of a search in the plane from `a` on, as positions of the whole plane. -/
def Search.shift (f : Search) (a : Nat) : Search := { f with beg := a + f.beg }

theorem searchRun_drop (data : List Byte) (a fuel beg run old : Nat) :
    searchRun data fuel (a + beg) run old = (searchRun (data.drop a) fuel beg run old).shift a := by
  induction fuel generalizing beg run old with
  | zero => rfl
  | succ fuel ih =>
    have hlen : (data.drop a).length = data.length - a := List.length_drop
    rcases em (run < 4 ∧ a + beg < data.length) with ⟨hrun, hbeg⟩ | hstop
    · rw [searchRun_succ_of_lt hrun hbeg, searchRun_succ_of_lt hrun (by omega), Nat.add_assoc, ih,
        List.drop_drop]
    · rw [searchRun_of_stop (by omega), searchRun_of_stop (by omega), Search.shift]

theorem search_drop {data : List Byte} {cur : Nat} (hcur : cur < data.length) :
    search data cur = (search (data.drop cur) 0).shift cur := by
  have hlen : (data.drop cur).length = data.length - cur := List.length_drop
  rw [search_eq hcur le_rfl, search_eq (by omega) hlen.le, List.drop_zero]
  exact searchRun_drop data cur _ 0 _ 0

/-- The bytes of literal tokens do not depend on where the span stands. -/
theorem literalTokens_bytes (fuel cur cur' : Nat) (xs : List Byte) :
    (literalTokens fuel cur xs).flatMap Token.bytes =
      (literalTokens fuel cur' xs).flatMap Token.bytes := by
  induction fuel generalizing cur cur' xs with
  | zero => rfl
  | succ fuel ih =>
    unfold literalTokens
    split
    · rfl
    · rw [List.flatMap_cons, List.flatMap_cons, ih]

theorem spanTokens_bytes_shift (data : List Byte) (cur : Nat) (f : Search) :
    (spanTokens data cur (f.shift cur)).flatMap Token.bytes =
      (spanTokens (data.drop cur) 0 f).flatMap Token.bytes := by
  simp only [spanTokens, Search.shift, Nat.add_sub_cancel_left, Nat.sub_zero, List.drop_zero]
  split
  · simp [runToken]
  · exact literalTokens_bytes _ _ _ _

/-- R135. -/
theorem qualifyingTokens_bytes (data : List Byte) (f : Search) :
    (qualifyingTokens data f).flatMap Token.bytes =
      if 4 ≤ f.run then [BitVec.ofNat 8 (128 + f.run), data.getD f.beg 0#8] else [] := by
  simp only [qualifyingTokens, Config.minRun]
  split
  · rfl
  · rfl

theorem qualifyingTokens_bytes_shift (data : List Byte) (cur : Nat) (f : Search) :
    (qualifyingTokens data (f.shift cur)).flatMap Token.bytes =
      (qualifyingTokens (data.drop cur) f).flatMap Token.bytes := by
  simp [qualifyingTokens_bytes, Search.shift]

/-- A pass writes what it writes for the plane from its position on. -/
theorem encodePass_bytes_drop {data : List Byte} {cur : Nat} (hcur : cur < data.length) :
    (encodePass data cur).1.flatMap Token.bytes =
      (encodePass (data.drop cur) 0).1.flatMap Token.bytes := by
  simp only [encodePass, search_drop hcur, List.flatMap_append, spanTokens_bytes_shift,
    qualifyingTokens_bytes_shift]

theorem encodePass_next_drop {data : List Byte} {cur : Nat} (hcur : cur < data.length) :
    (encodePass data cur).2 = cur + (encodePass (data.drop cur) 0).2 := by
  simp only [encodePass, search_drop hcur, Search.shift]
  split
  · exact Nat.add_assoc _ _ _
  · rfl

/-- Each pass takes at least one byte. -/
theorem encodePass_next_pos {data : List Byte} (hdata : data ≠ []) : 0 < (encodePass data 0).2 := by
  have hlen := List.length_pos_iff.2 hdata
  have hspec := search_spec hlen
  have hended := hspec.ended
  simp only [encodePass, Config.minRun]
  split <;> omega

@[simp] theorem encodePlane_nil : encodePlane [] = [] := rfl

/-- The outer loop of R130 writes the encoding of what is left of the plane; the bound on its passes is
never reached. -/
theorem planeTokens_bytes (fuel : Nat) :
    ∀ (data : List Byte) (cur : Nat), data.length - cur ≤ fuel →
      (planeTokens data fuel cur).flatMap Token.bytes = encodePlane (data.drop cur) := by
  induction fuel using Nat.strong_induction_on with
  | _ fuel ih =>
    intro data cur hfuel
    rcases Nat.lt_or_ge cur data.length with hcur | hcur
    · have hlen : (data.drop cur).length = data.length - cur := List.length_drop
      obtain ⟨n, rfl⟩ : ∃ n, fuel = n + 1 := ⟨fuel - 1, by omega⟩
      obtain ⟨k, hk⟩ : ∃ k, (data.drop cur).length = k + 1 := ⟨data.length - cur - 1, by omega⟩
      have hnext := encodePass_next_pos (List.ne_nil_of_length_eq_add_one hk)
      have hrest := encodePass_next_drop hcur
      rw [encodePlane, hk, planeTokens, planeTokens, if_pos hcur, if_pos (by omega),
        List.flatMap_append, List.flatMap_append, ih n (by omega) _ _ (by omega),
        ih k (by omega) _ _ (by omega), encodePass_bytes_drop hcur, hrest, List.drop_drop]
    · rw [List.drop_of_length_le hcur, encodePlane_nil]
      cases fuel with
      | zero => rfl
      | succ n => rw [planeTokens, if_neg (by omega), List.flatMap_nil]

/-- `EncodePlane` is one pass, then the encoding of what the pass leaves (R130). -/
theorem encodePlane_eq_pass {data : List Byte} (hdata : data ≠ []) :
    encodePlane data = (encodePass data 0).1.flatMap Token.bytes ++
      encodePlane (data.drop (encodePass data 0).2) := by
  have hnext := encodePass_next_pos hdata
  obtain ⟨k, hk⟩ : ∃ k, data.length = k + 1 :=
    ⟨data.length - 1, by have := List.length_pos_iff.2 hdata; omega⟩
  rw [encodePlane, hk, planeTokens, if_pos (by omega), List.flatMap_append,
    planeTokens_bytes k _ _ (by omega)]

/-! ## A qualifying run that follows another byte -/

/-- A search that ends without a qualifying run at the end of one part finds the run that follows it. -/
def Search.orRun (f : Search) (run : Nat) : Search :=
  { f with run := if 4 ≤ f.run then f.run else run }

@[simp] theorem Search.orRun_beg (f : Search) (run : Nat) : (f.orRun run).beg = f.beg := rfl

theorem Search.orRun_of_found {f : Search} (hfound : 4 ≤ f.run) (run : Nat) : f.orRun run = f := by
  rw [Search.orRun, if_pos hfound]

theorem Search.orRun_run_of_ended {f : Search} (hend : f.run < 4) (run : Nat) :
    (f.orRun run).run = run := if_neg (not_le.2 hend)

theorem getLast?_drop_ne {pre : List Byte} {y : Byte} (hlast : pre.getLast? ≠ some y) (n : Nat) :
    (pre.drop n).getLast? ≠ some y := by
  rw [List.getLast?_drop]
  split
  · nofun
  · exact hlast

/-- A search from the start of a plane ends inside it, and at its end if it finds no qualifying run. -/
theorem search_zero_beg (data : List Byte) :
    (search data 0).beg ≤ data.length ∧
      ((search data 0).run < 4 → (search data 0).beg = data.length) := by
  cases data with
  | nil => exact ⟨le_rfl, fun _ => rfl⟩
  | cons x xs =>
    have hspec := search_spec (data := x :: xs) (Nat.zero_lt_succ _)
    exact ⟨hspec.beg_le, hspec.ended⟩

/-- A qualifying run found from the start of a plane lies inside it. -/
theorem search_zero_found {data : List Byte} (hfound : 4 ≤ (search data 0).run) :
    data ≠ [] ∧ (search data 0).beg + (search data 0).run ≤ data.length := by
  have hdata : data ≠ [] := by
    rintro rfl
    exact absurd hfound (by decide)
  obtain ⟨-, hin, -⟩ := (search_spec (List.length_pos_iff.2 hdata)).found hfound
  exact ⟨hdata, hin⟩

/-- The last pass of a plane that ends without a qualifying run writes its span only. -/
theorem encodePlane_of_ended {data : List Byte} (hend : (search data 0).run < 4) :
    encodePlane data = (spanTokens data 0 (search data 0)).flatMap Token.bytes := by
  rcases eq_or_ne data [] with rfl | hdata
  · rfl
  · have hnext : (encodePass data 0).2 = data.length :=
      (if_neg (not_le.2 hend)).trans ((search_zero_beg data).2 hend)
    rw [encodePlane_eq_pass hdata, hnext, List.drop_length, encodePlane_nil, List.append_nil,
      encodePass, List.flatMap_append, qualifyingTokens_bytes, if_neg (not_le.2 hend), List.append_nil]

/-- What follows a part of the plane does not change the span written for it (R133, R134). -/
theorem spanTokens_append {pre : List Byte} {f : Search} (hbeg : f.beg ≤ pre.length)
    (rest : List Byte) (run : Nat) :
    spanTokens (pre ++ rest) 0 (f.orRun run) = spanTokens pre 0 f := by
  simp only [spanTokens, Search.orRun, Nat.sub_zero, List.drop_zero,
    List.take_append_of_le_length hbeg]
  split
  next hshort =>
    obtain ⟨hold, heq⟩ := hshort
    rw [List.getD_append _ _ _ _ (by omega)]
  next => rfl

section
variable {pre : List Byte} {y : Byte} {ys : List Byte} (hlast : pre.getLast? ≠ some y)
  (hrun : 4 ≤ runAt (y :: ys))
include hlast hrun

/-- The candidates of `pre` end where it ends, so the run that follows is a candidate. -/
theorem searchRun_append {fuel beg : Nat} (hbeg : beg ≤ pre.length) (hfuel : pre.length - beg ≤ fuel)
    (old : Nat) :
    searchRun (pre ++ y :: ys) fuel beg (runAt (pre.drop beg ++ y :: ys)) old =
      (searchRun pre fuel beg (runAt (pre.drop beg)) old).orRun (runAt (y :: ys)) := by
  induction fuel generalizing beg old with
  | zero =>
    obtain rfl : beg = pre.length := by omega
    rw [List.drop_length]
    rfl
  | succ fuel ih =>
    have hlen : (pre ++ y :: ys).length = pre.length + (y :: ys).length := List.length_append
    rcases hbeg.eq_or_lt with rfl | hlt
    · rw [List.drop_length, List.nil_append, searchRun_of_stop (.inl hrun),
        searchRun_of_stop (.inr le_rfl)]
      rfl
    · have hdrop : pre.drop beg ≠ [] := by simpa using hlt
      rw [runAt_append hdrop (getLast?_drop_ne hlast beg)]
      rcases Nat.lt_or_ge (runAt (pre.drop beg)) 4 with hshort | hlong
      · obtain ⟨hpos, -, hin, -⟩ := runAt_drop hlt
        rw [searchRun_succ_of_lt hshort (by omega), searchRun_succ_of_lt hshort hlt,
          List.drop_append_of_le_length hin]
        exact ih hin (by omega) _
      · rw [searchRun_of_stop (.inl hlong), searchRun_of_stop (.inl hlong),
          Search.orRun_of_found hlong]

/-- The search of the first pass finds in `pre` what it finds without the rest, or the run that follows. -/
theorem search_append :
    search (pre ++ y :: ys) 0 = (search pre 0).orRun (runAt (y :: ys)) := by
  have hlen : (pre ++ y :: ys).length = pre.length + (y :: ys).length := List.length_append
  have hpos : 0 < (y :: ys).length := Nat.zero_lt_succ _
  rw [search_eq (by omega) le_rfl, List.drop_zero]
  rcases eq_or_ne pre [] with rfl | hpre
  · exact searchRun_of_stop (.inl hrun) _ _
  · rw [search_eq (List.length_pos_iff.2 hpre) (fuel := (pre ++ y :: ys).length) (by omega)]
    exact searchRun_append hlast hrun (Nat.zero_le _) (by omega) 0

/-- A pass that finds a qualifying run in `pre` does not see what follows. -/
theorem encodePass_append_of_found (hfound : 4 ≤ (search pre 0).run) :
    encodePass (pre ++ y :: ys) 0 = encodePass pre 0 := by
  obtain ⟨-, hin⟩ := search_zero_found hfound
  have hspan := spanTokens_append (search_zero_beg pre).1 (y :: ys) (runAt (y :: ys))
  have hbyte : (pre ++ y :: ys).getD (search pre 0).beg 0#8 = pre.getD (search pre 0).beg 0#8 :=
    List.getD_append _ _ _ _ (by omega)
  rw [Search.orRun_of_found hfound] at hspan
  simp only [encodePass, search_append hlast hrun, Search.orRun_of_found hfound, hspan,
    qualifyingTokens, hbyte]

/-- A pass that reaches the end of `pre` writes its span and the run that follows. -/
theorem encodePass_append_of_ended (hend : (search pre 0).run < 4) :
    encodePass (pre ++ y :: ys) 0 =
      (spanTokens pre 0 (search pre 0) ++ [runToken pre.length .emittingRun (runAt (y :: ys)) y],
        pre.length + runAt (y :: ys)) := by
  have hbeg := (search_zero_beg pre).2 hend
  have hrun' : runAt (y :: ys) ≥ Config.minRun := hrun
  have hbyte : (pre ++ y :: ys).getD pre.length 0#8 = y := by simp
  simp only [encodePass, search_append hlast hrun, spanTokens_append (search_zero_beg pre).1,
    qualifyingTokens, Search.orRun_run_of_ended hend, Search.orRun_beg, hbeg, if_pos hrun', hbyte]

/-- R132, R135: wherever in a plane a qualifying run begins, what stands before it is written as it would be
without it, then the run's token, then the encoding of the rest. -/
theorem encodePlane_append :
    encodePlane (pre ++ y :: ys) = encodePlane pre ++
      BitVec.ofNat 8 (128 + runAt (y :: ys)) :: y :: encodePlane ((y :: ys).drop (runAt (y :: ys))) := by
  induction hn : pre.length using Nat.strong_induction_on generalizing pre with
  | _ n ih =>
    rw [encodePlane_eq_pass (by simp)]
    rcases Nat.lt_or_ge (search pre 0).run 4 with hend | hfound
    · rw [encodePass_append_of_ended hlast hrun hend, encodePlane_of_ended hend, List.flatMap_append,
        List.drop_length_add_append, List.append_assoc]
      rfl
    · obtain ⟨hpre, hin⟩ := search_zero_found hfound
      have hnext : (encodePass pre 0).2 = (search pre 0).beg + (search pre 0).run := if_pos hfound
      have hrest : (pre.drop (encodePass pre 0).2).length < n := by
        rw [List.length_drop]
        omega
      rw [encodePass_append_of_found hlast hrun hfound, List.drop_append_of_le_length (by omega),
        ih _ hrest (getLast?_drop_ne hlast _) rfl, encodePlane_eq_pass hpre, List.append_assoc]
end

/-- R131: the candidate at a stretch of equal bytes, before it is capped. -/
theorem runAt_replicate_append (n : Nat) (v : Byte) (xs : List Byte) :
    runAt (List.replicate (n + 1) v ++ xs) = min 127 (1 + n + (xs.takeWhile (· == v)).length) := by
  have hall : ∀ b ∈ List.replicate n v, (b == v) = true := fun b hb =>
    beq_of_eq (List.eq_of_mem_replicate hb)
  rw [List.replicate_succ, List.cons_append, runAt, List.takeWhile_append_of_pos hall,
    List.length_append, List.length_replicate, Nat.add_assoc]

/-- R132: a stretch of 127 equal bytes or more is written as a qualifying run of the largest length, then
what stands after those 127 bytes. -/
theorem encodePlane_append_replicate_maxRun {pre : List Byte} {v : Byte} (hlast : pre.getLast? ≠ some v)
    (xs : List Byte) :
    encodePlane (pre ++ List.replicate 127 v ++ xs) =
      encodePlane pre ++ 0xFF#8 :: v :: encodePlane xs := by
  have hrun : runAt (List.replicate 127 v ++ xs) = 127 :=
    (runAt_replicate_append 126 v xs).trans (Nat.min_eq_left (by omega))
  have hrest := List.drop_left' (l₂ := xs) (List.length_replicate (n := 127) (a := v))
  rw [List.append_assoc]
  rw [List.replicate_succ, List.cons_append] at hrun hrest ⊢
  rw [encodePlane_append hlast (by omega), hrun, hrest]

/-- Settles O60: the example's 200 bytes are a stretch of 127 and one of 73. -/
theorem longRunsAreCapped : Obligations.LongRunsAreCapped := by
  refine ⟨fun _ _ xs hlast => encodePlane_append_replicate_maxRun hlast xs, runAt_le_maxRun, ?_⟩
  calc encodePlane (List.replicate 200 5#8)
      = encodePlane ([] ++ List.replicate 127 5#8 ++ List.replicate 73 5#8) := by
        rw [List.nil_append, List.replicate_append_replicate]
    _ = 0xFF#8 :: 5#8 :: encodePlane (List.replicate 73 5#8) :=
        encodePlane_append_replicate_maxRun (by decide) _
    _ = [0xFF#8, 5#8, 0xC9#8, 5#8] := by decide +kernel

end Sys2Proof.Machine
end

section
/-!
PROOFS. The commands that end inside their `CMD` write and move no data: CLEAR (R150) and the illegal
words (R152).
-/

namespace Sys2Proof.Machine

/-- The word a read of `STATUS` returns while no command runs, from the stored fields (R26). -/
theorem State.statusWord_of_idle {s : State} {st : Status} (hidle : s.busy = false) (hstatus : s.status = st) :
    s.statusWord = 0#16 ++ st.op ++ 0#3 ++ st.mode.code ++ st.cause.code ++ st.err.code
      ++ BitVec.ofBool st.done ++ 0#1 := by
  rw [State.statusWord, hidle, hstatus]
  rfl

/-! ## CLEAR -/

/-- R139: an idle block's CLEAR is the start that every command makes, and nothing after it. -/
theorem exec_clear_of_idle {s : State} (hidle : s.busy = false) : exec .clear s = .next (s.start 0#32) := by
  simp only [exec, execClear, hidle, Bool.false_eq_true, if_false]

/-- R181: CLEAR is no abort. -/
theorem exec_clear_of_busy {s : State} (hbusy : s.busy = true) : exec .clear s = .next s := by
  simp only [exec, execClear, hbusy, if_true]

/-- Settles O16: CLEAR is `State.start`, which clears what R139 lists and leaves `MODE` and the engine. -/
theorem clearReturnsStatusToIdle : Obligations.ClearReturnsStatusToIdle := by
  refine ⟨rfl, fun _ => exec_clear_of_idle, fun s t hidle hnext => ?_, fun _ => exec_clear_of_busy⟩
  obtain rfl : s.start 0#32 = t := by
    simpa only [exec_clear_of_idle hidle, Host.Outcome.next.injEq] using hnext
  refine ⟨hidle, rfl, fun hrle => ?_⟩
  have hstatus : (s.start 0#32).status =
      { done := false, err := .none, cause := .none, mode := .rle, op := 0#4 } := by
    rw [State.start_status, ← hrle]
    rfl
  exact (State.statusWord_of_idle ((State.start_busy s _).trans hidle) hstatus).trans (by decide)

/-! ## Illegal words -/

/-- R139, R158: an error raised right after a command's start, with no error information, changes what
the start changes, `DONE` and `ERR`. -/
theorem State.start_raise_eq_turnedAway (s : State) (x : Word) (err : ErrKind) :
    (s.start x).raise err .none ErrInfo.zero = s.turnedAway x err := rfl

/-- R40: a refused command does not run. -/
@[simp] theorem State.turnedAway_busy (s : State) (x : Word) (err : ErrKind) :
    (s.turnedAway x err).busy = false := rfl

@[simp] theorem State.turnedAway_status (s : State) (x : Word) (err : ErrKind) :
    (s.turnedAway x err).status =
      { done := true, err := err, cause := .none, mode := s.status.mode, op := x.extractLsb' 0 4 } := rfl

/-- R152: an idle block refuses an illegal word after its start. -/
theorem exec_illegal_of_idle {s : State} (hidle : s.busy = false) (x : Word) :
    exec (.illegal x) s = .next (s.turnedAway x .illegal) := by
  simp only [exec, execIllegal, hidle, Bool.false_eq_true, if_false, State.start_raise_eq_turnedAway]

/-- Settles O19: which words decode to ILLEGAL is `decodeCommand_eq_illegal_iff`, and what ILLEGAL does is
`exec_illegal_of_idle`. -/
theorem illegalWordRaises : Obligations.IllegalWordRaises := by
  refine ⟨fun s x hidle hword => ⟨(decodeCommand_eq_illegal_iff x).2 hword, exec_illegal_of_idle hidle x⟩,
    decodeCommand_of_rsv_ne_zero (by decide), fun s hidle hrle t hnext => ?_⟩
  obtain rfl : s.turnedAway 0x9#32 .illegal = t := by
    simpa only [exec_illegal_of_idle hidle, Host.Outcome.next.injEq] using hnext
  have hstatus : (s.turnedAway 0x9#32 .illegal).status =
      { done := true, err := .illegal, cause := .none, mode := .rle, op := 9#4 } := by
    rw [State.turnedAway_status, hrle]
    rfl
  exact (State.statusWord_of_idle (State.turnedAway_busy s _ _) hstatus).trans (by decide)

end Sys2Proof.Machine
end

section
/-!
PROOFS. The configuration checks of the streaming commands (R126, R155): what an unusable geometry
refuses, and that the flat commands check none.
-/

namespace Sys2Proof.Machine

/-! ## The whole-image commands -/

/-- R155: the check reads `WIDTH` and `HEIGHT` only, which a command's start keeps. -/
theorem checkImage_start_iff (s : State) (x : Word) : checkImage (s.start x) ↔ checkImage s := Iff.rfl

theorem not_checkImage_of_zero {s : State} (hzero : s.w = 0 ∨ s.h = 0) : ¬ checkImage s := by
  rintro ⟨hw, hh⟩
  exact hzero.elim hw hh

theorem exec_imgDec_of_not_checkImage {s : State} (hidle : s.busy = false) (hbad : ¬ checkImage s) :
    exec .imgDec s = .next (s.turnedAway 7#32 .config) := by
  simp only [exec, execImgDec, hidle, Bool.false_eq_true, if_false, checkImage_start_iff, if_neg hbad,
    State.start_raise_eq_turnedAway]

theorem exec_imgEnc_of_not_checkImage {s : State} (hidle : s.busy = false) (hbad : ¬ checkImage s) :
    exec .imgEnc s = .next (s.turnedAway 8#32 .config) := by
  simp only [exec, execImgEnc, hidle, Bool.false_eq_true, if_false, checkImage_start_iff, if_neg hbad,
    State.start_raise_eq_turnedAway]

/-! ## The scanline commands -/

/-- R126: the check reads `WIDTH`, `HEIGHT` and `YPOS` only, which a command's start keeps. -/
theorem checkScan_start_iff (s : State) (x : Word) : checkScan (s.start x) ↔ checkScan s := Iff.rfl

/-- R155: each of the three conditions fails its own part of `CheckScan()`. -/
theorem not_checkScan_of_unusable {s : State}
    (hbad : ¬(8 ≤ s.w ∧ s.w ≤ 32767) ∨ s.h = 0 ∨ s.h ≤ s.y) : ¬ checkScan s := by
  rintro ⟨hwidth, hheight, hy⟩
  rcases hbad with hnarrow | hzero | hdone
  · exact hnarrow hwidth
  · exact hheight hzero
  · exact hdone.not_gt hy

theorem exec_scanDec_of_not_checkScan {s : State} (hidle : s.busy = false) (hbad : ¬ checkScan s) :
    exec .scanDec s = .next (s.turnedAway 5#32 .config) := by
  simp only [exec, execScanDec, hidle, Bool.false_eq_true, if_false, checkScan_start_iff, if_neg hbad,
    State.start_raise_eq_turnedAway]

theorem exec_scanEnc_of_not_checkScan {s : State} (hidle : s.busy = false) (hbad : ¬ checkScan s) :
    exec .scanEnc s = .next (s.turnedAway 6#32 .config) := by
  simp only [exec, execScanEnc, hidle, Bool.false_eq_true, if_false, checkScan_start_iff, if_neg hbad,
    State.start_raise_eq_turnedAway]

/-! ## The flat commands -/

/-- R40, R139: entering `RUNNING` right after a command's start changes what the start changes and the
engine. -/
theorem State.start_at_entry_eq_entered (s : State) (x : Word) (op : Op) :
    (s.start x).at op .entry = s.entered x op := rfl

/-- R139: a command that has entered `RUNNING` reports no error. -/
theorem State.entered_err (s : State) (x : Word) (op : Op) : (s.entered x op).status.err = .none := rfl

/-- R110: an idle block runs FLAT_RD whatever its geometry is. -/
theorem exec_flatRd_of_idle {s : State} (hidle : s.busy = false) :
    exec .flatRd s = .next (s.entered 3#32 .flatRd) := by
  simp only [exec, execFlatRd, hidle, Bool.false_eq_true, if_false, State.start_at_entry_eq_entered]

/-- R112: an idle block runs FLAT_WR whatever its geometry is. -/
theorem exec_flatWr_of_idle {s : State} (hidle : s.busy = false) :
    exec .flatWr s = .next (s.entered 4#32 .flatWr) := by
  simp only [exec, execFlatWr, hidle, Bool.false_eq_true, if_false, State.start_at_entry_eq_entered]

/-- R155: a command that enters `RUNNING` has not ended with `ConfigError`. -/
theorem err_ne_config_of_entered {i : Instr} {s t : State} {x : Word} {op : Op}
    (hexec : exec i s = .next (s.entered x op)) (hnext : exec i s = .next t) : t.status.err ≠ .config := by
  obtain rfl : s.entered x op = t := by
    simpa only [hexec, Host.Outcome.next.injEq] using hnext
  rw [State.entered_err]
  decide

/-- Settles O21: each listed geometry fails the command's check, and the flat commands enter `RUNNING`. -/
theorem unusableGeometryIsRefused : Obligations.UnusableGeometryIsRefused := by
  intro s hidle
  refine ⟨fun hzero => ?_, fun hbad => ?_, fun _ => err_ne_config_of_entered (exec_flatRd_of_idle hidle),
    fun _ => err_ne_config_of_entered (exec_flatWr_of_idle hidle)⟩
  · have hcheck := not_checkImage_of_zero hzero
    exact ⟨exec_imgDec_of_not_checkImage hidle hcheck, exec_imgEnc_of_not_checkImage hidle hcheck⟩
  · have hcheck := not_checkScan_of_unusable hbad
    exact ⟨exec_scanDec_of_not_checkScan hidle hcheck, exec_scanEnc_of_not_checkScan hidle hcheck⟩

end Sys2Proof.Machine
end

section
/-!
PROOFS. Host accesses while a command runs: every write is ignored and every read answers (R170, R181).
-/

namespace Sys2Proof

/-- R67, R68: what a command word decodes to is always an instruction of format `CMD32`. -/
theorem exists_encode_decodeCommand_eq_cmd32 (x : Word) : ∃ y, encode (decodeCommand x) = .cmd32 y := by
  rw [decodeCommand]
  split
  case isTrue => split <;> exact ⟨_, rfl⟩
  case isFalse => exact ⟨_, rfl⟩

end Sys2Proof

namespace Sys2Proof.Machine

/-- R139, R181: every command, legal or not, begins with the test of `BUSY`. -/
theorem exec_cmd32_of_busy {i : Instr} {x : Word} {s : State} (hcmd : encode i = .cmd32 x)
    (hbusy : s.busy = true) : exec i s = .next s := by
  cases i with
  | clear => exact exec_clear_of_busy hbusy
  | cvtDec | cvtEnc | flatRd | flatWr | scanDec | scanEnc | imgDec | imgEnc | illegal =>
    exact if_pos hbusy
  | marker | nonmarker | run | lit | lit128 | zero | quad | regRd | regWr => nomatch hcmd

theorem exec_regWr_of_busy {s : State} (hbusy : s.busy = true) (size : AccessSize) (off : BitVec 8)
    (x : Word) : exec (.regWr size off x) s = .next s :=
  if_pos hbusy

/-- R181: a host write is a command or a REG_WR, and both are ignored. -/
theorem exec_busInstr_write_of_busy {s : State} (hbusy : s.busy = true) (size : AccessSize)
    (off : BitVec 8) (x : Word) : exec (busInstr (.write size off x)) s = .next s := by
  rw [busInstr]
  split
  case isTrue =>
    obtain ⟨y, hcmd⟩ := exists_encode_decodeCommand_eq_cmd32 x
    exact exec_cmd32_of_busy hcmd hbusy
  case isFalse => exact exec_regWr_of_busy hbusy size off x

/-- R170: a host read is a REG_RD, which does not test `BUSY`. -/
theorem exec_busInstr_read (s : State) (size : AccessSize) (off : BitVec 8) :
    exec (busInstr (.read size off)) s = .next { s with rdata := s.readBus size off } := rfl

/-- Settles O29: the writes by `exec_busInstr_write_of_busy` and `exec_regWr_of_busy`, the reads in any
state by `exec_busInstr_read`. -/
theorem busyWritesAreIgnored : Obligations.BusyWritesAreIgnored := fun s hbusy =>
  ⟨fun size off x => ⟨exec_busInstr_write_of_busy hbusy size off x, exec_regWr_of_busy hbusy size off x⟩,
    exec_busInstr_read s⟩

end Sys2Proof.Machine
end

section
/-!
PROOFS. The reset input (R173, R174).
-/

namespace Sys2Proof.Machine

/-- R173: `rst` comes before anything the engine would do, whatever command is running. -/
theorem step_rst {s : State} {rest : List HostAct} (hrst : s.host = .rst :: rest) :
    step s = .next { s with host := rest }.assertReset := by
  simp only [step, nextEvent, hrst]

/-- R163, R174: the completion line is low after `rst`. -/
@[simp] theorem State.assertReset_irq (s : State) : s.assertReset.irq = false := rfl

/-- Settles O47: the step is `State.assertReset`, whose fields are the ones of `State.reset`, with the ports
left alone. -/
theorem resetRestoresBlockState : Obligations.ResetRestoresBlockState := by
  intro s rest hrst
  refine ⟨_, step_rst hrst, State.assertReset_regs _, State.assertReset_status _,
    State.assertReset_errinfo _, State.assertReset_counters _, ?idle, ?done, State.assertReset_irq _,
    State.assertReset_ports _⟩
  case idle => exact (State.busy_eq_false _).1 (State.assertReset_busy _)
  case done => exact State.assertReset_irq _

end Sys2Proof.Machine
end

section
/-!
PROOFS. Decoding and encoding are inverse in every format (R67 to R75, R81, R82).
-/

namespace Sys2Proof

/-! ## The two fields of a byte -/

theorem toNat_append_eq_add {m n : Nat} (x : BitVec m) (y : BitVec n) :
    (x ++ y).toNat = x.toNat * 2 ^ n + y.toNat := by
  rw [BitVec.toNat_append, ← Nat.shiftLeft_add_eq_or_of_lt y.isLt, Nat.shiftLeft_eq]

theorem byte_toNat_append (b : BitVec 1) (n : BitVec 7) : (b ++ n : Byte).toNat = b.toNat * 128 + n.toNat :=
  toNat_append_eq_add b n

theorem low7_append (b : BitVec 1) (n : BitVec 7) : low7 (b ++ n) = n := by
  apply BitVec.eq_of_toNat_eq
  rw [Machine.low7_toNat, byte_toNat_append]
  have hn := n.isLt
  omega

/-- A byte is its bit 7 and the seven bits below it. -/
theorem append_low7 {b : BitVec 1} {c : Byte} (hhigh : c.toNat / 128 = b.toNat) : b ++ low7 c = c := by
  apply BitVec.eq_of_toNat_eq
  rw [byte_toNat_append, Machine.low7_toNat]
  omega

theorem toNat_pos_of_ne_zero {n : BitVec 7} (hn : n ≠ 0#7) : 1 ≤ n.toNat :=
  Nat.one_le_iff_ne_zero.2 fun h => hn (BitVec.eq_of_toNat_eq h)

/-! ## Plane tokens -/

section Token
variable {c : Byte} (v : Byte)

theorem decodeToken_of_zero (hc : c.toNat = 0) : decodeToken c v = .zero v := by
  rw [decodeToken, if_neg (by omega), if_neg (by omega), if_pos hc]

theorem decodeToken_of_lit (h1 : 1 ≤ c.toNat) (h127 : c.toNat ≤ 127) :
    decodeToken c v = .lit (low7 c) v := by
  rw [decodeToken, if_neg (by omega), if_neg (by omega), if_neg (by omega)]

theorem decodeToken_of_lit128 (hc : c.toNat = 128) : decodeToken c v = .lit128 v := by
  rw [decodeToken, if_neg (by omega), if_pos hc]

theorem decodeToken_of_run (hc : 129 ≤ c.toNat) : decodeToken c v = .run (low7 c) v :=
  if_pos hc

/-- R72: the four kinds of count byte. -/
theorem count_byte_cases (c : Byte) :
    c.toNat = 0 ∨ (1 ≤ c.toNat ∧ c.toNat ≤ 127) ∨ c.toNat = 128 ∨ 129 ≤ c.toNat := by omega

end Token

theorem low7_eq_ofNat {c : Byte} {k : Nat} (hk : k < 128) (hc : c.toNat % 128 = k) :
    low7 c = BitVec.ofNat 7 k := by
  apply BitVec.eq_of_toNat_eq
  rw [Machine.low7_toNat, BitVec.toNat_ofNat, hc, Nat.mod_eq_of_lt hk]

/-- Settles O4: one equation of `decodeToken` for each kind of count byte. -/
theorem countByteDecidesToken : Obligations.CountByteDecidesToken := by
  intro c v
  have hc := c.isLt
  refine ⟨decodeToken_of_zero v, fun h1 h127 => ?_, decodeToken_of_lit128 v, fun h129 => ?_⟩
  · rw [decodeToken_of_lit v h1 h127, low7_eq_ofNat (by omega) (Nat.mod_eq_of_lt (by omega))]
  · rw [decodeToken_of_run v h129, low7_eq_ofNat (k := c.toNat - 128) (by omega) (by omega)]

/-! ## Scanline starts -/

/-- R71: bit 7 of byte 2 is clear exactly when the byte is below 128. -/
theorem isMarker_eq_true_iff (b0 b1 b2 : Byte) :
    isMarker b0 b1 b2 = true ↔ b0 = Config.markerByte ∧ b1 = Config.markerByte ∧ b2.toNat < 128 := by
  simp [isMarker, BitVec.msb_eq_decide, and_assoc]

theorem decodeScanStart_of_marker {b0 b1 b2 : Byte} (hmarker : isMarker b0 b1 b2 = true) (b3 : Byte) :
    decodeScanStart b0 b1 b2 b3 = .marker (low7 b2) b3 := if_pos hmarker

theorem decodeScanStart_of_nonmarker {b0 b1 b2 : Byte} (hmarker : isMarker b0 b1 b2 = false) (b3 : Byte) :
    decodeScanStart b0 b1 b2 b3 = .nonmarker b0 b1 b2 b3 := by
  rw [decodeScanStart, hmarker, if_neg Bool.false_ne_true]

/-! ## Decoding what was encoded -/

theorem isMarker_marker (hi : BitVec 7) :
    isMarker Config.markerByte Config.markerByte (0#1 ++ hi) = true := by
  rw [isMarker_eq_true_iff, byte_toNat_append]
  exact ⟨rfl, rfl, by simpa using hi.isLt⟩

/-- The words of a stream unit decode to it and leave what follows them (30_encoding.md section 3). -/
theorem decodeStream_encode {i : Instr} (hwf : WellFormed i = true) {ctx : StreamContext}
    {bs : List Byte} (henc : encode i = .stream ctx bs) (rest : List Byte) :
    decodeStream ctx (bs ++ rest) = .ok (i, rest) := by
  cases i with
  | marker hi lo =>
    obtain ⟨rfl, rfl⟩ := Encoding.stream.inj henc
    simp [decodeStream, decodeScanStart_of_marker (isMarker_marker hi), low7_append]
  | nonmarker b0 b1 b2 b3 =>
    obtain ⟨rfl, rfl⟩ := Encoding.stream.inj henc
    simp [decodeStream, decodeScanStart_of_nonmarker (Bool.not_eq_true' _ ▸ hwf : isMarker b0 b1 b2 = false)]
  | run n v =>
    obtain ⟨rfl, rfl⟩ := Encoding.stream.inj henc
    have hn := toNat_pos_of_ne_zero (bne_iff_ne.1 hwf)
    have hc : 129 ≤ (1#1 ++ n : Byte).toNat := by
      rw [byte_toNat_append]
      exact Nat.add_le_add_left hn 128
    simp [decodeStream, decodeToken_of_run v hc, low7_append]
  | lit n v =>
    obtain ⟨rfl, rfl⟩ := Encoding.stream.inj henc
    have hn := toNat_pos_of_ne_zero (bne_iff_ne.1 hwf)
    have hc : (0#1 ++ n : Byte).toNat = n.toNat := by simp [byte_toNat_append]
    have hlit := decodeToken_of_lit v (hc ▸ hn) (hc ▸ Nat.le_of_lt_succ n.isLt)
    rw [low7_append] at hlit
    simp [decodeStream, hlit]
  | lit128 v | zero x | quad r g b e =>
    obtain ⟨rfl, rfl⟩ := Encoding.stream.inj henc
    rfl
  | clear | cvtDec | cvtEnc | flatRd | flatWr | scanDec | scanEnc | imgDec | imgEnc | illegal x
  | regRd size off | regWr size off x => nomatch henc

/-- The word of a command decodes to it (R69, R81). -/
theorem decodeCommand_encode {i : Instr} (hwf : WellFormed i = true) {x : Word}
    (henc : encode i = .cmd32 x) : decodeCommand x = i := by
  cases i with
  | clear | cvtDec | cvtEnc | flatRd | flatWr | scanDec | scanEnc | imgDec | imgEnc =>
    obtain rfl := Encoding.cmd32.inj henc
    decide
  | illegal y =>
    obtain rfl := Encoding.cmd32.inj henc
    rw [decodeCommand_eq_illegal_iff]
    have hill : ¬ legalCommandWord y := of_decide_eq_true hwf
    by_contra! hlegal
    exact hill hlegal
  | marker | nonmarker | run | lit | lit128 | zero | quad | regRd | regWr => nomatch henc

theorem decodeBus_encode {i : Instr} {a : BusAccess} (henc : encode i = .hostbus a) : decodeBus a = i := by
  cases i with
  | regRd | regWr =>
    obtain rfl := Encoding.hostbus.inj henc
    rfl
  | clear | cvtDec | cvtEnc | flatRd | flatWr | scanDec | scanEnc | imgDec | imgEnc | illegal x | marker
  | nonmarker | run | lit | lit128 | zero | quad => nomatch henc

/-- Settles O1, one format at a time. -/
theorem encodingRoundTrip : Obligations.EncodingRoundTrip := by
  intro i hwf
  refine ⟨?_, fun ctx bs rest henc => decodeStream_encode hwf henc rest⟩
  cases henc : encode i with
  | cmd32 x => rw [decode, decodeCommand_encode hwf henc]
  | stream ctx bs =>
    rw [decode]
    simpa using decodeStream_encode hwf henc []
  | hostbus a => rw [decode, decodeBus_encode henc]

/-! ## Encoding what was decoded -/

theorem encode_decodeToken (c v : Byte) :
    WellFormed (decodeToken c v) = true ∧ encode (decodeToken c v) = .stream .planeToken [c, v] := by
  have hc := c.isLt
  have hlow : c.toNat % 128 ≠ 0 → low7 c ≠ 0#7 := fun h h0 => h (by rw [← Machine.low7_toNat, h0]; rfl)
  rcases count_byte_cases c with h0 | ⟨h1, h127⟩ | h128 | h129
  · rw [decodeToken_of_zero v h0, show c = 0x00#8 from BitVec.eq_of_toNat_eq h0]
    exact ⟨rfl, rfl⟩
  · rw [decodeToken_of_lit v h1 h127, encode, append_low7 (Nat.div_eq_of_lt (by omega))]
    exact ⟨bne_iff_ne.2 (hlow (by omega)), rfl⟩
  · rw [decodeToken_of_lit128 v h128, show c = 0x80#8 from BitVec.eq_of_toNat_eq h128]
    exact ⟨rfl, rfl⟩
  · have hbit : c.toNat / 128 = (1#1).toNat := by
      change c.toNat / 128 = 1
      omega
    rw [decodeToken_of_run v h129, encode, append_low7 hbit]
    exact ⟨bne_iff_ne.2 (hlow (by omega)), rfl⟩

theorem encode_decodeScanStart (b0 b1 b2 b3 : Byte) :
    WellFormed (decodeScanStart b0 b1 b2 b3) = true ∧
      encode (decodeScanStart b0 b1 b2 b3) = .stream .scanStart [b0, b1, b2, b3] := by
  cases hmarker : isMarker b0 b1 b2 with
  | true =>
    obtain ⟨rfl, rfl, hb2⟩ := (isMarker_eq_true_iff b0 b1 b2).1 hmarker
    rw [decodeScanStart_of_marker hmarker, encode, append_low7 (Nat.div_eq_of_lt hb2)]
    exact ⟨rfl, rfl⟩
  | false =>
    rw [decodeScanStart_of_nonmarker hmarker, WellFormed, hmarker]
    exact ⟨rfl, rfl⟩

/-- A stream unit is decoded from the bytes before those left. -/
theorem encode_of_decodeStream {ctx : StreamContext} {bs rest : List Byte} {i : Instr}
    (hdec : decodeStream ctx bs = .ok (i, rest)) :
    WellFormed i = true ∧ ∃ pre, bs = pre ++ rest ∧ encode i = .stream ctx pre := by
  unfold decodeStream at hdec
  split at hdec
  case h_1 b0 b1 b2 b3 tail =>
    obtain ⟨rfl, rfl⟩ := Prod.mk.inj (Except.ok.inj hdec)
    obtain ⟨hwf, henc⟩ := encode_decodeScanStart b0 b1 b2 b3
    exact ⟨hwf, _, rfl, henc⟩
  case h_2 c v tail =>
    obtain ⟨rfl, rfl⟩ := Prod.mk.inj (Except.ok.inj hdec)
    obtain ⟨hwf, henc⟩ := encode_decodeToken c v
    exact ⟨hwf, _, rfl, henc⟩
  case h_3 r g b e tail =>
    obtain ⟨rfl, rfl⟩ := Prod.mk.inj (Except.ok.inj hdec)
    exact ⟨rfl, _, rfl, rfl⟩
  case h_4 => nomatch hdec

/-- R68: a command word is its two fields. -/
theorem command_word_toNat (x : Word) : x.toNat = (cmdRsv x).toNat * 16 + (cmdOp x).toNat := by
  have hx := x.isLt
  simp only [cmdRsv, cmdOp, BitVec.extractLsb'_toNat, Nat.shiftRight_eq_div_pow, Nat.pow_zero, Nat.div_one]
  omega

/-- A legal command word is its opcode. -/
theorem command_word_eq_ofNat {x : Word} {op : Nat} (hrsv : cmdRsv x = 0#28) (hop : (cmdOp x).toNat = op) :
    x = BitVec.ofNat 32 op := by
  have hx := command_word_toNat x
  rw [hrsv, hop] at hx
  apply BitVec.eq_of_toNat_eq
  rw [BitVec.toNat_ofNat, Nat.mod_eq_of_lt (by have := (cmdOp x).isLt; omega), hx]
  simp

theorem encode_decodeCommand (x : Word) :
    WellFormed (decodeCommand x) = true ∧ encode (decodeCommand x) = .cmd32 x := by
  by_cases hlegal : legalCommandWord x
  · obtain ⟨hrsv, hop⟩ := hlegal
    generalize hn : (cmdOp x).toNat = n at hop
    rw [command_word_eq_ofNat hrsv hn]
    interval_cases n <;> decide
  · have hill : decodeCommand x = .illegal x := by
      rw [decodeCommand_eq_illegal_iff]
      by_contra! h
      exact hlegal h
    rw [hill]
    exact ⟨decide_eq_true hlegal, rfl⟩

/-- Settles O2, one format at a time. -/
theorem decodedWordsEncodeBack : Obligations.DecodedWordsEncodeBack :=
  ⟨fun _ _ _ _ => encode_of_decodeStream, encode_decodeCommand, fun a => by cases a <;> exact ⟨rfl, rfl⟩⟩

/-- Settles O5: every word is evaluated. -/
theorem wordsOfEachFamilyDecode : Obligations.WordsOfEachFamilyDecode :=
  ⟨by decide, by decide, rfl, rfl, by decide, by decide, by decide, by decide, by decide, by decide,
    rfl⟩

end Sys2Proof
end

section
/-!
PROOFS. The round-trip laws of the converter (R107): the error of decoding what was encoded, and the quads
that re-encode to themselves.
-/

namespace Sys2Proof.Machine

/-! ## The error of one lane -/

/-- R95, R104: below `2^127` the exponent byte does not wrap, and a unit of the shared mantissa is
`2^(15 + B)` steps of `2^-149`. -/
theorem f32Val_decodeLane_of_exp {m e : Byte} {B : Nat} (he : e.toNat = B + 2) :
    f32Val (decodeLane m e) = ((m.toNat * 2 ^ (15 + B) : ℕ) : ℚ) * 2 ^ (-149 : ℤ) := by
  obtain ⟨hsign, -, hscaled⟩ := decodeLane_spec m e
  rw [f32Val_eq_scaled hsign, hscaled, he, show B + 2 + 13 = 15 + B by omega]

/-- The value of `2^(15 + B)` steps of `2^-149`. -/
theorem mantissa_unit_eq (B : Nat) :
    ((2 ^ (15 + B) : ℕ) : ℚ) * 2 ^ (-149 : ℤ) = 2 ^ ((B : ℤ) - 126 - 8) := by
  rw [Nat.cast_pow, Nat.cast_ofNat, ← zpow_natCast, ← zpow_add₀ (by norm_num)]
  congr 1
  push_cast
  ring

/-- R107 (a): a lane loses the remainder of its division by the unit of the shared mantissa. -/
theorem lane_error {n u : Nat} (hu : 0 < u) {c : ℚ} (hc : 0 < c) :
    0 ≤ (n : ℚ) * c - ((n / u * u : ℕ) : ℚ) * c ∧
      (n : ℚ) * c - ((n / u * u : ℕ) : ℚ) * c < (u : ℚ) * c := by
  have hsplit : (n : ℚ) * c - ((n / u * u : ℕ) : ℚ) * c = ((n % u : ℕ) : ℚ) * c := by
    rw [← sub_mul, sub_eq_iff_eq_add.2]
    exact_mod_cast (Nat.mod_add_div' n u).symm
  have hlt : ((n % u : ℕ) : ℚ) < u := by exact_mod_cast Nat.mod_lt n hu
  rw [hsplit]
  exact ⟨by positivity, by gcongr⟩

/-- R99, R102: the exponent of the frexp decomposition bounds the largest lane. -/
theorem pixelMax_bounds {p : Pixel} (hp : ¬ isBlack (scaled (maxPattern p))) :
    2 ^ ((f32Exp (maxPattern p) : ℤ) - 126 - 1) ≤ pixelMax p ∧
      pixelMax p < 2 ^ ((f32Exp (maxPattern p) : ℤ) - 126) := by
  have hv := pixelMax_frexp hp
  obtain ⟨hf, hf1⟩ := frexp_fraction_range (maxPattern p)
  generalize (1 + (f32Frac (maxPattern p) : ℚ) / 2 ^ 23) / 2 = f at hv hf hf1
  rw [hv]
  constructor
  · calc (2 : ℚ) ^ ((f32Exp (maxPattern p) : ℤ) - 126 - 1)
        = 1 / 2 * 2 ^ ((f32Exp (maxPattern p) : ℤ) - 126) := by rw [zpow_sub_one₀ (by norm_num)]; ring
      _ ≤ f * 2 ^ ((f32Exp (maxPattern p) : ℤ) - 126) := by gcongr
  · calc f * 2 ^ ((f32Exp (maxPattern p) : ℤ) - 126) < 1 * 2 ^ ((f32Exp (maxPattern p) : ℤ) - 126) := by
          gcongr
      _ = 2 ^ ((f32Exp (maxPattern p) : ℤ) - 126) := one_mul _

/-- The decoded lanes of a quad, each beside a pattern of its own. -/
theorem decodeQuad_lanes {q : Quad} (he : q.e ≠ 0#8) (x y z : Word) :
    [(x, (decodeQuad q).r), (y, (decodeQuad q).g), (z, (decodeQuad q).b)] =
      [(x, q.r), (y, q.g), (z, q.b)].map fun l => (l.1, decodeLane l.2 q.e) := by
  rw [decodeQuad_of_exp_ne_zero he]
  rfl

/-- R107 (a) and (b) for one lane: what is lost is less than a unit of the shared mantissa, and the largest
lane is at least 128 units. -/
theorem encodedLane_error {p : Pixel} (hp : ¬ isBlack (scaled (maxPattern p))) {e : Byte}
    (he : e.toNat = f32Exp (maxPattern p) + 2) {x : Word} {m : Byte} (hx : (x, m) ∈ encodedLanes p) :
    0 ≤ f32Val (sanitize x) - f32Val (decodeLane m e) ∧
      f32Val (sanitize x) - f32Val (decodeLane m e) < 2 ^ ((f32Exp (maxPattern p) : ℤ) - 126 - 8) := by
  have hunit := mantissa_unit_eq (f32Exp (maxPattern p))
  rw [f32Val_decodeLane_of_exp he, encodedLane_toNat hp hx, f32Val_eq_scaled (f32Sign_sanitize x), ← hunit]
  exact lane_error (Nat.two_pow_pos _) (by positivity)

/-- Settles O14, with the exponent of R102's decomposition. -/
theorem conversionErrorBound : Obligations.ConversionErrorBound := by
  intro p hle hlt
  have hp := not_isBlack_of_threshold_le hle
  obtain ⟨hlow, hhigh⟩ := pixelMax_bounds hp
  have hB := (pixelMax_lt_iff hp).1 hlt
  have hbyte := encodePixel_e_toNat hp
  rw [Nat.mod_eq_of_lt (by omega)] at hbyte
  have he : (encodePixel p).e ≠ 0#8 := fun h => by
    rw [h] at hbyte
    exact Nat.succ_ne_zero _ hbyte.symm
  refine ⟨(f32Exp (maxPattern p) : ℤ) - 126, hlow, hhigh, fun l hl => ?_⟩
  rw [decodeQuad_lanes he, List.mem_map] at hl
  obtain ⟨⟨x, m⟩, hx, rfl⟩ := hl
  obtain ⟨hnonneg, herr⟩ := encodedLane_error hp hbyte hx
  refine ⟨hnonneg, herr, fun hmax => herr.trans_le ?_⟩
  calc (2 : ℚ) ^ ((f32Exp (maxPattern p) : ℤ) - 126 - 8)
      = 2 ^ (-7 : ℤ) * 2 ^ ((f32Exp (maxPattern p) : ℤ) - 126 - 1) := by
        rw [← zpow_add₀ (by norm_num)]
        congr 1
        ring
    _ ≤ 2 ^ (-7 : ℤ) * pixelMax p := by gcongr
    _ = _ := by rw [hmax]

/-! ## Quads that re-encode to themselves -/

/-- The largest mantissa of a quad. -/
def maxMantissa (q : Quad) : Nat := max q.r.toNat (max q.g.toNat q.b.toNat)

theorem sanitize_decodeLane (m e : Byte) : sanitize (decodeLane m e) = decodeLane m e := by
  obtain ⟨hsign, hfinite, -⟩ := decodeLane_spec m e
  exact sanitize_finite_nonneg hfinite hsign

theorem scaled_decodeLane (m e : Byte) : scaled (decodeLane m e) = m.toNat * 2 ^ (e.toNat + 13) :=
  (decodeLane_spec m e).2.2

/-- The largest lane of a decoded quad is that of its largest mantissa. -/
theorem scaled_maxPattern_decodeQuad {q : Quad} (he : q.e ≠ 0#8) :
    scaled (maxPattern (decodeQuad q)) = maxMantissa q * 2 ^ (q.e.toNat + 13) := by
  rw [scaled_maxPattern, decodeQuad_of_exp_ne_zero he]
  simp only [sanitize_decodeLane, scaled_decodeLane, maxMantissa, Nat.mul_max_mul_right]

/-- A decoded quad that is not black has its exponent byte less 2 as biased exponent. -/
theorem exp_maxPattern_decodeQuad {q : Quad} (he : q.e ≠ 0#8) (hM : 128 ≤ maxMantissa q)
    (hM' : maxMantissa q < 256) (hp : ¬ isBlack (scaled (maxPattern (decodeQuad q)))) :
    f32Exp (maxPattern (decodeQuad q)) + 2 = q.e.toNat := by
  obtain ⟨hlow, -⟩ := exp_maxPattern_range hp
  have hlog := log2_scaled (x := maxPattern (decodeQuad q)) (by omega)
  have hlogM : Nat.log2 (maxMantissa q) = 7 := (Nat.log2_eq_iff (by omega)).2 ⟨hM, hM'⟩
  rw [scaled_maxPattern_decodeQuad he, log2_mul_two_pow (by omega), hlogM] at hlog
  omega

/-- R107 (c), with the condition on the value. -/
theorem encodePixel_decodeQuad {q : Quad} (he : q.e ≠ 0#8) (hM : 128 ≤ maxMantissa q)
    (hM' : maxMantissa q < 256) (hp : ¬ isBlack (scaled (maxPattern (decodeQuad q)))) :
    encodePixel (decodeQuad q) = q := by
  have hexp := exp_maxPattern_decodeQuad he hM hM' hp
  have hlane : ∀ m : Byte, BitVec.ofNat 8 (m.toNat * 2 ^ (q.e.toNat + 13) /
      2 ^ (15 + f32Exp (maxPattern (decodeQuad q)))) = m := fun m => by
    rw [show 15 + f32Exp (maxPattern (decodeQuad q)) = q.e.toNat + 13 by omega,
      Nat.mul_div_cancel _ (Nat.two_pow_pos _), BitVec.ofNat_toNat, BitVec.setWidth_eq]
  rw [encodePixel_of_not_isBlack hp, hexp, BitVec.ofNat_toNat, BitVec.setWidth_eq]
  generalize f32Exp (maxPattern (decodeQuad q)) = B at hlane
  simp only [decodeQuad_of_exp_ne_zero he, sanitize_decodeLane, scaled_decodeLane, hlane]

/-- R107 (c): which largest lanes are black. -/
theorem isBlack_normalised_iff {M e : Nat} (hM : 128 ≤ M) (hM' : M < 256) :
    isBlack (M * 2 ^ (e + 13)) ↔ ¬(23 ≤ e ∨ e = 22 ∧ 208 ≤ M) := by
  have hmono : ∀ {a b : Nat}, a ≤ b → 2 ^ (a + 13) ≤ 2 ^ (b + 13) := fun h =>
    Nat.pow_le_pow_right Nat.two_pos (by omega)
  simp only [isBlack, Config.blackReciprocal, scaleBits]
  rcases Nat.lt_trichotomy e 22 with h | rfl | h
  · have hpow := hmono (show e ≤ 21 by omega)
    have hle := Nat.mul_le_mul (Nat.le_of_lt_succ hM') hpow
    constructor <;> omega
  · constructor <;> omega
  · have hpow := hmono (show 23 ≤ e by omega)
    have hle := Nat.mul_le_mul hM hpow
    constructor <;> omega

theorem encodePixel_decodeQuad_zero {q : Quad} (he : q.e = 0#8) :
    encodePixel (decodeQuad q) = { r := 0#8, g := 0#8, b := 0#8, e := 0#8 } := by
  rw [decodeQuad_of_exp_eq_zero he]
  decide +kernel

/-- Settles O15: whether the largest lane `M * 2^(e + 13)` is black decides which of the two happens. -/
theorem normalisedQuadsReencode : Obligations.NormalisedQuadsReencode := by
  intro q hM
  change 128 ≤ maxMantissa q at hM
  change (_ ↔ 23 ≤ q.e.toNat ∨ q.e.toNat = 22 ∧ 208 ≤ maxMantissa q) ∧
    (¬(23 ≤ q.e.toNat ∨ q.e.toNat = 22 ∧ 208 ≤ maxMantissa q) → _)
  have hM' : maxMantissa q < 256 := max_lt q.r.isLt (max_lt q.g.isLt q.b.isLt)
  have hzero : ({ r := 0#8, g := 0#8, b := 0#8, e := 0#8 } : Quad) ≠ q := by
    rintro rfl
    exact absurd hM (by decide)
  suffices hblack : ¬(23 ≤ q.e.toNat ∨ q.e.toNat = 22 ∧ 208 ≤ maxMantissa q) →
      encodePixel (decodeQuad q) = { r := 0#8, g := 0#8, b := 0#8, e := 0#8 } by
    refine ⟨⟨fun hself => ?_, fun hcond => ?_⟩, hblack⟩
    · by_contra hcond
      exact hzero ((hblack hcond).symm.trans hself)
    · have he : q.e ≠ 0#8 := by
        intro h
        rw [h] at hcond
        simp at hcond
      refine encodePixel_decodeQuad he hM hM' ?_
      rw [scaled_maxPattern_decodeQuad he, isBlack_normalised_iff hM hM']
      exact not_not_intro hcond
  intro hcond
  by_cases he : q.e = 0#8
  · exact encodePixel_decodeQuad_zero he
  · refine encodePixel_of_isBlack ?_
    rwa [scaled_maxPattern_decodeQuad he, isBlack_normalised_iff hM hM']

end Sys2Proof.Machine
end

section
/-!
PROOFS. The words a host reads STATUS, ERRINFO and QUAD in, by field (R26, R31, R33).
-/

namespace Sys2Proof.Machine

/-! ## Fields of a word as numbers -/

theorem extractLsb'_eq_of_toNat {n k len : Nat} {x : BitVec n} {y : BitVec len}
    (hfield : x.toNat / 2 ^ k % 2 ^ len = y.toNat) : x.extractLsb' k len = y := by
  apply BitVec.eq_of_toNat_eq
  rw [BitVec.extractLsb'_toNat, Nat.shiftRight_eq_div_pow, hfield]

theorem getLsbD_eq_of_toNat {n k : Nat} {x : BitVec n} {b : Bool} (hbit : x.toNat / 2 ^ k % 2 = b.toNat) :
    x.getLsbD k = b := by
  rw [BitVec.getLsbD, Nat.testBit_eq_decide_div_mod_eq, hbit]
  cases b <;> rfl

/-- `QUAD` as a number (R31). -/
theorem packQuad_toNat (q : Quad) :
    (packQuad q).toNat = ((q.e.toNat * 2 ^ 8 + q.b.toNat) * 2 ^ 8 + q.g.toNat) * 2 ^ 8 + q.r.toNat := by
  simp only [packQuad, toNat_append_eq_add]

/-- R57: unpacking what was packed gives the quad back. -/
theorem unpackQuad_packQuad (q : Quad) : unpackQuad (packQuad q) = q := by
  have hr := q.r.isLt
  have hg := q.g.isLt
  have hb := q.b.isLt
  have he := q.e.isLt
  have hword := packQuad_toNat q
  rw [unpackQuad, extractLsb'_eq_of_toNat (y := q.r) (by omega), extractLsb'_eq_of_toNat (y := q.g) (by omega),
    extractLsb'_eq_of_toNat (y := q.b) (by omega), extractLsb'_eq_of_toNat (y := q.e) (by omega)]

/-- `STATUS` as a number (R26). -/
theorem State.statusWord_toNat (s : State) :
    s.statusWord.toNat = s.busy.toNat + 2 * s.status.done.toNat + 4 * s.status.err.code.toNat
      + 32 * s.status.cause.code.toNat + 256 * s.status.mode.code.toNat + 4096 * s.status.op.toNat := by
  simp only [State.statusWord, toNat_append_eq_add, BitVec.toNat_ofBool, BitVec.toNat_ofNat]
  ring

/-- `ERRINFO` as a number (R33). -/
theorem ErrInfo.word_toNat (i : ErrInfo) :
    i.word.toNat = i.pos.toNat + 65536 * i.plane.code.toNat + 262144 * i.phase.code.toNat := by
  simp only [ErrInfo.word, toNat_append_eq_add, BitVec.toNat_ofNat]
  ring

/-- R26: the values 6 and 7 of `ERR` are never written. -/
theorem ErrKind.code_lt (e : ErrKind) : e.code.toNat < 6 := by
  cases e <;> decide

/-- R26: the values 5 to 7 of `CAUSE` are never written. -/
theorem Cause.code_lt (c : Cause) : c.code.toNat < 5 := by
  cases c <;> decide

/-- Settles O34: each field is a quotient and a remainder of the word as a number. -/
theorem statusAndErrinfoLayout : Obligations.StatusAndErrinfoLayout := by
  refine ⟨by decide, by decide, by decide, by decide, by decide, fun s => ?_⟩
  have hstatus := s.statusWord_toNat
  have hinfo := s.errinfo.word_toNat
  have hbusy := s.busy.toNat_lt
  have hdone := s.status.done.toNat_lt
  have herr := s.status.err.code.isLt
  have hcause := s.status.cause.code.isLt
  have hmode := s.status.mode.code.isLt
  have hop := s.status.op.isLt
  have hpos := s.errinfo.pos.isLt
  have hplane := s.errinfo.plane.code.isLt
  have hphase := s.errinfo.phase.code.isLt
  have hnone : (0#3).toNat = 0 ∧ (0#16).toNat = 0 ∧ (0#12).toNat = 0 ∧ false.toNat = 0 := by decide
  refine ⟨getLsbD_eq_of_toNat ?_, getLsbD_eq_of_toNat ?_, extractLsb'_eq_of_toNat ?_,
    extractLsb'_eq_of_toNat ?_, extractLsb'_eq_of_toNat ?_, extractLsb'_eq_of_toNat ?_,
    extractLsb'_eq_of_toNat ?_, extractLsb'_eq_of_toNat ?_, ErrKind.code_lt _, Cause.code_lt _,
    extractLsb'_eq_of_toNat ?_, getLsbD_eq_of_toNat ?_, extractLsb'_eq_of_toNat ?_,
    extractLsb'_eq_of_toNat ?_, extractLsb'_eq_of_toNat ?_⟩
  all_goals omega

end Sys2Proof.Machine
end

section
/-!
PROOFS. The register window: what each offset reads (R24, R37, R58) and what a write stores (R23, R25).
-/

namespace Sys2Proof.Machine

/-! ## Reads -/

/-- R24, R37: no register stands at a misaligned offset or from 0x38 on. -/
theorem State.readReg_eq_zero (s : State) {off : BitVec 8} (hoff : off.toNat % 4 ≠ 0 ∨ 0x38 ≤ off.toNat) :
    s.readReg off = 0#32 := by
  unfold State.readReg
  split
  case h_15 => rfl
  all_goals omega

theorem State.readBus_word (s : State) (off : BitVec 8) : s.readBus .word off = s.readReg off := rfl

theorem State.readBus_eq_zero (s : State) {size : AccessSize} {off : BitVec 8}
    (hzero : size ≠ .word ∨ off.toNat % 4 ≠ 0 ∨ 0x38 ≤ off.toNat) : s.readBus size off = 0#32 := by
  cases size with
  | byte | half => rfl
  | word => exact s.readReg_eq_zero (hzero.resolve_left (not_not_intro rfl))

/-- Settles O33: each offset of the map is evaluated. -/
theorem registerReadFollowsMap : Obligations.RegisterReadFollowsMap := by
  intro s size off
  refine ⟨s.readBus size off, rfl, fun hword => ?_, s.readBus_eq_zero⟩
  rw [hword, s.readBus_word]
  refine ⟨?_, ?_, ?_, ?_, ?_, ?_, ?_, ?_, ?_, ?_, ?_, ?_, ?_, ?_⟩
  all_goals
    rintro rfl
    rfl

/-- Settles O48: every register is evaluated at `State.reset`. -/
theorem resetValues : Obligations.ResetValues := by
  refine ⟨fun off => ?_, rfl, rfl, rfl, rfl, rfl, rfl, rfl, rfl, rfl, rfl, rfl, rfl, rfl, rfl, rfl⟩
  unfold State.readReg
  split <;> rfl

/-! ## Writes -/

theorem exec_regWr_narrow {size : AccessSize} (hsize : size ≠ .word) (off : BitVec 8) (x : Word) (s : State) :
    exec (.regWr size off x) s = .next s := by
  simp only [exec, execRegWr]
  cases size with
  | word => exact absurd rfl hsize
  | byte | half => exact ite_self _

theorem exec_regWr_word {s : State} (hidle : s.busy = false) {off : BitVec 8} (hoff : off ≠ 0x00#8)
    (x : Word) : exec (.regWr .word off x) s = .next { s with regs := s.regs.write off x } := by
  simp only [exec, execRegWr, hidle, Bool.false_eq_true, if_false, if_neg hoff]

/-- R23, R24: the writable registers but `CMD` stand at the multiples of 4 from 0x08 to 0x24. -/
theorem Regs.write_of_not_writable (r : Regs) {off : BitVec 8} (x : Word)
    (hoff : off.toNat % 4 ≠ 0 ∨ off.toNat < 0x08 ∨ 0x28 ≤ off.toNat) : r.write off x = r := by
  unfold Regs.write
  split
  case h_9 => rfl
  all_goals omega

/-- R25: a write disturbs no other register. -/
theorem readReg_write_of_ne (s : State) {off other : BitVec 8} (x : Word) (hne : other ≠ off) :
    ({ s with regs := s.regs.write off x } : State).readReg other = s.readReg other := by
  have hne' : other.toNat ≠ off.toNat := fun h => hne (BitVec.eq_of_toNat_eq h)
  unfold Regs.write
  split <;> unfold State.readReg <;> split <;> first | rfl | omega

/-- Settles O31: the register file after the write is `Regs.write`. -/
theorem writableRegistersReadBack : Obligations.WritableRegistersReadBack := by
  intro s off x hidle hoff
  have hne : off ≠ 0x00#8 := by
    rintro rfl
    exact absurd hoff (by decide)
  refine ⟨s.regs.write off x, exec_regWr_word hidle hne x, ?_,
    fun other => readReg_write_of_ne s x⟩
  simp only [List.mem_cons, List.not_mem_nil, or_false] at hoff
  rcases hoff with rfl | rfl | rfl | rfl | rfl | rfl | rfl | rfl <;> rfl

/-- Settles O32: a narrow write stops before the register file, and any other stores nothing. -/
theorem otherWritesAreIgnored : Obligations.OtherWritesAreIgnored := by
  intro s size off x hidle hbad
  by_cases hsize : size = .word
  · subst hsize
    have hoff : off.toNat % 4 ≠ 0 ∨ off.toNat = 0x04 ∨ 0x28 ≤ off.toNat := by
      rcases hbad with h | h | rfl | h
      · exact absurd rfl h
      · exact .inl h
      · exact .inr (.inl rfl)
      · exact .inr (.inr h)
    have hne : off ≠ 0x00#8 := by
      rintro rfl
      exact absurd hoff (by decide)
    rw [exec_regWr_word hidle hne, Regs.write_of_not_writable _ x (by omega)]
  · exact exec_regWr_narrow hsize off x s

/-! ## The command register -/

/-- R139: a `CMD` write is the rule of the word's instruction. -/
theorem onCmdWrite_eq_exec (x : Word) (s : State) : onCmdWrite x s = exec (decodeCommand x) s := by
  have henc := (encode_decodeCommand x).2
  unfold onCmdWrite
  cases hdec : decodeCommand x with
  | clear | cvtDec | cvtEnc | flatRd | flatWr | scanDec | scanEnc | imgDec | imgEnc => rfl
  | illegal y =>
    rw [hdec] at henc
    obtain rfl := Encoding.cmd32.inj henc
    rfl
  | marker | nonmarker | run | lit | lit128 | zero | quad | regRd | regWr =>
    rw [hdec] at henc
    nomatch henc

/-- Settles O30: while busy both are ignored; else REG_WR at offset 0 is `onCmdWrite`. -/
theorem cmdWriteStartsCommand : Obligations.CmdWriteStartsCommand := by
  refine fun s x => ⟨rfl, ?_⟩
  cases hbusy : s.busy with
  | true => rw [exec_regWr_of_busy hbusy, exec_cmd32_of_busy (encode_decodeCommand x).2 hbusy]
  | false =>
    rw [← onCmdWrite_eq_exec]
    simp only [exec, execRegWr, hbusy, Bool.false_eq_true, if_false, if_true]

end Sys2Proof.Machine
end

section
/-!
PROOFS. The commands that convert one pixel inside their `CMD` write (R98, R106), and the streaming commands
that pass their checks (R40, R126, R155).
-/

namespace Sys2Proof.Machine

/-- Settles O17: `QUAD` unpacks to the quad packed in it. -/
theorem cvtDecWritesPixelRegisters : Obligations.CvtDecWritesPixelRegisters := by
  intro s q hidle hquad
  have hunpack : unpackQuad s.regs.quad = q := by
    rw [hquad]
    exact unpackQuad_packQuad q
  simp only [exec, execCvtDec, hidle, Bool.false_eq_true, if_false, State.start_regs, hunpack]
  rfl

/-- Settles O18: the lanes CVT_ENC encodes are `FR`, `FG` and `FB`, which its start keeps. -/
theorem cvtEncWritesQuad : Obligations.CvtEncWritesQuad := by
  intro s q hidle hquad
  have hregs : encodePixel (s.start 0x2#32).pixelRegs = q := hquad
  simp only [exec, execCvtEnc, hidle, Bool.false_eq_true, if_false, hregs]
  rfl

/-- R126: a scanline command runs when its geometry is usable. -/
theorem checkScan_of_usable {s : State} (hmin : 8 ≤ s.w) (hmax : s.w ≤ 32767) (hy : s.y < s.h) :
    checkScan s := ⟨⟨hmin, hmax⟩, (Nat.zero_lt_of_lt hy).ne', hy⟩

theorem exec_scanDec_of_checkScan {s : State} (hidle : s.busy = false) (hok : checkScan s) :
    exec .scanDec s = .next (s.entered 5#32 .scanDec) := by
  simp only [exec, execScanDec, hidle, Bool.false_eq_true, if_false, checkScan_start_iff, if_pos hok,
    State.start_at_entry_eq_entered]

theorem exec_scanEnc_of_checkScan {s : State} (hidle : s.busy = false) (hok : checkScan s) :
    exec .scanEnc s = .next (s.entered 6#32 .scanEnc) := by
  simp only [exec, execScanEnc, hidle, Bool.false_eq_true, if_false, checkScan_start_iff, if_pos hok,
    State.start_at_entry_eq_entered]

theorem exec_imgDec_of_checkImage {s : State} (hidle : s.busy = false) (hok : checkImage s) :
    exec .imgDec s = .next (s.entered 7#32 .imgDec) := by
  simp only [exec, execImgDec, hidle, Bool.false_eq_true, if_false, checkImage_start_iff, if_pos hok,
    State.start_at_entry_eq_entered]

theorem exec_imgEnc_of_checkImage {s : State} (hidle : s.busy = false) (hok : checkImage s) :
    exec .imgEnc s = .next (s.entered 8#32 .imgEnc) := by
  simp only [exec, execImgEnc, hidle, Bool.false_eq_true, if_false, checkImage_start_iff, if_pos hok,
    State.start_at_entry_eq_entered]

/-- Settles O20: each usable geometry passes the command's check, and the flat commands have none. -/
theorem streamingCommandsEnterRunning : Obligations.StreamingCommandsEnterRunning := by
  refine fun s hidle => ⟨⟨exec_flatRd_of_idle hidle, exec_flatWr_of_idle hidle⟩,
    fun hmin hmax hy => ?_, fun hw hh => ?_⟩
  · have hok := checkScan_of_usable hmin hmax hy
    exact ⟨exec_scanDec_of_checkScan hidle hok, exec_scanEnc_of_checkScan hidle hok⟩
  · exact ⟨exec_imgDec_of_checkImage hidle ⟨hw, hh⟩, exec_imgEnc_of_checkImage hidle ⟨hw, hh⟩⟩

end Sys2Proof.Machine
end

section
/-!
PROOFS. The tokens the plane encoder writes: where they stand and how long they are (R133 to R136 (c)), that
they decode to the plane (R136 (b)), and how many bytes they take (R136 (d)).
-/

namespace Sys2Proof.Machine

/-! ## One pass -/

theorem encodePass_next_of_found {data : List Byte} {cur : Nat} (hrun : 4 ≤ (search data cur).run) :
    (encodePass data cur).2 = (search data cur).beg + (search data cur).run := if_pos hrun

theorem encodePass_next_of_ended {data : List Byte} {cur : Nat} (hrun : (search data cur).run < 4) :
    (encodePass data cur).2 = (search data cur).beg := if_neg (not_le.2 hrun)

/-- Settles O56: a pass ends after its qualifying run, or at the end of the plane. -/
theorem encoderPassAdvances : Obligations.EncoderPassAdvances := by
  intro data cur hcur
  have hspec := search_spec hcur
  have hstart := hspec.cur_le
  rcases Nat.lt_or_ge (search data cur).run 4 with hend | hfound
  · have hbeg := hspec.ended hend
    rw [encodePass_next_of_ended hend]
    omega
  · obtain ⟨-, hin, -⟩ := hspec.found hfound
    rw [encodePass_next_of_found hfound]
    omega

/-! ## The tokens of a pass -/

/-- A chunk of a literal span (R134): it stands inside the span and carries as many bytes as it says. -/
theorem literalTokens_spec {fuel cur : Nat} {xs : List Byte} {t : Token} (ht : t ∈ literalTokens fuel cur xs) :
    ∃ chunk, t.bytes = BitVec.ofNat 8 chunk.length :: chunk ∧ 1 ≤ chunk.length ∧ chunk.length ≤ 128 ∧
      cur ≤ t.start ∧ t.start + chunk.length ≤ cur + xs.length ∧ t.phase = .emittingLiteral := by
  induction fuel generalizing cur xs with
  | zero => nomatch ht
  | succ fuel ih =>
    cases xs with
    | nil => nomatch ht
    | cons x xs =>
      have hchunk : ((x :: xs).take 128).length = min 128 (x :: xs).length := List.length_take
      have hrest : ((x :: xs).drop 128).length = (x :: xs).length - 128 := List.length_drop
      rw [List.length_cons] at hchunk hrest ⊢
      rcases List.mem_cons.1 ht with rfl | ht
      · exact ⟨(x :: xs).take 128, rfl, by omega, by omega, le_rfl, by simp only; omega, rfl⟩
      · obtain ⟨chunk, hbytes, h1, h128, hlow, hhigh, hphase⟩ := ih ht
        simp only [Config.maxLiteral] at hlow hhigh
        exact ⟨chunk, hbytes, h1, h128, by omega, by omega, hphase⟩

/-- R136 (c) for one token: what its count byte, its length and its phase are. -/
def TokenInRange (lo hi : Nat) (t : Token) : Prop :=
  ∃ c bs, t.bytes = c :: bs ∧ c ≠ 0x00#8 ∧ c ≠ 0x81#8 ∧ lo ≤ t.start ∧ t.start < hi ∧
    (128 < c.toNat → bs.length = 1 ∧
      (t.phase = .emittingLiteral → c.toNat ≤ 131) ∧ (t.phase = .emittingRun → 132 ≤ c.toNat)) ∧
    (c.toNat ≤ 128 → bs.length = c.toNat ∧ t.phase = .emittingLiteral)

theorem byte_ne_of_toNat_ne {c d : Byte} (h : c.toNat ≠ d.toNat) : c ≠ d := fun heq => h (heq ▸ rfl)

/-- R133, R135: a run token, dangling or qualifying by its length. -/
theorem tokenInRange_runToken {lo hi start len : Nat} {phase : EncPhase} {v : Byte} (hlen : 2 ≤ len)
    (hmax : len ≤ 127) (hlo : lo ≤ start) (hhi : start < hi)
    (hphase : (phase = .emittingLiteral → len ≤ 3) ∧ (phase = .emittingRun → 4 ≤ len)) :
    TokenInRange lo hi (runToken start phase len v) := by
  have hc : (BitVec.ofNat 8 (128 + len)).toNat = 128 + len := Nat.mod_eq_of_lt (by omega)
  obtain ⟨hdangling, hqualifying⟩ := hphase
  refine ⟨BitVec.ofNat 8 (128 + len), [v], rfl, byte_ne_of_toNat_ne ?_, byte_ne_of_toNat_ne ?_, hlo, hhi,
    fun _ => ⟨rfl, fun h => ?_, fun h => ?_⟩, fun h => ?_⟩
  · rw [hc]
    exact Nat.ne_of_gt (show 0 < 128 + len by omega)
  · rw [hc]
    exact Nat.ne_of_gt (show 129 < 128 + len by omega)
  · have := hdangling h
    omega
  · have := hqualifying h
    omega
  · omega

/-- R134: a literal token. -/
theorem tokenInRange_literalToken {lo hi : Nat} {t : Token} {chunk : List Byte}
    (hbytes : t.bytes = BitVec.ofNat 8 chunk.length :: chunk) (h1 : 1 ≤ chunk.length)
    (h128 : chunk.length ≤ 128) (hlo : lo ≤ t.start) (hhi : t.start < hi)
    (hphase : t.phase = .emittingLiteral) : TokenInRange lo hi t := by
  have hc : (BitVec.ofNat 8 chunk.length).toNat = chunk.length := Nat.mod_eq_of_lt (by omega)
  refine ⟨_, chunk, hbytes, byte_ne_of_toNat_ne ?_, byte_ne_of_toNat_ne ?_, hlo, hhi, fun h => ?_,
    fun _ => ⟨hc.symm, hphase⟩⟩
  · rw [hc]
    exact Nat.ne_of_gt h1
  · rw [hc]
    exact Nat.ne_of_lt (show chunk.length < 129 by omega)
  · omega

/-- Settles O58: a pass writes one dangling run or the chunks of its span, then a qualifying run. -/
theorem encodedTokenRanges : Obligations.EncodedTokenRanges := by
  intro data cur hcur t ht
  change TokenInRange cur data.length t
  have hspec := search_spec hcur
  have hstart := hspec.cur_le
  have hstop := hspec.beg_le
  obtain ⟨hold, -⟩ := hspec.old_le
  rcases List.mem_append.1 ht with hspan | hqualifying
  · unfold spanTokens at hspan
    split at hspan
    next hshort =>
      obtain rfl := List.mem_singleton.1 hspan
      exact tokenInRange_runToken (by omega) (by omega) le_rfl hcur ⟨fun _ => hold, nofun⟩
    next =>
      have hlen : ((data.drop cur).take ((search data cur).beg - cur)).length ≤
          (search data cur).beg - cur := List.length_take_le _ _
      obtain ⟨chunk, hbytes, h1, h128, hlow, hhigh, hphase⟩ := literalTokens_spec hspan
      exact tokenInRange_literalToken hbytes h1 h128 hlow (by omega) hphase
  · unfold qualifyingTokens at hqualifying
    split at hqualifying
    next hfound =>
      obtain ⟨hmax, hin, -⟩ := hspec.found hfound
      have hrun : 4 ≤ (search data cur).run := hfound
      obtain rfl := List.mem_singleton.1 hqualifying
      exact tokenInRange_runToken (by omega) hmax hstart (by omega) ⟨nofun, fun _ => hrun⟩
    next => nomatch hqualifying

/-! ## What the grammar reads -/

/-- A plane of no more bytes is over (R118). -/
@[simp] theorem expandTokens_zero (fuel : Nat) (bs : List Byte) : expandTokens fuel 0 bs = some ([], bs) := by
  cases fuel <;> rfl

/-- R73, R119: a run token that fits. -/
theorem expandTokens_run {c : Byte} {n : Nat} (hc : 128 < c.toNat) (hn : c.toNat - 128 ≤ n) (fuel : Nat) (v : Byte)
    (bs : List Byte) :
    expandTokens (fuel + 1) n (c :: v :: bs) =
      (expandTokens fuel (n - (c.toNat - 128)) bs).map fun r =>
        (List.replicate (c.toNat - 128) v ++ r.1, r.2) := by
  obtain ⟨m, rfl⟩ : ∃ m, n = m + 1 := ⟨n - 1, by omega⟩
  simp only [expandTokens, if_pos hc, if_neg (show ¬ c.toNat - 128 > m + 1 by omega)]

/-- R74, R120: a literal token that fits, with all its data bytes. -/
theorem expandTokens_literal {c : Byte} {xs : List Byte} {n : Nat} (hc : c.toNat = xs.length)
    (h1 : 1 ≤ xs.length) (h128 : xs.length ≤ 128) (hn : xs.length ≤ n) (fuel : Nat) (bs : List Byte) :
    expandTokens (fuel + 1) n (c :: (xs ++ bs)) =
      (expandTokens fuel (n - xs.length) bs).map fun r => (xs ++ r.1, r.2) := by
  obtain ⟨m, rfl⟩ : ∃ m, n = m + 1 := ⟨n - 1, by omega⟩
  obtain ⟨v, ys, rfl⟩ := List.exists_cons_of_length_pos h1
  have hlen : (v :: (ys ++ bs)).length = (v :: ys).length + bs.length := List.length_append (as := v :: ys)
  have htake : (v :: (ys ++ bs)).take (v :: ys).length = v :: ys := List.take_left' (l₁ := v :: ys) rfl
  have hdrop : (v :: (ys ++ bs)).drop (v :: ys).length = bs := List.drop_left' (l₁ := v :: ys) rfl
  rw [List.cons_append, expandTokens, if_neg (by omega), if_neg (by omega), if_neg (by omega),
    if_neg (by omega), hc, htake, hdrop]
  exact Nat.succ_ne_zero m

/-- What the grammar reads from a stream that holds a token: a run or a literal that fits. -/
theorem expandTokens_inv {fuel n : Nat} (hn : 1 ≤ n) {bs data left : List Byte}
    (h : expandTokens fuel n bs = some (data, left)) :
    ∃ fuel', fuel = fuel' + 1 ∧
      ((∃ c v bs' data', bs = c :: v :: bs' ∧ 128 < c.toNat ∧ c.toNat - 128 ≤ n ∧
        data = List.replicate (c.toNat - 128) v ++ data' ∧
        expandTokens fuel' (n - (c.toNat - 128)) bs' = some (data', left)) ∨
      ∃ c xs bs' data', bs = c :: (xs ++ bs') ∧ c.toNat = xs.length ∧ 1 ≤ xs.length ∧ xs.length ≤ 128 ∧
        xs.length ≤ n ∧ data = xs ++ data' ∧ expandTokens fuel' (n - xs.length) bs' = some (data', left)) := by
  unfold expandTokens at h
  split at h
  case h_1 => omega
  case h_2 => nomatch h
  case h_4 => nomatch h
  case h_3 fuel' c v bs' _ =>
    refine ⟨fuel', rfl, ?_⟩
    split at h
    next hrun =>
      split at h
      · nomatch h
      · obtain ⟨⟨data', left'⟩, hrest, heq⟩ := Option.map_eq_some_iff.1 h
        obtain ⟨rfl, rfl⟩ := Prod.mk.inj heq
        exact .inl ⟨c, v, bs', data', rfl, hrun, by omega, rfl, hrest⟩
    next hrun =>
      split at h
      · nomatch h
      split at h
      · nomatch h
      split at h
      · nomatch h
      · obtain ⟨⟨data', left'⟩, hrest, heq⟩ := Option.map_eq_some_iff.1 h
        obtain ⟨rfl, rfl⟩ := Prod.mk.inj heq
        have hlen : ((v :: bs').take c.toNat).length = c.toNat := List.length_take_of_le (by omega)
        refine .inr ⟨c, (v :: bs').take c.toNat, (v :: bs').drop c.toNat, data', ?_, hlen.symm, by omega,
          by omega, by omega, rfl, by rwa [hlen]⟩
        rw [List.take_append_drop]

/-- A larger bound on the number of tokens reads the same. -/
theorem expandTokens_fuel_mono {fuel fuel' n : Nat} {bs : List Byte} {r : List Byte × List Byte}
    (h : expandTokens fuel n bs = some r) (hle : fuel ≤ fuel') : expandTokens fuel' n bs = some r := by
  obtain ⟨data, left⟩ := r
  induction fuel generalizing fuel' n bs data with
  | zero =>
    rcases Nat.eq_zero_or_pos n with rfl | hn
    · rwa [expandTokens_zero] at h ⊢
    · obtain ⟨_, h0, -⟩ := expandTokens_inv hn h
      nomatch h0
  | succ fuel ih =>
    rcases Nat.eq_zero_or_pos n with rfl | hn
    · rwa [expandTokens_zero] at h ⊢
    · obtain ⟨k, rfl⟩ : ∃ k, fuel' = k + 1 := ⟨fuel' - 1, by omega⟩
      obtain ⟨_, hfuel, hrun | hlit⟩ := expandTokens_inv hn h
      · obtain ⟨c, v, bs', data', rfl, hc, hfit, hdata, hrest⟩ := hrun
        obtain rfl := Nat.succ.inj hfuel
        rw [hdata, expandTokens_run hc hfit, ih (Nat.le_of_succ_le_succ hle) data' hrest]
        rfl
      · obtain ⟨c, xs, bs', data', rfl, hc, h1, h128, hfit, rfl, hrest⟩ := hlit
        obtain rfl := Nat.succ.inj hfuel
        rw [expandTokens_literal hc h1 h128 hfit, ih (Nat.le_of_succ_le_succ hle) data' hrest]
        rfl

/-! ## Bytes that stand for part of a plane -/

/-- Read at a token of a plane, the bytes `ts` stand for the plane bytes `xs`, whatever follows. -/
def StandsFor (ts xs : List Byte) : Prop :=
  ∀ fuel n rest r, expandTokens fuel n rest = some r →
    expandTokens (fuel + xs.length) (xs.length + n) (ts ++ rest) = some (xs ++ r.1, r.2)

theorem StandsFor.nil : StandsFor [] [] := fun fuel n rest r h => by simpa using h

theorem StandsFor.append {ts us xs ys : List Byte} (hx : StandsFor ts xs) (hy : StandsFor us ys) :
    StandsFor (ts ++ us) (xs ++ ys) := fun fuel n rest r h => by
  have hboth := hx _ _ _ _ (hy fuel n rest r h)
  rwa [Nat.add_assoc fuel, Nat.add_comm ys.length, ← Nat.add_assoc xs.length, ← List.length_append,
    ← List.append_assoc, ← List.append_assoc] at hboth

theorem StandsFor.run {c : Byte} {k : Nat} (hk : 1 ≤ k) (hc : c.toNat = 128 + k) (v : Byte) :
    StandsFor [c, v] (List.replicate k v) := fun fuel n rest r h => by
  have hlen : c.toNat - 128 = k := by omega
  rw [List.length_replicate, show fuel + k = fuel + (k - 1) + 1 by omega, List.cons_append, List.cons_append,
    List.nil_append, expandTokens_run (by omega) (by omega), hlen, Nat.add_sub_cancel_left,
    expandTokens_fuel_mono h (by omega)]
  rfl

theorem StandsFor.literal {c : Byte} {xs : List Byte} (hc : c.toNat = xs.length) (h1 : 1 ≤ xs.length)
    (h128 : xs.length ≤ 128) : StandsFor (c :: xs) xs := fun fuel n rest r h => by
  rw [show fuel + xs.length = fuel + (xs.length - 1) + 1 by omega, List.cons_append,
    expandTokens_literal hc h1 h128 (by omega), Nat.add_sub_cancel_left, expandTokens_fuel_mono h (by omega)]
  rfl

/-! ## The encoded plane decodes -/

theorem standsFor_runToken {start k : Nat} {phase : EncPhase} (hk : 1 ≤ k) (hmax : k ≤ 127) (v : Byte) :
    StandsFor (runToken start phase k v).bytes (List.replicate k v) :=
  StandsFor.run hk (Nat.mod_eq_of_lt (by omega)) v

theorem standsFor_literalTokens {fuel : Nat} {xs : List Byte} (hfuel : xs.length ≤ fuel) (cur : Nat) :
    StandsFor ((literalTokens fuel cur xs).flatMap Token.bytes) xs := by
  induction fuel generalizing cur xs with
  | zero =>
    obtain rfl := List.length_eq_zero_iff.1 (Nat.le_zero.1 hfuel)
    exact StandsFor.nil
  | succ fuel ih =>
    cases xs with
    | nil => exact StandsFor.nil
    | cons x xs =>
      have hchunk : ((x :: xs).take 128).length = min 128 (x :: xs).length := List.length_take
      have hrest : ((x :: xs).drop 128).length = (x :: xs).length - 128 := List.length_drop
      rw [List.length_cons] at hfuel hchunk hrest
      have hsplit := (StandsFor.literal (c := BitVec.ofNat 8 ((x :: xs).take 128).length)
        (xs := (x :: xs).take 128) (Nat.mod_eq_of_lt (by omega)) (by omega) (by omega)).append
        (ih (xs := (x :: xs).drop 128) (by omega) (cur + ((x :: xs).take 128).length))
      rwa [List.take_append_drop] at hsplit

/-- R133, R134: the span of a pass. -/
theorem standsFor_spanTokens {data : List Byte} (hdata : data ≠ []) :
    StandsFor ((spanTokens data 0 (search data 0)).flatMap Token.bytes) (data.take (search data 0).beg) := by
  have hspec := search_spec (List.length_pos_iff.2 hdata)
  unfold spanTokens
  rw [Nat.sub_zero, List.drop_zero]
  split
  next hshort =>
    obtain ⟨hold, heq⟩ := hshort
    have hequal := hspec.old_eq
    obtain ⟨hle, -⟩ := hspec.old_le
    rw [heq, Nat.sub_self, EqualBytes, List.drop_zero] at hequal
    rw [hequal, heq, List.flatMap_singleton]
    exact standsFor_runToken (by omega) (by omega) _
  next => exact standsFor_literalTokens (List.length_take_le _ _) 0

/-- R135: the qualifying run of a pass, or nothing. -/
theorem standsFor_qualifyingTokens {data : List Byte} (hdata : data ≠ []) :
    StandsFor ((qualifyingTokens data (search data 0)).flatMap Token.bytes)
      ((data.drop (search data 0).beg).take ((encodePass data 0).2 - (search data 0).beg)) := by
  have hspec := search_spec (List.length_pos_iff.2 hdata)
  rw [qualifyingTokens_bytes]
  split
  next hfound =>
    obtain ⟨hmax, -, hequal⟩ := hspec.found hfound
    rw [encodePass_next_of_found hfound, Nat.add_sub_cancel_left, hequal]
    exact StandsFor.run (by omega) (Nat.mod_eq_of_lt (by omega)) _
  next hend =>
    rw [encodePass_next_of_ended (not_le.1 hend), Nat.sub_self, List.take_zero]
    exact StandsFor.nil

/-- R136 (b) for one pass. -/
theorem standsFor_encodePass {data : List Byte} (hdata : data ≠ []) :
    StandsFor ((encodePass data 0).1.flatMap Token.bytes) (data.take (encodePass data 0).2) := by
  have hboth := (standsFor_spanTokens hdata).append (standsFor_qualifyingTokens hdata)
  have hnext : (search data 0).beg ≤ (encodePass data 0).2 := by
    rcases Nat.lt_or_ge (search data 0).run 4 with hend | hfound
    · rw [encodePass_next_of_ended hend]
    · rw [encodePass_next_of_found hfound]
      exact Nat.le_add_right _ _
  rwa [← List.flatMap_append, ← List.take_add, Nat.add_sub_cancel' hnext] at hboth

theorem standsFor_encodePlane (data : List Byte) : StandsFor (encodePlane data) data := by
  induction hn : data.length using Nat.strong_induction_on generalizing data with
  | _ n ih =>
    rcases eq_or_ne data [] with rfl | hdata
    · exact StandsFor.nil
    · have hnext := encodePass_next_pos hdata
      have hpos := List.length_pos_iff.2 hdata
      have hrest : (data.drop (encodePass data 0).2).length < n := by
        rw [List.length_drop]
        omega
      have hboth := (standsFor_encodePass hdata).append (ih _ hrest _ rfl)
      rwa [List.take_append_drop, ← encodePlane_eq_pass hdata] at hboth

/-- Settles O57: the encoded plane stands for the plane, and after it nothing more is read. -/
theorem encodedPlaneDecodes : Obligations.EncodedPlaneDecodes := fun data rest => by
  simpa [expandPlane] using standsFor_encodePlane data 0 0 rest ([], rest) rfl

/-! ## The size of an encoded plane -/

theorem literalTokens_length_le (fuel cur : Nat) (xs : List Byte) :
    ((literalTokens fuel cur xs).flatMap Token.bytes).length ≤ xs.length + (xs.length + 127) / 128 := by
  induction fuel generalizing cur xs with
  | zero => exact Nat.zero_le _
  | succ fuel ih =>
    cases xs with
    | nil => exact Nat.zero_le _
    | cons x xs =>
      have hchunk : ((x :: xs).take 128).length = min 128 (x :: xs).length := List.length_take
      have hrest : ((x :: xs).drop 128).length = (x :: xs).length - 128 := List.length_drop
      have hih := ih (cur + ((x :: xs).take 128).length) ((x :: xs).drop 128)
      change (BitVec.ofNat 8 ((x :: xs).take 128).length :: (x :: xs).take 128 ++
        (literalTokens fuel (cur + ((x :: xs).take 128).length) ((x :: xs).drop 128)).flatMap
          Token.bytes).length ≤ _
      rw [List.length_append, List.length_cons]
      rw [List.length_cons] at hchunk hrest ⊢
      omega

/-- A span takes at most one byte more than its own for every 128 of them or part of 128. -/
theorem spanTokens_length_le (data : List Byte) (cur : Nat) (f : Search) :
    ((spanTokens data cur f).flatMap Token.bytes).length ≤ f.beg - cur + (f.beg - cur + 127) / 128 := by
  unfold spanTokens
  split
  next hshort =>
    change 2 ≤ _
    omega
  next =>
    have hlen : ((data.drop cur).take (f.beg - cur)).length ≤ f.beg - cur := List.length_take_le _ _
    have hle := literalTokens_length_le (f.beg - cur) cur ((data.drop cur).take (f.beg - cur))
    omega

/-- R136 (d): a qualifying run takes 2 bytes for at least 4, which pays for the incomplete chunk before it. -/
theorem encodePlane_length_le (data : List Byte) :
    (encodePlane data).length ≤ data.length + (data.length + 127) / 128 := by
  induction hn : data.length using Nat.strong_induction_on generalizing data with
  | _ n ih =>
    have hspan := spanTokens_length_le data 0 (search data 0)
    obtain ⟨hbeg, hended⟩ := search_zero_beg data
    rcases Nat.lt_or_ge (search data 0).run 4 with hend | hfound
    · have := hended hend
      rw [encodePlane_of_ended hend]
      omega
    · obtain ⟨hdata, hin⟩ := search_zero_found hfound
      have hrest : (data.drop (encodePass data 0).2).length = data.length - (encodePass data 0).2 :=
        List.length_drop
      rw [encodePass_next_of_found hfound] at hrest
      have hih := ih _ (by omega) (data.drop _) hrest
      rw [encodePlane_eq_pass hdata, encodePass_next_of_found hfound, encodePass, List.flatMap_append,
        qualifyingTokens_bytes, if_pos hfound, List.length_append, List.length_append, List.length_cons,
        List.length_singleton]
      omega

/-- Settles O59: a scanline is a marker of four bytes and four planes. -/
theorem encodedSizeBound : Obligations.EncodedSizeBound := by
  refine ⟨encodePlane_length_le, fun w qs hw => ?_⟩
  have hplane : ∀ plane : Quad → Byte, (encodePlane (qs.map plane)).length ≤ w + (w + 127) / 128 := fun plane => by
    simpa [hw] using encodePlane_length_le (qs.map plane)
  have hr := hplane Quad.r
  have hg := hplane Quad.g
  have hb := hplane Quad.b
  have he := hplane Quad.e
  have hmarker : (markerBytes w).length = 4 := rfl
  simp only [scanlineBytes, List.length_append]
  omega

end Sys2Proof.Machine
end

section
/-!
PROOFS. The stream units that write one byte, switch to flat data or put one pixel (R54, R109, R120, R121).
-/

namespace Sys2Proof.Machine

/-! ## Literal tokens -/

/-- R120: a literal that fits writes its first byte; the others are still to be read. -/
theorem literalToken_of_le {s : State} {op : Op} {p : Plane} {pos c : Nat} {buf : List Byte}
    (heng : s.engine = .running op (.token p pos buf)) (hw : s.w ≤ 32767) (hc : 1 ≤ c) (hfit : pos + c ≤ s.w)
    (v : Byte) :
    literalToken c v s =
      .next ({ s with sb := Memory.writeList s.sb (planeAddr s.w p pos) [v] }.at op (.litRest p pos c [])) := by
  have hrest : ¬ c > s.w - pos := by omega
  have hinside : planeAddr s.w p pos + [v].length ≤ Config.sbCapacity :=
    planeAddr_add_le_sbCapacity hw (show pos + 1 ≤ s.w by omega) p
  simp only [literalToken, heng, if_neg hrest, writeSB_of_le hinside]

/-- R120: a literal that would overflow its plane raises `FormatError` before it reads further. -/
theorem literalToken_of_lt {s : State} {op : Op} {p : Plane} {pos c : Nat} {buf : List Byte}
    (heng : s.engine = .running op (.token p pos buf)) (hover : c > s.w - pos) (v : Byte) :
    literalToken c v s = .next (s.raise .format .literalOverflow (planeInfo p pos)) := by
  simp only [literalToken, heng, if_pos hover]

/-- R72: both literal tokens are one rule. -/
theorem exec_literal {i : Instr} {c : Nat} {v : Byte}
    (hlit : (∃ n : BitVec 7, n ≠ 0#7 ∧ c = n.toNat ∧ i = .lit n v) ∨ c = 128 ∧ i = .lit128 v) (s : State) :
    1 ≤ c ∧ exec i s = literalToken c v s := by
  rcases hlit with ⟨n, hn, rfl, rfl⟩ | ⟨rfl, rfl⟩
  · exact ⟨toNat_pos_of_ne_zero hn, rfl⟩
  · exact ⟨by decide, rfl⟩

/-- Settles O38: the one byte written is the literal's first. -/
theorem literalTokenStarts : Obligations.LiteralTokenStarts := by
  intro s op p pos buf i c v hlit heng hw hpos
  obtain ⟨hc, hexec⟩ := exec_literal hlit s
  rw [hexec]
  refine ⟨fun hfit => ⟨_, literalToken_of_le heng hw hc hfit v, fun a => Memory.read_write _ _ a v⟩,
    fun hover => literalToken_of_lt heng (by omega) v⟩

/-! ## Flat data -/

/-- Settles O36: at a scanline start the fallback changes `MODE` and the place of the engine. -/
theorem nonmarkerSwitchesToFlat : Obligations.NonmarkerSwitchesToFlat := by
  intro s op buf b0 b1 b2 b3 heng
  simp only [exec, execNonmarker, heng]
  rfl

theorem putPixel_of_ready {s : State} (hready : s.ports.poutReady = true) (p : Pixel) (next : State → Result) :
    putPixel s p next = next { s with
      ports := { s.ports with pout := s.ports.pout ++ [p] },
      counters := { s.counters with pixcount := s.counters.pixcount + 1#32 } } := if_pos hready

theorem putPixel_of_not_ready {s : State} (hready : s.ports.poutReady = false) (p : Pixel)
    (next : State → Result) : putPixel s p next = .next s := by
  rw [putPixel, hready, if_neg Bool.false_ne_true]

/-- R109: a quad of flat data. -/
theorem exec_quad {s : State} {op : Op} {left : Nat} {buf : List Byte}
    (heng : s.engine = .running op (.quad left buf)) (r g b e : Byte) :
    exec (.quad r g b e) s =
      putPixel s (decodeQuad { r, g, b, e }) fun t => .next (t.at op (flatReadFrom left)) := by
  simp only [exec, execQuad, heng]

/-- Settles O41: QUAD is one offer on POUT. -/
theorem quadPutsPixel : Obligations.QuadPutsPixel := by
  intro s op left buf r g b e heng
  rw [exec_quad heng]
  refine ⟨fun hready => ?_, fun hready => putPixel_of_not_ready hready _ _⟩
  rw [putPixel_of_ready hready]
  cases left <;> rfl

/-! ## The next event -/

/-- What the engine does in one step, when it moves. -/
def engineNext (s : State) : Result :=
  match engineEvent s with
  | .instr i s' => exec i s'
  | .other r => r

/-- With nothing to do for the host the engine moves. -/
theorem step_of_host_nil {s : State} (hhost : s.host = []) : step s = engineNext s := by
  simp only [step, nextEvent, hhost]
  rfl

/-- R62: a host access is executed in the state without it. -/
theorem step_of_bus {s : State} {a : BusAccess} {rest : List HostAct} (hhost : s.host = .bus a :: rest) :
    step s = exec (busInstr a) { s with host := rest } := by
  simp only [step, nextEvent, hhost]

/-- The stream unit the engine has read in full is executed. -/
theorem engineNext_of_unit {s : State} {op : Op} {k : Pos} {ctx : StreamContext} {bs left : List Byte} {i : Instr}
    (heng : s.engine = .running op k) (hunit : k.unit = some (ctx, bs))
    (hdec : decodeStream ctx bs = .ok (i, left)) : engineNext s = exec i s := by
  simp only [engineNext, engineEvent, heng, hunit, hdec]

/-- With no stream unit in full, the engine takes its own next action. -/
theorem engineNext_of_own {s : State} {op : Op} {k : Pos} (heng : s.engine = .running op k)
    (hshort : ∀ ctx bs, k.unit = some (ctx, bs) → bs.length < ctx.unitBytes) :
    engineNext s = engineStep op k s := by
  simp only [engineNext, engineEvent, heng]
  cases hunit : k.unit with
  | none => rfl
  | some u =>
    obtain ⟨ctx, bs⟩ := u
    simp only [decodeStream_truncated (hshort ctx bs hunit)]

/-- Settles O42: both are the next event found. -/
theorem stepRunsDecodedInstruction : Obligations.StepRunsDecodedInstruction :=
  ⟨fun _ _ _ hhost => step_of_bus hhost, fun _ _ _ _ _ _ _ hhost heng hunit hdec =>
    (step_of_host_nil hhost).trans (engineNext_of_unit heng hunit hdec)⟩

end Sys2Proof.Machine
end

section
/-!
PROOFS. The engine's moves: what its steps can do, one constructor for each way a step changes the state, and
that the steps are exactly these (R52 to R55, R109 to R128, R142, R145, R171).
-/

namespace Sys2Proof.Machine

/-! ## What a transfer leaves -/

/-- `n` bytes have been pulled from BIN, and `rest` is left there (R52). -/
def State.tookBytes (s : State) (rest : List BinAnswer) (n : Nat) : State :=
  { s with
    ports := { s.ports with bin := rest },
    counters := { s.counters with incount := s.counters.incount + BitVec.ofNat 32 n } }

/-- An answer has been taken from BIN that is no byte, and `rest` is left there (R52). -/
def State.setBin (s : State) (rest : List BinAnswer) : State := { s with ports := { s.ports with bin := rest } }

/-- What is left of a `REJECT after n` when a byte has been accepted (R83). -/
def State.sentByte (s : State) (b : Byte) : State :=
  { s with
    ports := { s.ports with bout := s.ports.bout ++ [b], boutReject := s.ports.boutReject.map (· - 1) },
    counters := { s.counters with outcount := s.counters.outcount + 1#32 } }

/-- `n` pixels have been taken from PIN, and `rest` is left there (R55). -/
def State.tookPixels (s : State) (rest : List Pixel) (n : Nat) : State :=
  { s with
    ports := { s.ports with pin := rest },
    counters := { s.counters with pixcount := s.counters.pixcount + BitVec.ofNat 32 n } }

/-- Pixels have been put on POUT (R54). -/
def State.putPixels (s : State) (ps : List Pixel) : State :=
  { s with
    ports := { s.ports with pout := s.ports.pout ++ ps },
    counters := { s.counters with pixcount := s.counters.pixcount + BitVec.ofNat 32 ps.length } }

/-- `SB` holds `m` (R50). -/
def State.setSB (s : State) (m : Memory) : State := { s with sb := m }

/-- The four bytes of pixel `i` of a scanline of width `w` (R124). -/
def Memory.quadAt (m : Memory) (epoch w i : Nat) : Quad :=
  { r := m.byteAt epoch (planeAddr w .r i), g := m.byteAt epoch (planeAddr w .g i),
    b := m.byteAt epoch (planeAddr w .b i), e := m.byteAt epoch (planeAddr w .e i) }

/-- The four bytes of pixel `i` written into their planes (R128). -/
def Memory.writeQuad (m : Memory) (w i : Nat) (q : Quad) : Memory :=
  (((m.write (planeAddr w .r i) q.r).write (planeAddr w .g i) q.g).write (planeAddr w .b i) q.b).write
    (planeAddr w .e i) q.e

/-- The four bytes of pixel `i` lie inside `SB` (R48). -/
def PixelInside (w i : Nat) : Prop := ∀ p : Plane, planeAddr w p i + 1 ≤ Config.sbCapacity

/-! ## The places of a command -/

/-- The places at which the engine's next action is a pull (R109, R116, R118, R120). -/
def Pos.Pulls (w : Nat) : Pos → Prop
  | .marker buf => buf.length < 4
  | .token _ pos buf => buf.length < 2 ∧ (pos < w ∨ buf ≠ [])
  | .litRest _ _ c buf => buf.length + 1 < c
  | .quad _ buf => buf.length < 4
  | _ => False

/-- The place with one more byte read. -/
def Pos.feed (b : Byte) : Pos → Pos
  | .marker buf => .marker (buf ++ [b])
  | .token p pos buf => .token p pos (buf ++ [b])
  | .litRest p pos c buf => .litRest p pos c (buf ++ [b])
  | .quad left buf => .quad left (buf ++ [b])
  | k => k

/-- The places at which the engine's next action is a push: the byte, and the place after it (R111, R128). -/
inductive Pos.Pushes : Pos → Byte → Pos → Prop
  | marker {b rest} : Pushes (.markerOut (b :: rest)) b (.markerOut rest)
  | quad {left b rest} : Pushes (.quadOut left (b :: rest)) b (.quadOut left rest)
  | token {p data t toks cur b rest} : t.bytes = b :: rest →
      Pushes (.planeEmit p data (t :: toks) cur) b (.planeEmit p data ({ t with bytes := rest } :: toks) cur)

/-- The places at which the engine waits for a pixel on PIN (R111, R128). -/
def Pos.TakesPixel (w : Nat) : Pos → Prop
  | .pixel _ => True
  | .pixIn i => i < w
  | _ => False

/-- The places at which the engine offers a pixel on POUT (R109, R124). -/
def Pos.PutsPixel (w : Nat) : Pos → Prop
  | .quad _ buf => 4 ≤ buf.length
  | .emit i => i < w ∧ PixelInside w i
  | _ => False

/-- The moves from place to place that change nothing else. -/
inductive Pos.Jumps (w : Nat) : Pos → Pos → Prop
  | opened {b0 b1 b2 b3 bs} : isMarker b0 b1 b2 = true → markerWidth (low7 b2) b3 = w →
      Jumps w (.marker (b0 :: b1 :: b2 :: b3 :: bs)) (.token .r 0 [])
  | nextPlane {p q pos} : ¬ pos < w → p.next = some q → Jumps w (.token p pos []) (.token q 0 [])
  | filled {p pos} : ¬ pos < w → p.next = none → Jumps w (.token p pos []) (.emit 0)
  | quadWritten {left} : Jumps w (.quadOut left []) (flatWriteFrom left)
  | markerWritten : Jumps w (.markerOut []) (.pixIn 0)
  | pixelsTaken {i} : ¬ i < w → Jumps w (.pixIn i) (.planeStart .r)
  | pass {p data cur} : cur < data.length →
      Jumps w (.planeScan p data cur) (.planeEmit p data (encodePass data cur).1 (encodePass data cur).2)
  | planeWritten {p q data cur} : ¬ cur < data.length → p.next = some q →
      Jumps w (.planeScan p data cur) (.planeStart q)
  | passWritten {p data cur} : Jumps w (.planeEmit p data [] cur) (.planeScan p data cur)
  | tokenWritten {p data t toks cur} : t.bytes = [] →
      Jumps w (.planeEmit p data (t :: toks) cur) (.planeEmit p data toks cur)

/-- The moves that write a list of bytes to `SB` (R119, R120). -/
inductive Pos.Writes (w : Nat) : Pos → Nat → List Byte → Pos → Prop
  | run {p pos c v bs} : 128 < c.toNat → c.toNat - 128 ≤ w - pos →
      Writes w (.token p pos (c :: v :: bs)) (planeAddr w p pos) (List.replicate (c.toNat - 128) v)
        (.token p (pos + (c.toNat - 128)) [])
  | literal {p pos c v bs} : 1 ≤ c.toNat → c.toNat ≤ 128 → c.toNat ≤ w - pos →
      Writes w (.token p pos (c :: v :: bs)) (planeAddr w p pos) [v] (.litRest p pos c.toNat [])
  | rest {p pos c buf} : ¬ buf.length + 1 < c →
      Writes w (.litRest p pos c buf) (planeAddr w p (pos + 1)) buf (.token p (pos + c) [])

/-- The stream units that end the command with a `FormatError` (R117, R119, R120). -/
inductive Pos.Malformed (w : Nat) : Pos → Cause → ErrInfo → Prop
  | wrongWidth {b0 b1 b2 b3 bs} : isMarker b0 b1 b2 = true → markerWidth (low7 b2) b3 ≠ w →
      Malformed w (.marker (b0 :: b1 :: b2 :: b3 :: bs)) .wrongWidth
        { phase := .marker, plane := .r, pos := BitVec.ofNat 15 (markerWidth (low7 b2) b3) }
  | zeroCount {p pos c v bs} : c.toNat = 0 →
      Malformed w (.token p pos (c :: v :: bs)) .zeroCount (planeInfo p pos)
  | runOverflow {p pos c v bs} : 128 < c.toNat → c.toNat - 128 > w - pos →
      Malformed w (.token p pos (c :: v :: bs)) .runOverflow (planeInfo p pos)
  | literalOverflow {p pos c v bs} : 1 ≤ c.toNat → c.toNat ≤ 128 → c.toNat > w - pos →
      Malformed w (.token p pos (c :: v :: bs)) .literalOverflow (planeInfo p pos)

/-- The places at which a scanline is over (R125, R128). -/
inductive Pos.EndsScanline (w : Nat) : Pos → Prop
  | emitted {i} : ¬ i < w → EndsScanline w (.emit i)
  | written {data cur} : ¬ cur < data.length → EndsScanline w (.planeScan .e data cur)

/-- The engine waits on the port it is at (R171, R180). -/
def State.Waits (s : State) (k : Pos) : Prop :=
  (k.Pulls s.w ∧ s.ports.bin = [] ∧ s.ports.binEos = false) ∨
  ((∃ b k', k.Pushes b k') ∧ s.ports.boutReady = false) ∨
  (k.TakesPixel s.w ∧ s.ports.pin = []) ∨
  (k.PutsPixel s.w ∧ s.ports.poutReady = false)

/-- What the engine does in one step. -/
inductive EngineMove (s : State) : State → Prop
  | idle : s.engine = .idle → EngineMove s s
  | waits {op k} : s.engine = .running op k → s.Waits k → EngineMove s s
  | entry {op} : s.engine = .running op .entry → EngineMove s (beginCommand op s)
  | pull {op k b rest} : s.engine = .running op k → k.Pulls s.w → s.ports.bin = .byte b :: rest →
      EngineMove s ((s.tookBytes rest 1).at op (k.feed b))
  | pullFails {op k rest} : s.engine = .running op k → k.Pulls s.w →
      s.ports.bin = .fail :: rest ∨ s.ports.bin = [] ∧ s.ports.binEos = true ∧ rest = [] →
      EngineMove s ((s.setBin rest).raise .read .none k.info)
  | push {op k b k'} : s.engine = .running op k → k.Pushes b k' → s.ports.boutReady = true →
      s.ports.boutReject ≠ some 0 → EngineMove s ((s.sentByte b).at op k')
  | pushFails {op k b k'} : s.engine = .running op k → k.Pushes b k' → s.ports.boutReady = true →
      s.ports.boutReject = some 0 →
      EngineMove s ({ s with ports := { s.ports with boutReject := none } }.raise .write .none k.info)
  | takePixel {op left p rest} : s.engine = .running op (.pixel left) → s.ports.pin = p :: rest →
      EngineMove s ((s.tookPixels rest 1).at op (.quadOut left (encodePixel p).bytes))
  | takeScanPixel {op i p rest} : s.engine = .running op (.pixIn i) → i < s.w → PixelInside s.w i →
      s.ports.pin = p :: rest →
      EngineMove s (((s.tookPixels rest 1).setSB (s.sb.writeQuad s.w i (encodePixel p))).at op (.pixIn (i + 1)))
  | putQuad {op left r g b e bs} : s.engine = .running op (.quad left (r :: g :: b :: e :: bs)) →
      s.ports.poutReady = true →
      EngineMove s ((s.putPixels [decodeQuad { r, g, b, e }]).at op (flatReadFrom left))
  | emit {op i} : s.engine = .running op (.emit i) → i < s.w → PixelInside s.w i → s.ports.poutReady = true →
      EngineMove s ((s.putPixels [decodeQuad (s.sb.quadAt s.sbEpoch s.w i)]).at op (.emit (i + 1)))
  | jump {op k k'} : s.engine = .running op k → k.Jumps s.w k' → EngineMove s (s.at op k')
  | malformed {op k cause info} : s.engine = .running op k → k.Malformed s.w cause info →
      EngineMove s (s.raise .format cause info)
  | fallback {op b0 b1 b2 b3 bs} : s.engine = .running op (.marker (b0 :: b1 :: b2 :: b3 :: bs)) →
      isMarker b0 b1 b2 = false →
      EngineMove s ((s.setMode .flat).at op (.quad ((s.h - s.y) * s.w - 1) [b0, b1, b2, b3]))
  | write {op k a bs k'} : s.engine = .running op k → k.Writes s.w a bs k' →
      a + bs.length ≤ Config.sbCapacity → EngineMove s ((s.setSB (s.sb.writeList a bs)).at op k')
  | readPlane {op p} : s.engine = .running op (.planeStart p) → planeAddr s.w p 0 + s.w ≤ Config.sbCapacity →
      EngineMove s (s.at op (.planeScan p (s.sb.bytesAt s.sbEpoch (planeAddr s.w p 0) s.w) 0))
  | scanlineEnd {op k} : s.engine = .running op k → k.EndsScanline s.w → EngineMove s (scanlineDone op s)
  | flatEnd {op} : s.engine = .running op .flatDone → EngineMove s (flatEnd op s)

/-! ## The ports, by what the host presents -/

theorem pullByte_of_byte {s : State} {b : Byte} {rest : List BinAnswer} (hbin : s.ports.bin = .byte b :: rest)
    (info : ErrInfo) (next : Byte → State → Result) :
    pullByte s info next = next b (s.tookBytes rest 1) := by
  simp only [pullByte, hbin]
  rfl

theorem pullByte_of_fail {s : State} {rest : List BinAnswer}
    (hbin : s.ports.bin = .fail :: rest ∨ s.ports.bin = [] ∧ s.ports.binEos = true ∧ rest = [])
    (info : ErrInfo) (next : Byte → State → Result) :
    pullByte s info next = .next ((s.setBin rest).raise .read .none info) := by
  rcases hbin with hfail | ⟨hnil, heos, rfl⟩
  · simp only [pullByte, hfail]
    rfl
  · have hsame : s.setBin [] = s := by rw [State.setBin, ← hnil]
    simp only [pullByte, hnil, heos, if_true, hsame]

theorem pullByte_of_wait {s : State} (hbin : s.ports.bin = []) (heos : s.ports.binEos = false) (info : ErrInfo)
    (next : Byte → State → Result) : pullByte s info next = .next s := by
  simp only [pullByte, hbin, heos, Bool.false_eq_true, if_false]

theorem pushByte_of_accept {s : State} (hready : s.ports.boutReady = true) (hreject : s.ports.boutReject ≠ some 0)
    (info : ErrInfo) (b : Byte) (next : State → Result) : pushByte s info b next = next (s.sentByte b) := by
  rw [pushByte, if_pos hready]
  split
  next h0 => exact absurd h0 hreject
  next n hn =>
    simp only [State.sentByte, hn, Option.map_some]
    rfl
  next hn => simp only [State.sentByte, hn, Option.map_none]

theorem pushByte_of_reject {s : State} (hready : s.ports.boutReady = true) (hreject : s.ports.boutReject = some 0)
    (info : ErrInfo) (b : Byte) (next : State → Result) :
    pushByte s info b next =
      .next ({ s with ports := { s.ports with boutReject := none } }.raise .write .none info) := by
  simp only [pushByte, hready, if_true, hreject]

theorem pushByte_of_wait {s : State} (hready : s.ports.boutReady = false) (info : ErrInfo) (b : Byte)
    (next : State → Result) : pushByte s info b next = .next s := by
  simp only [pushByte, hready, Bool.false_eq_true, if_false]

theorem takePixel_of_cons {s : State} {p : Pixel} {rest : List Pixel} (hpin : s.ports.pin = p :: rest)
    (next : Pixel → State → Result) : Machine.takePixel s next = next p (s.tookPixels rest 1) := by
  simp only [Machine.takePixel, hpin]
  rfl

theorem takePixel_of_nil {s : State} (hpin : s.ports.pin = []) (next : Pixel → State → Result) :
    Machine.takePixel s next = .next s := by
  simp only [Machine.takePixel, hpin]

theorem readSB_of_le {s : State} {a n : Nat} (hle : a + n ≤ Config.sbCapacity) (next : List Byte → Result) :
    readSB s a n next = next (s.sb.bytesAt s.sbEpoch a n) := if_pos hle

/-! ## The engine at each place -/

section Place
variable {s : State} {op : Op} {k : Pos} (heng : s.engine = .running op k)
include heng

theorem engineNext_of_pulls (hk : k.Pulls s.w) :
    engineNext s = pullByte s k.info fun b t => .next (t.at op (k.feed b)) := by
  cases k with
  | marker buf =>
    refine engineNext_of_own heng fun ctx bs hu => ?_
    obtain ⟨rfl, rfl⟩ := Prod.mk.inj (Option.some.inj hu)
    exact hk
  | quad left buf =>
    refine engineNext_of_own heng fun ctx bs hu => ?_
    obtain ⟨rfl, rfl⟩ := Prod.mk.inj (Option.some.inj hu)
    exact hk
  | token p pos buf =>
    obtain ⟨hlen, hmore⟩ := hk
    refine (engineNext_of_own heng fun ctx bs hu => ?_).trans (if_neg fun hend => ?_)
    · obtain ⟨rfl, rfl⟩ := Prod.mk.inj (Option.some.inj hu)
      exact hlen
    · obtain ⟨hnil, hpos⟩ := hend
      exact hmore.elim hpos fun h => h (List.isEmpty_iff.1 hnil)
  | litRest p pos c buf => exact (engineNext_of_own heng nofun).trans (if_pos (Nat.lt_sub_of_add_lt hk))
  | entry | emit | pixel | quadOut | flatDone | markerOut | pixIn | planeStart | planeScan | planeEmit =>
    exact hk.elim

theorem engineNext_of_pushes {b : Byte} {k' : Pos} (hk : k.Pushes b k') :
    engineNext s = pushByte s k.info b fun t => .next (t.at op k') := by
  cases hk with
  | marker | quad => exact engineNext_of_own heng nofun
  | token htok =>
    rw [engineNext_of_own heng nofun]
    simp only [engineStep, htok]

end Place

theorem engineNext_pixel {s : State} {op : Op} {left : Nat} (heng : s.engine = .running op (.pixel left)) :
    engineNext s = Machine.takePixel s fun p t => .next (t.at op (.quadOut left (encodePixel p).bytes)) :=
  engineNext_of_own heng nofun

theorem engineNext_pixIn {s : State} {op : Op} {i : Nat} (heng : s.engine = .running op (.pixIn i))
    (hi : i < s.w) : engineNext s = Machine.takeScanPixel op i s :=
  (engineNext_of_own heng nofun).trans (if_pos hi)

/-- R128: the four bytes of a taken pixel go into the four planes. -/
theorem writeSB_quad {t : State} {i : Nat} (hin : PixelInside t.w i) (q : Quad) (next : State → Result) :
    (writeSB t (planeAddr t.w .r i) [q.r] fun s => writeSB s (planeAddr s.w .g i) [q.g] fun s =>
      writeSB s (planeAddr s.w .b i) [q.b] fun s => writeSB s (planeAddr s.w .e i) [q.e] next) =
      next (t.setSB (t.sb.writeQuad t.w i q)) :=
  (writeSB_of_le (hin .r) _).trans ((writeSB_of_le (hin .g) _).trans
    ((writeSB_of_le (hin .b) _).trans (writeSB_of_le (hin .e) _)))

theorem takeScanPixel_of_cons {s : State} {i : Nat} {p : Pixel} {rest : List Pixel} (hin : PixelInside s.w i)
    (hpin : s.ports.pin = p :: rest) (op : Op) :
    Machine.takeScanPixel op i s = .next
      (((s.tookPixels rest 1).setSB (s.sb.writeQuad s.w i (encodePixel p))).at op (.pixIn (i + 1))) :=
  (takePixel_of_cons hpin _).trans (writeSB_quad (t := s.tookPixels rest 1) hin _ _)

theorem takeScanPixel_of_nil {s : State} (hpin : s.ports.pin = []) (op : Op) (i : Nat) :
    Machine.takeScanPixel op i s = .next s := takePixel_of_nil hpin _

theorem engineNext_emit {s : State} {op : Op} {i : Nat} (heng : s.engine = .running op (.emit i)) (hi : i < s.w) :
    engineNext s = emitPixel op i s :=
  (engineNext_of_own heng nofun).trans (if_pos hi)

theorem emitPixel_of_inside {s : State} {i : Nat} (hin : PixelInside s.w i) (op : Op) :
    emitPixel op i s = putPixel s (decodeQuad (s.sb.quadAt s.sbEpoch s.w i)) fun t =>
      .next (t.at op (.emit (i + 1))) := by
  simp only [emitPixel, readSB_of_le (hin _), Memory.bytesAt, List.headD_cons]
  rfl

/-- R71, R117, R121: four bytes at a scanline start. -/
theorem engineNext_marker {s : State} {op : Op} {b0 b1 b2 b3 : Byte} {bs : List Byte}
    (heng : s.engine = .running op (.marker (b0 :: b1 :: b2 :: b3 :: bs))) :
    engineNext s = exec (decodeScanStart b0 b1 b2 b3) s := engineNext_of_unit heng rfl rfl

/-- R72: the two bytes of a plane token. -/
theorem engineNext_token {s : State} {op : Op} {p : Plane} {pos : Nat} {c v : Byte} {bs : List Byte}
    (heng : s.engine = .running op (.token p pos (c :: v :: bs))) :
    engineNext s = exec (decodeToken c v) s := engineNext_of_unit heng rfl rfl

/-- R109: the four bytes of a quad. -/
theorem engineNext_quad {s : State} {op : Op} {left : Nat} {r g b e : Byte} {bs : List Byte}
    (heng : s.engine = .running op (.quad left (r :: g :: b :: e :: bs))) :
    engineNext s =
      putPixel s (decodeQuad { r, g, b, e }) fun t => .next (t.at op (flatReadFrom left)) :=
  (engineNext_of_unit heng rfl rfl).trans (exec_quad heng r g b e)

/-- A plane that is full is left for the next one (R123, R124). -/
theorem engineNext_token_filled {s : State} {op : Op} {p : Plane} {pos : Nat}
    (heng : s.engine = .running op (.token p pos [])) (hpos : ¬ pos < s.w) :
    engineNext s = .next (planeFilled op p s) :=
  (engineNext_of_own heng fun ctx bs hu => by
    obtain ⟨rfl, rfl⟩ := Prod.mk.inj (Option.some.inj hu)
    decide).trans (if_pos ⟨rfl, hpos⟩)

/-- R119: a run token. -/
theorem engineNext_run {s : State} {op : Op} {p : Plane} {pos : Nat} {c v : Byte} {bs : List Byte}
    (heng : s.engine = .running op (.token p pos (c :: v :: bs))) (hc : 128 < c.toNat) :
    engineNext s =
      if c.toNat - 128 > s.w - pos then .next (s.raise .format .runOverflow (planeInfo p pos))
      else writeSB s (planeAddr s.w p pos) (List.replicate (c.toNat - 128) v) fun s =>
        .next (s.at op (.token p (pos + (c.toNat - 128)) [])) := by
  have hlen : (low7 c).toNat = c.toNat - 128 := by
    have := c.isLt
    rw [low7_toNat]
    omega
  rw [engineNext_token heng, decodeToken_of_run v hc, ← hlen]
  simp only [exec, execRun, heng]

/-- R120: a literal token. -/
theorem engineNext_literal {s : State} {op : Op} {p : Plane} {pos : Nat} {c v : Byte} {bs : List Byte}
    (heng : s.engine = .running op (.token p pos (c :: v :: bs))) (h1 : 1 ≤ c.toNat) (h128 : c.toNat ≤ 128) :
    engineNext s =
      if c.toNat > s.w - pos then .next (s.raise .format .literalOverflow (planeInfo p pos))
      else writeSB s (planeAddr s.w p pos) [v] fun s => .next (s.at op (.litRest p pos c.toNat [])) := by
  have hexec : exec (decodeToken c v) s = literalToken c.toNat v s := by
    rcases Nat.lt_or_eq_of_le h128 with hlt | heq
    · rw [decodeToken_of_lit v h1 (Nat.le_of_lt_succ hlt)]
      change literalToken (low7 c).toNat v s = _
      rw [low7_toNat, Nat.mod_eq_of_lt hlt]
    · rw [decodeToken_of_lit128 v heq, heq]
      rfl
  rw [engineNext_token heng, hexec]
  simp only [literalToken, heng]

/-- R75: count byte 0. -/
theorem engineNext_zero {s : State} {op : Op} {p : Plane} {pos : Nat} {c v : Byte} {bs : List Byte}
    (heng : s.engine = .running op (.token p pos (c :: v :: bs))) (hc : c.toNat = 0) :
    engineNext s = .next (s.raise .format .zeroCount (planeInfo p pos)) := by
  rw [engineNext_token heng, decodeToken_of_zero v hc]
  exact exec_zero_at_token heng v

/-- R120: the data of a literal are all read. -/
theorem engineNext_litRest {s : State} {op : Op} {p : Plane} {pos c : Nat} {buf : List Byte}
    (heng : s.engine = .running op (.litRest p pos c buf)) (hfull : ¬ buf.length + 1 < c) :
    engineNext s = writeSB s (planeAddr s.w p (pos + 1)) buf fun s => .next (s.at op (.token p (pos + c) [])) :=
  (engineNext_of_own heng nofun).trans (if_neg (by omega))

/-! ## Every move is a step -/

theorem engineNext_of_waits {s : State} {op : Op} {k : Pos} (heng : s.engine = .running op k)
    (hwaits : s.Waits k) : engineNext s = .next s := by
  rcases hwaits with ⟨hk, hbin, heos⟩ | ⟨⟨b, k', hk⟩, hready⟩ | ⟨hk, hpin⟩ | ⟨hk, hready⟩
  · rw [engineNext_of_pulls heng hk, pullByte_of_wait hbin heos]
  · rw [engineNext_of_pushes heng hk, pushByte_of_wait hready]
  · cases k with
    | pixel left => rw [engineNext_pixel heng, takePixel_of_nil hpin]
    | pixIn i => rw [engineNext_pixIn heng hk, takeScanPixel_of_nil hpin]
    | entry | marker | token | litRest | emit | quad | quadOut | flatDone | markerOut | planeStart | planeScan
    | planeEmit => exact hk.elim
  · cases k with
    | quad left buf =>
      obtain ⟨r, g, b, e, bs, rfl⟩ : ∃ r g b e bs, buf = r :: g :: b :: e :: bs := by
        match buf, hk with
        | r :: g :: b :: e :: bs, _ => exact ⟨r, g, b, e, bs, rfl⟩
      rw [engineNext_quad heng, putPixel_of_not_ready hready]
    | emit i =>
      obtain ⟨hi, hin⟩ := hk
      rw [engineNext_emit heng hi, emitPixel_of_inside hin, putPixel_of_not_ready hready]
    | entry | marker | token | litRest | pixel | quadOut | flatDone | markerOut | pixIn | planeStart | planeScan
    | planeEmit => exact hk.elim

theorem engineNext_of_jumps {s : State} {op : Op} {k k' : Pos} (heng : s.engine = .running op k)
    (hjump : k.Jumps s.w k') : engineNext s = .next (s.at op k') := by
  cases hjump with
  | opened hmarker hwidth =>
    rw [engineNext_marker heng, decodeScanStart_of_marker hmarker, exec_marker_of_eq heng hwidth]
  | nextPlane hpos hnext | filled hpos hnext =>
    rw [engineNext_token_filled heng hpos, planeFilled, hnext]
  | quadWritten | markerWritten | passWritten => exact engineNext_of_own heng nofun
  | pixelsTaken hi => exact (engineNext_of_own heng nofun).trans (if_neg hi)
  | pass hcur => exact (engineNext_of_own heng nofun).trans (if_pos hcur)
  | planeWritten hcur hnext =>
    rw [engineNext_of_own heng nofun]
    simp only [engineStep, if_neg hcur, Machine.planeWritten, hnext]
  | tokenWritten htok =>
    rw [engineNext_of_own heng nofun]
    simp only [engineStep, htok]

theorem engineNext_of_writes {s : State} {op : Op} {k k' : Pos} {a : Nat} {bs : List Byte}
    (heng : s.engine = .running op k) (hwrite : k.Writes s.w a bs k') (hin : a + bs.length ≤ Config.sbCapacity) :
    engineNext s = .next ((s.setSB (s.sb.writeList a bs)).at op k') := by
  cases hwrite with
  | run hc hfit => rw [engineNext_run heng hc, if_neg (Nat.not_lt.2 hfit), writeSB_of_le hin, State.setSB]
  | literal h1 h128 hfit =>
    rw [engineNext_literal heng h1 h128, if_neg (Nat.not_lt.2 hfit), writeSB_of_le hin, State.setSB]
  | rest hfull => rw [engineNext_litRest heng hfull, writeSB_of_le hin, State.setSB]

theorem engineNext_of_malformed {s : State} {op : Op} {k : Pos} {cause : Cause} {info : ErrInfo}
    (heng : s.engine = .running op k) (hbad : k.Malformed s.w cause info) :
    engineNext s = .next (s.raise .format cause info) := by
  cases hbad with
  | wrongWidth hmarker hwidth =>
    rw [engineNext_marker heng, decodeScanStart_of_marker hmarker, exec_marker_of_ne heng hwidth,
      ofNat_markerWidth]
  | zeroCount hc => exact engineNext_zero heng hc
  | runOverflow hc hover => rw [engineNext_run heng hc, if_pos hover]
  | literalOverflow h1 h128 hover => rw [engineNext_literal heng h1 h128, if_pos hover]

theorem engineNext_of_endsScanline {s : State} {op : Op} {k : Pos} (heng : s.engine = .running op k)
    (hend : k.EndsScanline s.w) : engineNext s = .next (scanlineDone op s) := by
  cases hend with
  | emitted hi | written hi => exact (engineNext_of_own heng nofun).trans (if_neg hi)

theorem EngineMove.engineNext_eq {s t : State} (hmove : EngineMove s t) : engineNext s = .next t := by
  cases hmove with
  | idle heng => simp only [engineNext, engineEvent, heng]
  | waits heng hwaits => exact engineNext_of_waits heng hwaits
  | entry heng | flatEnd heng => exact engineNext_of_own heng nofun
  | pull heng hk hbin => rw [engineNext_of_pulls heng hk, pullByte_of_byte hbin]
  | pullFails heng hk hbin => rw [engineNext_of_pulls heng hk, pullByte_of_fail hbin]
  | push heng hk hready hreject => rw [engineNext_of_pushes heng hk, pushByte_of_accept hready hreject]
  | pushFails heng hk hready hreject => rw [engineNext_of_pushes heng hk, pushByte_of_reject hready hreject]
  | takePixel heng hpin => rw [engineNext_pixel heng, takePixel_of_cons hpin]
  | takeScanPixel heng hi hin hpin => rw [engineNext_pixIn heng hi, takeScanPixel_of_cons hin hpin]
  | putQuad heng hready =>
    rw [engineNext_quad heng, putPixel_of_ready hready]
    rfl
  | emit heng hi hin hready =>
    rw [engineNext_emit heng hi, emitPixel_of_inside hin, putPixel_of_ready hready]
    rfl
  | jump heng hjump => exact engineNext_of_jumps heng hjump
  | malformed heng hbad => exact engineNext_of_malformed heng hbad
  | fallback heng hmarker =>
    rw [engineNext_marker heng, decodeScanStart_of_nonmarker hmarker]
    simp only [exec, execNonmarker, heng]
  | write heng hwrite hin => exact engineNext_of_writes heng hwrite hin
  | readPlane heng hin => rw [engineNext_of_own heng nofun, engineStep, readSB_of_le hin]
  | scanlineEnd heng hend => exact engineNext_of_endsScanline heng hend

/-! ## Every step is a move -/

section Step
variable {s t : State} {op : Op} {k : Pos} (heng : s.engine = .running op k) (h : engineNext s = .next t)
include heng h

theorem engineMove_of_pulls (hk : k.Pulls s.w) : EngineMove s t := by
  rw [engineNext_of_pulls heng hk] at h
  rcases pullByte_next h with ⟨b, rest, hbin, hnext⟩ | ⟨rest, hbin, rfl⟩ | ⟨hbin, heos, -⟩ | ⟨hbin, heos, rfl⟩
  · obtain rfl := Host.Outcome.next.inj hnext
    exact .pull heng hk hbin
  · exact .pullFails heng hk (.inl hbin)
  · rw [pullByte_of_fail (.inr ⟨hbin, heos, rfl⟩)] at h
    obtain rfl := Host.Outcome.next.inj h
    exact .pullFails heng hk (.inr ⟨hbin, heos, rfl⟩)
  · exact .waits heng (.inl ⟨hk, hbin, heos⟩)

theorem engineMove_of_pushes {b : Byte} {k' : Pos} (hk : k.Pushes b k') : EngineMove s t := by
  rw [engineNext_of_pushes heng hk] at h
  rcases pushByte_next h with ⟨hready, hreject, -⟩ | ⟨hready, hreject, rfl⟩ | ⟨hready, rfl⟩
  · rw [pushByte_of_accept hready hreject] at h
    obtain rfl := Host.Outcome.next.inj h
    exact .push heng hk hready hreject
  · exact .pushFails heng hk hready hreject
  · exact .waits heng (.inr (.inl ⟨⟨b, k', hk⟩, hready⟩))

theorem engineMove_of_jumps {k' : Pos} (hjump : k.Jumps s.w k') : EngineMove s t := by
  rw [engineNext_of_jumps heng hjump] at h
  obtain rfl := Host.Outcome.next.inj h
  exact .jump heng hjump

theorem engineMove_of_malformed {cause : Cause} {info : ErrInfo} (hbad : k.Malformed s.w cause info) :
    EngineMove s t := by
  rw [engineNext_of_malformed heng hbad] at h
  obtain rfl := Host.Outcome.next.inj h
  exact .malformed heng hbad

theorem engineMove_of_endsScanline (hend : k.EndsScanline s.w) : EngineMove s t := by
  rw [engineNext_of_endsScanline heng hend] at h
  obtain rfl := Host.Outcome.next.inj h
  exact .scanlineEnd heng hend

/-- A step that writes to `SB` stays inside it, for it answers. -/
theorem engineMove_of_writes {k' : Pos} {a : Nat} {bs : List Byte} (hwrite : k.Writes s.w a bs k')
    (hin : a + bs.length ≤ Config.sbCapacity) : EngineMove s t := by
  rw [engineNext_of_writes heng hwrite hin] at h
  obtain rfl := Host.Outcome.next.inj h
  exact .write heng hwrite hin

end Step

theorem engineMove_marker {s t : State} {op : Op} {buf : List Byte} (heng : s.engine = .running op (.marker buf))
    (h : engineNext s = .next t) : EngineMove s t := by
  match buf with
  | [] | [_] | [_, _] | [_, _, _] => exact engineMove_of_pulls heng h (by simp [Pos.Pulls])
  | b0 :: b1 :: b2 :: b3 :: bs =>
    cases hmarker : isMarker b0 b1 b2 with
    | true =>
      by_cases hwidth : markerWidth (low7 b2) b3 = s.w
      · exact engineMove_of_jumps heng h (.opened hmarker hwidth)
      · exact engineMove_of_malformed heng h (.wrongWidth hmarker hwidth)
    | false =>
      rw [engineNext_marker heng, decodeScanStart_of_nonmarker hmarker] at h
      simp only [exec, execNonmarker, heng] at h
      obtain rfl := Host.Outcome.next.inj h
      exact .fallback heng hmarker

/-- A token that has been read in full. -/
theorem engineMove_unit {s t : State} {op : Op} {p : Plane} {pos : Nat} {c v : Byte} {bs : List Byte}
    (heng : s.engine = .running op (.token p pos (c :: v :: bs))) (h : engineNext s = .next t) :
    EngineMove s t := by
  have hnext := h
  rcases Nat.lt_or_ge 128 c.toNat with hrun | h128
  · rw [engineNext_run heng hrun] at h
    split at h
    next hover => exact engineMove_of_malformed heng hnext (.runOverflow hrun hover)
    next hfit =>
      exact engineMove_of_writes heng hnext (.run hrun (Nat.not_lt.1 hfit)) (writeSB_next h).1
  · rcases Nat.eq_zero_or_pos c.toNat with h0 | h1
    · exact engineMove_of_malformed heng hnext (.zeroCount h0)
    · rw [engineNext_literal heng h1 h128] at h
      split at h
      next hover => exact engineMove_of_malformed heng hnext (.literalOverflow h1 h128 hover)
      next hfit =>
        exact engineMove_of_writes heng hnext (.literal h1 h128 (Nat.not_lt.1 hfit)) (writeSB_next h).1

theorem engineMove_token {s t : State} {op : Op} {p : Plane} {pos : Nat} {buf : List Byte}
    (heng : s.engine = .running op (.token p pos buf)) (h : engineNext s = .next t) : EngineMove s t := by
  match buf with
  | c :: v :: bs => exact engineMove_unit heng h
  | [c] => exact engineMove_of_pulls heng h ⟨Nat.one_lt_two, .inr nofun⟩
  | [] =>
    by_cases hpos : pos < s.w
    · exact engineMove_of_pulls heng h ⟨Nat.two_pos, .inl hpos⟩
    · cases hp : p.next with
      | some q => exact engineMove_of_jumps heng h (.nextPlane hpos hp)
      | none => exact engineMove_of_jumps heng h (.filled hpos hp)

theorem engineMove_litRest {s t : State} {op : Op} {p : Plane} {pos c : Nat} {buf : List Byte}
    (heng : s.engine = .running op (.litRest p pos c buf)) (h : engineNext s = .next t) : EngineMove s t := by
  by_cases hmore : buf.length + 1 < c
  · exact engineMove_of_pulls heng h hmore
  · have hnext := h
    rw [engineNext_litRest heng hmore] at h
    exact engineMove_of_writes heng hnext (.rest hmore) (writeSB_next h).1

theorem engineMove_quad {s t : State} {op : Op} {left : Nat} {buf : List Byte}
    (heng : s.engine = .running op (.quad left buf)) (h : engineNext s = .next t) : EngineMove s t := by
  match buf with
  | [] | [_] | [_, _] | [_, _, _] => exact engineMove_of_pulls heng h (by simp [Pos.Pulls])
  | r :: g :: b :: e :: bs =>
    rw [engineNext_quad heng] at h
    rcases putPixel_next h with ⟨hready, hnext⟩ | ⟨hready, rfl⟩
    · obtain rfl := Host.Outcome.next.inj hnext
      exact .putQuad heng hready
    · exact .waits heng (.inr (.inr (.inr ⟨Nat.le_add_left 4 _, hready⟩)))

theorem emitPixel_inside {s t : State} {op : Op} {i : Nat} (h : emitPixel op i s = .next t) :
    PixelInside s.w i := by
  obtain ⟨hr, h⟩ := readSB_next h
  obtain ⟨hg, h⟩ := readSB_next h
  obtain ⟨hb, h⟩ := readSB_next h
  obtain ⟨he, -⟩ := readSB_next h
  intro p
  cases p <;> assumption

theorem engineMove_emit {s t : State} {op : Op} {i : Nat} (heng : s.engine = .running op (.emit i))
    (h : engineNext s = .next t) : EngineMove s t := by
  by_cases hi : i < s.w
  · rw [engineNext_emit heng hi] at h
    have hin := emitPixel_inside h
    rw [emitPixel_of_inside hin] at h
    rcases putPixel_next h with ⟨hready, hnext⟩ | ⟨hready, rfl⟩
    · obtain rfl := Host.Outcome.next.inj hnext
      exact .emit heng hi hin hready
    · exact .waits heng (.inr (.inr (.inr ⟨⟨hi, hin⟩, hready⟩)))
  · exact engineMove_of_endsScanline heng h (.emitted hi)

theorem engineMove_pixel {s t : State} {op : Op} {left : Nat} (heng : s.engine = .running op (.pixel left))
    (h : engineNext s = .next t) : EngineMove s t := by
  rw [engineNext_pixel heng] at h
  rcases takePixel_next h with ⟨p, rest, hpin, hnext⟩ | ⟨hpin, rfl⟩
  · obtain rfl := Host.Outcome.next.inj hnext
    exact .takePixel heng hpin
  · exact .waits heng (.inr (.inr (.inl ⟨trivial, hpin⟩)))

theorem takeScanPixel_inside {s t : State} {op : Op} {i : Nat} {p : Pixel} {rest : List Pixel}
    (hpin : s.ports.pin = p :: rest) (h : Machine.takeScanPixel op i s = .next t) : PixelInside s.w i := by
  obtain h : _ = _ := (takePixel_of_cons hpin _).symm.trans h
  obtain ⟨hr, h⟩ := writeSB_next h
  obtain ⟨hg, h⟩ := writeSB_next h
  obtain ⟨hb, h⟩ := writeSB_next h
  obtain ⟨he, -⟩ := writeSB_next h
  intro p
  cases p <;> assumption

theorem engineMove_pixIn {s t : State} {op : Op} {i : Nat} (heng : s.engine = .running op (.pixIn i))
    (h : engineNext s = .next t) : EngineMove s t := by
  by_cases hi : i < s.w
  · rw [engineNext_pixIn heng hi] at h
    cases hpin : s.ports.pin with
    | nil =>
      rw [takeScanPixel_of_nil hpin] at h
      obtain rfl := Host.Outcome.next.inj h
      exact .waits heng (.inr (.inr (.inl ⟨hi, hpin⟩)))
    | cons p rest =>
      have hin := takeScanPixel_inside hpin h
      rw [takeScanPixel_of_cons hin hpin] at h
      obtain rfl := Host.Outcome.next.inj h
      exact .takeScanPixel heng hi hin hpin
  · exact engineMove_of_jumps heng h (.pixelsTaken hi)

theorem engineMove_planeScan {s t : State} {op : Op} {p : Plane} {data : List Byte} {cur : Nat}
    (heng : s.engine = .running op (.planeScan p data cur)) (h : engineNext s = .next t) : EngineMove s t := by
  by_cases hcur : cur < data.length
  · exact engineMove_of_jumps heng h (.pass hcur)
  · cases p with
    | r | g | b => exact engineMove_of_jumps heng h (.planeWritten hcur rfl)
    | e => exact engineMove_of_endsScanline heng h (.written hcur)

theorem engineMove_planeEmit {s t : State} {op : Op} {p : Plane} {data : List Byte} {toks : List Token} {cur : Nat}
    (heng : s.engine = .running op (.planeEmit p data toks cur)) (h : engineNext s = .next t) : EngineMove s t := by
  match toks with
  | [] => exact engineMove_of_jumps heng h .passWritten
  | tok :: toks =>
    cases htok : tok.bytes with
    | nil => exact engineMove_of_jumps heng h (.tokenWritten htok)
    | cons b rest => exact engineMove_of_pushes heng h (.token htok)

/-- What a step of the engine can do. -/
theorem engineMove_of_engineNext {s t : State} (h : engineNext s = .next t) : EngineMove s t := by
  cases heng : s.engine with
  | idle =>
    simp only [engineNext, engineEvent, heng] at h
    obtain rfl := Host.Outcome.next.inj h
    exact .idle heng
  | running op k =>
    cases k with
    | entry =>
      obtain rfl := Host.Outcome.next.inj ((engineNext_of_own heng nofun).symm.trans h)
      exact .entry heng
    | marker buf => exact engineMove_marker heng h
    | token p pos buf => exact engineMove_token heng h
    | litRest p pos c buf => exact engineMove_litRest heng h
    | emit i => exact engineMove_emit heng h
    | quad left buf => exact engineMove_quad heng h
    | pixel left => exact engineMove_pixel heng h
    | quadOut left rest =>
      match rest with
      | [] => exact engineMove_of_jumps heng h .quadWritten
      | b :: rest => exact engineMove_of_pushes heng h .quad
    | flatDone =>
      obtain rfl := Host.Outcome.next.inj ((engineNext_of_own heng nofun).symm.trans h)
      exact .flatEnd heng
    | markerOut rest =>
      match rest with
      | [] => exact engineMove_of_jumps heng h .markerWritten
      | b :: rest => exact engineMove_of_pushes heng h .marker
    | pixIn i => exact engineMove_pixIn heng h
    | planeStart p =>
      rw [engineNext_of_own heng nofun, engineStep] at h
      obtain ⟨hin, hnext⟩ := readSB_next h
      obtain rfl := Host.Outcome.next.inj hnext
      exact .readPlane heng hin
    | planeScan p data cur => exact engineMove_planeScan heng h
    | planeEmit p data toks cur => exact engineMove_planeEmit heng h

end Sys2Proof.Machine
end

section
/-!
PROOFS. The statements about one transfer: a pull, a failed pull, a failed push, and waiting (R52 to R55,
R156, R171, R180).
-/

namespace Sys2Proof.Machine

/-- A move of the engine is the machine's step when the host does nothing. -/
theorem step_of_engineMove {s t : State} (hhost : s.host = []) (hmove : EngineMove s t) : step s = .next t :=
  (step_of_host_nil hhost).trans hmove.engineNext_eq

/-- Settles O43: the four places are those of `Pos.Pulls`. -/
theorem pullConsumesOneByte : Obligations.PullConsumesOneByte := by
  intro s op k k' b rest hhost heng hbin hplace
  have hk : k.Pulls s.w ∧ k' = k.feed b := by
    rcases hplace with ⟨buf, rfl, hlen, rfl⟩ | ⟨p, pos, buf, rfl, hlen, hmore, rfl⟩ |
      ⟨p, pos, c, buf, rfl, hlen, rfl⟩ | ⟨left, buf, rfl, hlen, rfl⟩
    · exact ⟨hlen, rfl⟩
    · exact ⟨⟨hlen, hmore⟩, rfl⟩
    · exact ⟨hlen, rfl⟩
    · exact ⟨hlen, rfl⟩
  obtain ⟨hpulls, rfl⟩ := hk
  exact step_of_engineMove hhost (.pull heng hpulls hbin)

/-- Settles O44: the error information is that of the place. -/
theorem failedPullRaisesReadError : Obligations.FailedPullRaisesReadError := by
  intro s op k info rest hhost heng hbin hplace
  have hk : k.Pulls s.w ∧ info = k.info := by
    rcases hplace with ⟨buf, rfl, hlen, rfl⟩ | ⟨p, pos, buf, rfl, hlen, hmore, rfl⟩ |
      ⟨p, pos, c, buf, rfl, hlen, rfl⟩ | ⟨left, buf, rfl, hlen, rfl⟩
    · exact ⟨hlen, rfl⟩
    · exact ⟨⟨hlen, hmore⟩, rfl⟩
    · exact ⟨hlen, rfl⟩
    · exact ⟨hlen, rfl⟩
  obtain ⟨hpulls, rfl⟩ := hk
  exact step_of_engineMove hhost (.pullFails heng hpulls hbin)

/-- Settles O45: the three places are those of `Pos.Pushes`. -/
theorem failedPushRaisesWriteError : Obligations.FailedPushRaisesWriteError := by
  intro s op k info hhost heng hready hreject hplace
  have hk : (∃ b k', k.Pushes b k') ∧ info = k.info := by
    rcases hplace with ⟨b, bs, rfl, rfl⟩ | ⟨p, data, t, ts, cur, b, bs, rfl, htok, rfl⟩ | ⟨left, b, bs, rfl, rfl⟩
    · exact ⟨⟨b, _, .marker⟩, rfl⟩
    · exact ⟨⟨b, _, .token htok⟩, rfl⟩
    · exact ⟨⟨b, _, .quad⟩, rfl⟩
  obtain ⟨⟨b, k', hpushes⟩, rfl⟩ := hk
  exact step_of_engineMove hhost (.pushFails heng hpushes hready hreject)

/-- Settles O46: each place listed is one at which the engine waits on that port. -/
theorem waitingEngineKeepsState : Obligations.WaitingEngineKeepsState := by
  intro s hhost hplace
  refine step_of_engineMove hhost ?_
  rcases hplace with hidle | ⟨hbin, heos, hin⟩ | ⟨hready, hout⟩ | ⟨hpin, htake⟩ | ⟨hready, hput⟩
  · exact .idle hidle
  · rcases hin with ⟨op, buf, heng, hlen⟩ | ⟨op, p, pos, buf, heng, hlen, hmore⟩ |
      ⟨op, p, pos, c, buf, heng, hlen⟩ | ⟨op, left, buf, heng, hlen⟩
    · exact .waits heng (.inl ⟨hlen, hbin, heos⟩)
    · exact .waits heng (.inl ⟨⟨hlen, hmore⟩, hbin, heos⟩)
    · exact .waits heng (.inl ⟨hlen, hbin, heos⟩)
    · exact .waits heng (.inl ⟨hlen, hbin, heos⟩)
  · rcases hout with ⟨op, b, bs, heng⟩ | ⟨op, p, data, t, ts, cur, heng, htok⟩ | ⟨op, left, b, bs, heng⟩
    · exact .waits heng (.inr (.inl ⟨⟨b, _, .marker⟩, hready⟩))
    · obtain ⟨b, bs, hbytes⟩ := List.exists_cons_of_ne_nil htok
      exact .waits heng (.inr (.inl ⟨⟨b, _, .token hbytes⟩, hready⟩))
    · exact .waits heng (.inr (.inl ⟨⟨b, _, .quad⟩, hready⟩))
  · rcases htake with ⟨op, i, heng, hi⟩ | ⟨op, left, heng⟩
    · exact .waits heng (.inr (.inr (.inl ⟨hi, hpin⟩)))
    · exact .waits heng (.inr (.inr (.inl ⟨trivial, hpin⟩)))
  · rcases hput with ⟨op, left, r, g, b, e, heng⟩ | ⟨op, i, heng, hi, hw⟩
    · exact .waits heng (.inr (.inr (.inr ⟨le_rfl, hready⟩)))
    · exact .waits heng (.inr (.inr (.inr ⟨⟨hi, planeAddr_add_le_sbCapacity hw hi⟩, hready⟩)))

end Sys2Proof.Machine
end

section
/-!
PROOFS. What one step of the machine can do: a host access, `rst`, another action of the host, or a move of
the engine; and what of it can change `MODE`, the registers, `irq` and the ports (R39, R43, R62, R163, R183).
-/

namespace Sys2Proof.Machine

/-! ## The commands at their `CMD` write -/

/-- What an idle block's `CMD` write of `x` can come to (R139, R150, R155, R157, R158). -/
inductive CommandMove (s : State) (x : Word) : State → Prop
  | clear : CommandMove s x (s.start x)
  | converted (fr fg fb quad : Word) :
      CommandMove s x ({ s with regs := { s.regs with fr, fg, fb, quad } }.completed x 0 0 0)
  | entered {op : Op} : x = op.word → (op = .scanDec ∨ op = .scanEnc → ScanGeometry s) →
      (op.wholeImage → s.w ≠ 0 ∧ s.h ≠ 0) → CommandMove s x (s.entered x op)
  | refused {err : ErrKind} : err = .config ∨ err = .illegal → CommandMove s x (s.turnedAway x err)

theorem commandMove_of_checkScan {s t : State} {x : Word} {op : Op} (hop : op = .scanDec ∨ op = .scanEnc)
    (hx : x = op.word)
    (h : (if checkScan s then Host.Outcome.next (s.entered x op) else .next (s.turnedAway x .config)) =
      (.next t : Result)) : CommandMove s x t := by
  split at h
  next hok =>
    obtain rfl := Host.Outcome.next.inj h
    obtain ⟨hwidth, -, hy⟩ := hok
    refine .entered hx (fun _ => ⟨hwidth, hy⟩) fun himg => ?_
    rcases hop with rfl | rfl <;> rcases himg with h | h <;> nomatch h
  next =>
    obtain rfl := Host.Outcome.next.inj h
    exact .refused (.inl rfl)

theorem commandMove_of_checkImage {s t : State} {x : Word} {op : Op} (hop : op.wholeImage) (hx : x = op.word)
    (h : (if checkImage s then Host.Outcome.next (s.entered x op) else .next (s.turnedAway x .config)) =
      (.next t : Result)) : CommandMove s x t := by
  split at h
  next hok =>
    obtain rfl := Host.Outcome.next.inj h
    refine .entered hx (fun hscan => ?_) fun _ => hok
    rcases hop with rfl | rfl <;> rcases hscan with h | h <;> nomatch h
  next =>
    obtain rfl := Host.Outcome.next.inj h
    exact .refused (.inl rfl)

/-- Every command, legal or not, comes to one of these. -/
theorem commandMove_of_exec {i : Instr} {x : Word} {s t : State} (hcmd : encode i = .cmd32 x)
    (hidle : s.busy = false) (h : exec i s = .next t) : CommandMove s x t := by
  have hnot : ¬ s.busy = true := by rw [hidle]; exact Bool.false_ne_true
  cases i with
  | clear =>
    obtain rfl := Encoding.cmd32.inj hcmd
    obtain rfl := Host.Outcome.next.inj ((exec_clear_of_idle hidle).symm.trans h)
    exact .clear
  | cvtDec =>
    obtain rfl := Encoding.cmd32.inj hcmd
    obtain rfl := Host.Outcome.next.inj ((if_neg hnot).symm.trans h)
    exact .converted _ _ _ _
  | cvtEnc =>
    obtain rfl := Encoding.cmd32.inj hcmd
    obtain rfl := Host.Outcome.next.inj ((if_neg hnot).symm.trans h)
    exact .converted _ _ _ _
  | flatRd =>
    obtain rfl := Encoding.cmd32.inj hcmd
    obtain rfl := Host.Outcome.next.inj ((exec_flatRd_of_idle hidle).symm.trans h)
    exact .entered rfl nofun nofun
  | flatWr =>
    obtain rfl := Encoding.cmd32.inj hcmd
    obtain rfl := Host.Outcome.next.inj ((exec_flatWr_of_idle hidle).symm.trans h)
    exact .entered rfl nofun nofun
  | scanDec =>
    obtain rfl := Encoding.cmd32.inj hcmd
    exact commandMove_of_checkScan (.inl rfl) rfl ((if_neg hnot).symm.trans h)
  | scanEnc =>
    obtain rfl := Encoding.cmd32.inj hcmd
    exact commandMove_of_checkScan (.inr rfl) rfl ((if_neg hnot).symm.trans h)
  | imgDec =>
    obtain rfl := Encoding.cmd32.inj hcmd
    exact commandMove_of_checkImage (.inl rfl) rfl ((if_neg hnot).symm.trans h)
  | imgEnc =>
    obtain rfl := Encoding.cmd32.inj hcmd
    exact commandMove_of_checkImage (.inr rfl) rfl ((if_neg hnot).symm.trans h)
  | illegal y =>
    obtain rfl := Encoding.cmd32.inj hcmd
    obtain rfl := Host.Outcome.next.inj ((exec_illegal_of_idle hidle _).symm.trans h)
    exact .refused (.inr rfl)
  | marker | nonmarker | run | lit | lit128 | zero | quad | regRd | regWr => nomatch hcmd

/-! ## Host accesses -/

/-- What a host access can come to (R139, R151, R181). -/
inductive AccessMove (s : State) (a : BusAccess) : State → Prop
  | read {size off} : a = .read size off → AccessMove s a { s with rdata := s.readBus size off }
  | ignored {size off x} : a = .write size off x → AccessMove s a s
  | stored {off x} : a = .write .word off x → off ≠ 0x00#8 → s.busy = false →
      AccessMove s a { s with regs := s.regs.write off x }
  | command {x t} : a = .write .word 0x00#8 x → s.busy = false → CommandMove s x t → AccessMove s a t

theorem accessMove_of_exec {a : BusAccess} {s t : State} (h : exec (busInstr a) s = .next t) :
    AccessMove s a t := by
  cases a with
  | read size off =>
    obtain rfl := Host.Outcome.next.inj ((exec_busInstr_read s size off).symm.trans h)
    exact .read rfl
  | write size off x =>
    cases hbusy : s.busy with
    | true =>
      obtain rfl := Host.Outcome.next.inj ((exec_busInstr_write_of_busy hbusy size off x).symm.trans h)
      exact .ignored rfl
    | false =>
      rw [busInstr] at h
      split at h
      next hcmd =>
        obtain ⟨rfl, rfl⟩ := hcmd
        exact .command rfl hbusy (commandMove_of_exec (encode_decodeCommand x).2 hbusy h)
      next hreg =>
        by_cases hsize : size = .word
        · subst hsize
          have hoff : off ≠ 0x00#8 := fun hoff => hreg ⟨rfl, hoff⟩
          obtain rfl := Host.Outcome.next.inj ((exec_regWr_word hbusy hoff x).symm.trans h)
          exact .stored rfl hoff hbusy
        · obtain rfl := Host.Outcome.next.inj ((exec_regWr_narrow hsize off x s).symm.trans h)
          exact .ignored rfl

/-! ## One step -/

/-- What one step can do. The host's actions on the ports and the end of its wait are one case: they leave
the block's state alone. -/
inductive Move (s : State) : State → Prop
  | access {a rest t} : s.host = .bus a :: rest → AccessMove { s with host := rest } a t → Move s t
  | reset {rest} : s.host = .rst :: rest → Move s { s with host := rest }.assertReset
  | outside {act rest} (rdata : Word) : s.host = act :: rest →
      Move s { s with host := rest, ports := s.ports.act act, rdata := rdata }
  | engine {host t} : EngineMove { s with host := host } t → Move s t

/-- R84: a host that waits lets the engine move until `BUSY` is 0. -/
theorem step_of_wait {s : State} {rest : List HostAct} (hhost : s.host = .wait :: rest) :
    step s = if s.busy then engineNext s else .next { s with host := rest, rdata := s.statusWord } := by
  simp only [step, nextEvent, hhost]
  cases s.busy <;> rfl

theorem step_of_pause {s : State} {rest : List HostAct} (hhost : s.host = .pause :: rest) :
    step s = engineNext { s with host := rest } := by
  simp only [step, nextEvent, hhost]
  rfl

/-- The host's actions that only set up a port (R83, R180). -/
def HostAct.setsPort : HostAct → Bool
  | .feed _ | .eos | .pix _ | .reject _ | .boutReady _ | .poutReady _ => true
  | .bus _ | .wait | .pause | .rst => false

theorem step_of_port {s : State} {act : HostAct} {rest : List HostAct} (hhost : s.host = act :: rest)
    (hact : act.setsPort = true) : step s = .next { s with host := rest, ports := s.ports.act act } := by
  cases act with
  | feed | eos | pix | reject | boutReady | poutReady => simp only [step, nextEvent, hhost]
  | bus | wait | pause | rst => nomatch hact

theorem move_of_step {s t : State} (h : step s = .next t) : Move s t := by
  cases hhost : s.host with
  | nil =>
    rw [step_of_host_nil hhost] at h
    exact .engine (host := s.host) (engineMove_of_engineNext h)
  | cons act rest =>
    cases act with
    | bus a =>
      rw [step_of_bus hhost] at h
      exact .access hhost (accessMove_of_exec h)
    | rst =>
      rw [step_rst hhost] at h
      obtain rfl := Host.Outcome.next.inj h
      exact .reset hhost
    | pause =>
      rw [step_of_pause hhost] at h
      exact .engine (host := rest) (engineMove_of_engineNext h)
    | wait =>
      rw [step_of_wait hhost] at h
      split at h
      next => exact .engine (host := s.host) (engineMove_of_engineNext h)
      next =>
        obtain rfl := Host.Outcome.next.inj h
        exact .outside s.statusWord hhost
    | feed | eos | pix | reject | boutReady | poutReady =>
      rw [step_of_port hhost rfl] at h
      obtain rfl := Host.Outcome.next.inj h
      exact .outside s.rdata hhost

/-! ## The ends and the beginning of a command's rule -/

/-- R142, R145: the loop over scanlines goes on at a place of its own, or the command ends. -/
theorem nextScanline_cases (op : Op) (s : State) :
    (∃ k, nextScanline op s = s.at op k) ∨ nextScanline op s = s.finish := by
  unfold nextScanline
  split
  · exact .inl ⟨_, rfl⟩
  · exact .inr rfl

/-- R125, R128: the end of a scanline counts it, and the command goes on or ends. -/
theorem scanlineDone_cases (op : Op) (s : State) :
    (∃ k, scanlineDone op s = (s.setYpos (s.regs.ypos + 1#32)).at op k) ∨
      scanlineDone op s = (s.setYpos (s.regs.ypos + 1#32)).finish := by
  cases op with
  | imgDec | imgEnc => exact nextScanline_cases _ _
  | flatRd | flatWr | scanDec | scanEnc => exact .inr rfl

/-- R110, R112, R121: the end of a flat part is the end of its command. -/
theorem flatEnd_cases (op : Op) (s : State) :
    flatEnd op s = s.finish ∨ flatEnd op s = (s.setYpos s.regs.height).finish := by
  cases op with
  | flatRd | flatWr => exact .inl rfl
  | scanDec | scanEnc | imgDec | imgEnc => exact .inr rfl

theorem beginCommand_imgDec_of_rleOk {s : State} (hw : rleOk s.w) :
    beginCommand .imgDec s = nextScanline .imgDec ((s.setYpos 0#32).setMode .rle) := if_pos hw

theorem beginCommand_imgDec_of_not_rleOk {s : State} (hw : ¬ rleOk s.w) :
    beginCommand .imgDec s = ((s.setYpos 0#32).setMode .flat).at .imgDec (flatReadFrom (s.w * s.h)) := if_neg hw

theorem beginCommand_imgEnc_of_rleOk {s : State} (hw : rleOk s.w) :
    beginCommand .imgEnc s = nextScanline .imgEnc ((s.setYpos 0#32).setMode .rle) := if_pos hw

theorem beginCommand_imgEnc_of_not_rleOk {s : State} (hw : ¬ rleOk s.w) :
    beginCommand .imgEnc s = ((s.setYpos 0#32).setMode .flat).at .imgEnc (flatWriteFrom (s.w * s.h)) := if_neg hw

/-- R142, R145: a whole-image command begins by clearing `YPOS` and setting `MODE`; the others only take
their place. -/
theorem beginCommand_cases (op : Op) (s : State) :
    (∃ k, beginCommand op s = s.at op k) ∨
    ((op = .imgDec ∨ op = .imgEnc) ∧ ∃ u, (u = (s.setYpos 0#32).setMode (if rleOk s.w then .rle else .flat)) ∧
      ((∃ k, beginCommand op s = u.at op k) ∨ beginCommand op s = u.finish)) := by
  cases op with
  | flatRd | flatWr | scanDec | scanEnc => exact .inl ⟨_, rfl⟩
  | imgDec =>
    refine .inr ⟨.inl rfl, _, rfl, ?_⟩
    by_cases hw : rleOk s.w
    · rw [beginCommand_imgDec_of_rleOk hw, if_pos hw]
      exact nextScanline_cases _ _
    · rw [beginCommand_imgDec_of_not_rleOk hw, if_neg hw]
      exact .inl ⟨_, rfl⟩
  | imgEnc =>
    refine .inr ⟨.inr rfl, _, rfl, ?_⟩
    by_cases hw : rleOk s.w
    · rw [beginCommand_imgEnc_of_rleOk hw, if_pos hw]
      exact nextScanline_cases _ _
    · rw [beginCommand_imgEnc_of_not_rleOk hw, if_neg hw]
      exact .inl ⟨_, rfl⟩

/-! ## `MODE` -/

theorem AccessMove.mode_eq {s t : State} {a : BusAccess} (h : AccessMove s a t) : t.status.mode = s.status.mode := by
  cases h with
  | read | ignored | stored => rfl
  | command _ _ hcmd => cases hcmd <;> rfl

theorem EngineMove.mode_ne {s t : State} (h : EngineMove s t) (hne : t.status.mode ≠ s.status.mode) :
    (∃ op, (op = .imgDec ∨ op = .imgEnc) ∧ s.engine = .running op .entry ∧
      t.status.mode = if 8 ≤ s.w ∧ s.w ≤ 32767 then .rle else .flat) ∨
    (∃ op b0 b1 b2 b3 bs, s.engine = .running op (.marker (b0 :: b1 :: b2 :: b3 :: bs)) ∧
      isMarker b0 b1 b2 = false ∧ t.status.mode = .flat) := by
  cases h with
  | @entry op heng =>
    rcases beginCommand_cases op s with ⟨k, hbegin⟩ | ⟨himg, u, rfl, ⟨k, hbegin⟩ | hbegin⟩
    · rw [hbegin] at hne
      exact absurd rfl hne
    · exact .inl ⟨op, himg, heng, by rw [hbegin]; rfl⟩
    · exact .inl ⟨op, himg, heng, by rw [hbegin]; rfl⟩
  | fallback heng hmarker => exact .inr ⟨_, _, _, _, _, _, heng, hmarker, rfl⟩
  | @scanlineEnd op =>
    rcases scanlineDone_cases op s with ⟨k, hdone⟩ | hdone
    · rw [hdone] at hne
      exact absurd rfl hne
    · rw [hdone] at hne
      exact absurd rfl hne
  | @flatEnd op =>
    rcases flatEnd_cases op s with hend | hend
    · rw [hend] at hne
      exact absurd rfl hne
    · rw [hend] at hne
      exact absurd rfl hne
  | _ => exact absurd rfl hne

/-- Settles O52: a host access keeps `MODE`, `rst` sets it, and of the engine's moves two can change it. -/
theorem modeChangesOnlyWhereSaid : Obligations.ModeChangesOnlyWhereSaid := by
  intro s t hstep hne
  cases move_of_step hstep with
  | access _ hacc => exact absurd hacc.mode_eq hne
  | reset hhost => exact .inr (.inr ⟨_, hhost, rfl⟩)
  | outside => exact absurd rfl hne
  | engine hmove => exact (hmove.mode_ne hne).imp_right .inl

/-! ## The registers -/

/-- R183: the engine writes `YPOS` only, at the three places where a rule says so. -/
theorem EngineMove.regs {s t : State} (h : EngineMove s t) :
    t.regs = { s.regs with ypos := t.regs.ypos } ∧
    (t.regs.ypos ≠ s.regs.ypos →
      (∃ op, (op = .imgDec ∨ op = .imgEnc) ∧ s.engine = .running op .entry ∧ t.regs.ypos = 0#32) ∨
      (∃ op i, s.engine = .running op (.emit i) ∧ s.w ≤ i ∧ t.regs.ypos = s.regs.ypos + 1#32) ∨
      (∃ op data cur, s.engine = .running op (.planeScan .e data cur) ∧ data.length ≤ cur ∧
        t.regs.ypos = s.regs.ypos + 1#32) ∨
      ∃ op, s.engine = .running op .flatDone ∧ t.regs.ypos = s.regs.height) := by
  cases h with
  | @entry op heng =>
    rcases beginCommand_cases op s with ⟨k, hbegin⟩ | ⟨himg, u, rfl, ⟨k, hbegin⟩ | hbegin⟩
    · rw [hbegin]
      exact ⟨rfl, fun hne => absurd rfl hne⟩
    · rw [hbegin]
      exact ⟨rfl, fun _ => .inl ⟨op, himg, heng, rfl⟩⟩
    · rw [hbegin]
      exact ⟨rfl, fun _ => .inl ⟨op, himg, heng, rfl⟩⟩
  | @scanlineEnd op k heng hend =>
    have hregs : (scanlineDone op s).regs = { s.regs with ypos := s.regs.ypos + 1#32 } := by
      rcases scanlineDone_cases op s with ⟨k, hdone⟩ | hdone <;> rw [hdone] <;> rfl
    rw [hregs]
    refine ⟨rfl, fun _ => ?_⟩
    cases hend with
    | emitted hi => exact .inr (.inl ⟨op, _, heng, not_lt.1 hi, rfl⟩)
    | written hcur => exact .inr (.inr (.inl ⟨op, _, _, heng, not_lt.1 hcur, rfl⟩))
  | @flatEnd op heng =>
    rcases flatEnd_cases op s with hend | hend
    · rw [hend]
      exact ⟨rfl, fun hne => absurd rfl hne⟩
    · rw [hend]
      exact ⟨rfl, fun _ => .inr (.inr (.inr ⟨op, heng, rfl⟩))⟩
  | _ => exact ⟨rfl, fun hne => absurd rfl hne⟩

/-- Settles O53: with no write and no `rst`, the registers change in a move of the engine only. -/
theorem engineWritesOnlyYpos : Obligations.EngineWritesOnlyYpos := by
  intro s t hstep hrst hwrite
  cases move_of_step hstep with
  | access hhost hacc =>
    cases hacc with
    | read => exact ⟨rfl, fun hne => absurd rfl hne⟩
    | ignored => exact ⟨rfl, fun hne => absurd rfl hne⟩
    | stored ha => exact absurd ⟨_, _, _, _, ha ▸ hhost⟩ hwrite
    | command ha => exact absurd ⟨_, _, _, _, ha ▸ hhost⟩ hwrite
  | reset hhost => exact absurd ⟨_, hhost⟩ hrst
  | outside => exact ⟨rfl, fun hne => absurd rfl hne⟩
  | engine hmove => exact hmove.regs

/-! ## The completion line -/

/-- R163: the engine changes `DONE` only where its command ends, and then to 1. -/
theorem EngineMove.done {s t : State} (h : EngineMove s t) :
    t.status.done = s.status.done ∨ (s.busy = true ∧ t.busy = false ∧ t.status.done = true) := by
  cases h with
  | @entry op heng =>
    have hbusy := s.busy_eq_true.2 ⟨_, _, heng⟩
    rcases beginCommand_cases op s with ⟨k, hbegin⟩ | ⟨himg, u, rfl, ⟨k, hbegin⟩ | hbegin⟩
    · exact .inl (by rw [hbegin]; rfl)
    · exact .inl (by rw [hbegin]; rfl)
    · rw [hbegin]
      exact .inr ⟨hbusy, rfl, rfl⟩
  | @scanlineEnd op k heng =>
    have hbusy := s.busy_eq_true.2 ⟨_, _, heng⟩
    rcases scanlineDone_cases op s with ⟨k, hdone⟩ | hdone
    · exact .inl (by rw [hdone]; rfl)
    · rw [hdone]
      exact .inr ⟨hbusy, rfl, rfl⟩
  | @flatEnd op heng =>
    have hbusy := s.busy_eq_true.2 ⟨_, _, heng⟩
    rcases flatEnd_cases op s with hend | hend <;> rw [hend] <;> exact .inr ⟨hbusy, rfl, rfl⟩
  | pullFails heng | pushFails heng | malformed heng => exact .inr ⟨s.busy_eq_true.2 ⟨_, _, heng⟩, rfl, rfl⟩
  | _ => exact .inl rfl

/-- R163: a host access that raises or lowers `DONE` is a `CMD` write to an idle block, which stays idle if
`DONE` rises. -/
theorem AccessMove.done {s t : State} {a : BusAccess} (h : AccessMove s a t) :
    t.status.done = s.status.done ∨
      ((∃ x, a = .write .word 0x00#8 x) ∧ s.busy = false ∧ (t.status.done = true → t.busy = false)) := by
  cases h with
  | read | ignored | stored => exact .inl rfl
  | command ha hidle hcmd =>
    refine .inr ⟨⟨_, ha⟩, hidle, fun hdone => ?_⟩
    cases hcmd with
    | clear => exact hidle
    | converted | refused => rfl
    | entered => nomatch hdone

/-- Settles O54: only a `CMD` write, `rst` and the end of a command change `DONE`, which is `irq`. -/
theorem completionLineFollowsCommands : Obligations.CompletionLineFollowsCommands := by
  intro s t hstep
  have hsame : t.status.done = s.status.done → (s.irq = false → t.irq ≠ true) ∧ (s.irq = true → t.irq ≠ false) := by
    intro heq
    constructor <;> intro hs ht <;> exact Bool.false_ne_true (by simp_all [State.irq])
  cases move_of_step hstep with
  | access hhost hacc =>
    rcases hacc.done with heq | ⟨⟨x, rfl⟩, hidle, hdone⟩
    · exact ⟨fun hs ht => absurd ht ((hsame heq).1 hs), fun hs ht => absurd ht ((hsame heq).2 hs)⟩
    · exact ⟨fun _ ht => ⟨hdone ht, .inr ⟨x, _, hhost⟩⟩, fun _ _ => .inl ⟨hidle, x, _, hhost⟩⟩
  | reset hhost => exact ⟨fun _ ht => absurd ht Bool.false_ne_true, fun _ _ => .inr ⟨_, hhost⟩⟩
  | outside => exact ⟨fun hs ht => absurd ht ((hsame rfl).1 hs), fun hs ht => absurd ht ((hsame rfl).2 hs)⟩
  | engine hmove =>
    rcases hmove.done with heq | ⟨hbusy, hidle, hdone⟩
    · exact ⟨fun hs ht => absurd ht ((hsame heq).1 hs), fun hs ht => absurd ht ((hsame heq).2 hs)⟩
    · exact ⟨fun _ _ => ⟨hidle, .inl hbusy⟩, fun _ ht => absurd (hdone.symm.trans ht) (by decide)⟩

/-! ## The ports -/

/-- Settles O55: each move of the engine makes the one transfer it is named after, or none. -/
theorem oneTransferPerStep : Obligations.OneTransferPerStep := by
  intro s t hhost hstep
  rw [step_of_host_nil hhost] at hstep
  cases engineMove_of_engineNext hstep with
  | pull _ _ hbin => exact .inr (.inl ⟨_, hbin, rfl, rfl, rfl⟩)
  | pullFails _ _ hbin =>
    rcases hbin with hfail | ⟨hnil, -, rfl⟩
    · exact .inr (.inl ⟨_, hfail, rfl, rfl, rfl⟩)
    · exact .inl ⟨hnil.symm, rfl, rfl, rfl⟩
  | push => exact .inr (.inr (.inl ⟨_, rfl, rfl, rfl, rfl⟩))
  | takePixel _ hpin => exact .inr (.inr (.inr (.inl ⟨_, rfl, rfl, hpin, rfl⟩)))
  | takeScanPixel _ _ _ hpin => exact .inr (.inr (.inr (.inl ⟨_, rfl, rfl, hpin, rfl⟩)))
  | putQuad | emit => exact .inr (.inr (.inr (.inr ⟨_, rfl, rfl, rfl, rfl⟩)))
  | @entry op =>
    rcases beginCommand_cases op s with ⟨k, hbegin⟩ | ⟨-, u, rfl, ⟨k, hbegin⟩ | hbegin⟩ <;> rw [hbegin] <;>
      exact .inl ⟨rfl, rfl, rfl, rfl⟩
  | @scanlineEnd op =>
    rcases scanlineDone_cases op s with ⟨k, hdone⟩ | hdone <;> rw [hdone] <;>
      exact .inl ⟨rfl, rfl, rfl, rfl⟩
  | @flatEnd op =>
    rcases flatEnd_cases op s with hend | hend <;> rw [hend] <;> exact .inl ⟨rfl, rfl, rfl, rfl⟩
  | _ => exact .inl ⟨rfl, rfl, rfl, rfl⟩

end Sys2Proof.Machine
end

section
/-!
PROOFS. The written part of `SB`: how it grows (R46, R50), and the addresses of one scanline.
-/

namespace Sys2Proof.Machine

/-! ## The addresses of a scanline -/

@[simp] theorem planeAddr_r_zero (w : Nat) : planeAddr w .r 0 = 0 := Nat.zero_mul w

theorem planeAddr_add (w : Nat) (p : Plane) (i n : Nat) : planeAddr w p (i + n) = planeAddr w p i + n :=
  (Nat.add_assoc _ _ _).symm

/-- The end of a plane is the beginning of the next (R50). -/
theorem planeAddr_next {p q : Plane} (hnext : p.next = some q) (w : Nat) : planeAddr w q 0 = planeAddr w p w := by
  cases p <;> cases hnext <;> simp [planeAddr, Plane.index] <;> omega

theorem planeAddr_last {p : Plane} (hnext : p.next = none) (w : Nat) : planeAddr w p w = 4 * w := by
  cases p <;> cases hnext
  simp [planeAddr, Plane.index]
  omega

theorem planeAddr_lt (p : Plane) {w i : Nat} (hi : i < w) : planeAddr w p i < 4 * w := by
  cases p <;> simp [planeAddr, Plane.index] <;> omega

/-- Every index below `4 * WIDTH` lies in one of the planes. -/
theorem exists_planeAddr {w a : Nat} (ha : a < 4 * w) : ∃ (p : Plane) (i : Nat), i < w ∧ a = planeAddr w p i := by
  rcases Nat.lt_or_ge a w with h1 | h1
  · exact ⟨.r, a, h1, by simp [planeAddr, Plane.index]⟩
  rcases Nat.lt_or_ge a (2 * w) with h2 | h2
  · exact ⟨.g, a - w, by omega, by simp [planeAddr, Plane.index]; omega⟩
  rcases Nat.lt_or_ge a (3 * w) with h3 | h3
  · exact ⟨.b, a - 2 * w, by omega, by simp [planeAddr, Plane.index]; omega⟩
  · exact ⟨.e, a - 3 * w, by omega, by simp [planeAddr, Plane.index]; omega⟩

/-- Two bytes of a scanline at one address are the same byte of the same plane. -/
theorem planeAddr_inj {w i j : Nat} {p q : Plane} (hi : i < w) (hj : j < w)
    (h : planeAddr w p i = planeAddr w q j) : p = q ∧ i = j := by
  cases p <;> cases q <;> simp only [planeAddr, Plane.index] at h <;>
    first | exact ⟨rfl, by omega⟩ | omega

/-! ## What one pixel writes -/

/-- The byte of a quad that stands in a plane (R70, R124). -/
def Plane.byteOf : Plane → Quad → Byte
  | .r => Quad.r
  | .g => Quad.g
  | .b => Quad.b
  | .e => Quad.e

/-- Writing a pixel writes its four addresses and nothing else. -/
theorem Memory.read_writeQuad {w i : Nat} (hi : i < w) (m : Memory) (q : Quad) (p : Plane) :
    Memory.read (m.writeQuad w i q) (planeAddr w p i) = some (p.byteOf q) := by
  have hne : ∀ p' : Plane, p ≠ p' → planeAddr w p i ≠ planeAddr w p' i := fun p' h heq =>
    h (planeAddr_inj hi hi heq).1
  cases p with
  | r =>
    rw [Memory.writeQuad, Memory.read_write_ne _ _ (hne .e nofun), Memory.read_write_ne _ _ (hne .b nofun),
      Memory.read_write_ne _ _ (hne .g nofun), Memory.read_write_self]
    rfl
  | g =>
    rw [Memory.writeQuad, Memory.read_write_ne _ _ (hne .e nofun), Memory.read_write_ne _ _ (hne .b nofun),
      Memory.read_write_self]
    rfl
  | b =>
    rw [Memory.writeQuad, Memory.read_write_ne _ _ (hne .e nofun), Memory.read_write_self]
    rfl
  | e =>
    rw [Memory.writeQuad, Memory.read_write_self]
    rfl

theorem Memory.read_writeQuad_of_ne {w i a : Nat} (ha : ∀ p : Plane, a ≠ planeAddr w p i) (m : Memory) (q : Quad) :
    Memory.read (m.writeQuad w i q) a = Memory.read m a := by
  rw [Memory.writeQuad, Memory.read_write_ne _ _ (ha .e), Memory.read_write_ne _ _ (ha .b),
    Memory.read_write_ne _ _ (ha .g), Memory.read_write_ne _ _ (ha .r)]

theorem Memory.wf_writeQuad {w i : Nat} {m : Memory} (hm : m.wf = true) (hin : PixelInside w i) (q : Quad) :
    (m.writeQuad w i q).wf = true :=
  Memory.wf_write _ (Memory.wf_write _ (Memory.wf_write _ (Memory.wf_write _ hm (hin .r)) (hin .g)) (hin .b))
    (hin .e)

/-! ## Written stretches -/

theorem Filled.empty (m : Memory) (a : Nat) : Filled m a a := fun _ _ _ => by omega

theorem Filled.writeList {m : Memory} {a b : Nat} (h : Filled m a b) (bs : List Byte) :
    Filled (m.writeList b bs) a (b + bs.length) := fun i hlow hhigh => by
  rw [Memory.read_writeList]
  split
  next hin =>
    rw [List.getElem?_eq_getElem (show i - b < bs.length by omega)]
    rfl
  next hout => exact h i hlow (by omega)

/-- R128: with pixel `i` written, each plane is written up to `i + 1`. -/
theorem Filled.writeQuad {m : Memory} {w i : Nat} (hi : i < w)
    (h : ∀ p : Plane, Filled m (planeAddr w p 0) (planeAddr w p i)) (q : Quad) (p : Plane) :
    Filled (m.writeQuad w i q) (planeAddr w p 0) (planeAddr w p (i + 1)) := fun a hlow hhigh => by
  by_cases ha : ∃ p', a = planeAddr w p' i
  · obtain ⟨p', rfl⟩ := ha
    rw [Memory.read_writeQuad hi]
    rfl
  · have hne := not_exists.1 ha
    rw [Memory.read_writeQuad_of_ne hne]
    have := hne p
    rw [planeAddr_add] at hhigh
    exact h p a hlow (by omega)

/-- The four planes, each written, are the stretch below `4 * WIDTH`. -/
theorem Filled.of_planes {m : Memory} {w : Nat} (h : ∀ p : Plane, Filled m (planeAddr w p 0) (planeAddr w p w)) :
    Filled m 0 (4 * w) := fun a _ ha => by
  obtain ⟨p, i, hi, rfl⟩ := exists_planeAddr ha
  refine h p _ ?_ ?_
  · exact Nat.add_le_add_left (Nat.zero_le i) _
  · exact Nat.add_lt_add_left hi _

/-- R128: a written plane reads as what it holds. -/
theorem holdsPlane_bytesAt {m : Memory} {w : Nat} (h : Filled m 0 (4 * w)) (epoch : Nat) (p : Plane) :
    HoldsPlane m w p (m.bytesAt epoch (planeAddr w p 0) w) := by
  refine ⟨Memory.bytesAt_length _ _ _ _, fun i hi => ?_⟩
  obtain ⟨b, hb⟩ := Option.isSome_iff_exists.1 (h _ (Nat.zero_le _) (planeAddr_lt p hi))
  rw [Memory.bytesAt_getElem?, if_pos hi, ← planeAddr_add, Nat.zero_add, hb, Memory.byteAt_of_read hb]

/-- R50: every plane of an RLE scanline lies inside `SB`. -/
theorem pixelInside_of_lt {w i : Nat} (hw : w ≤ 32767) (hi : i < w) : PixelInside w i :=
  planeAddr_add_le_sbCapacity hw hi

end Sys2Proof.Machine
end

section
/-!
PROOFS. The invariant of the machine holds at reset and every step keeps it (R26, R38, R39, R44, R46).
-/

namespace Sys2Proof.Machine

/-! ## What the invariant reads -/

/-- What holds at a place depends on the geometry, the mode and the content of `SB`. -/
theorem PosOk.congr {s t : State} {op : Op} {k : Pos} (h : PosOk s op k) (hregs : t.regs = s.regs)
    (hmode : t.status.mode = s.status.mode) (hsb : t.sb = s.sb) : PosOk t op k := by
  have heq : PosOk t op k = PosOk s op k := by
    cases k <;> simp only [PosOk, ScanGeometry, State.w, State.h, State.y, hregs, hmode, hsb]
  exact heq ▸ h

theorem EngineOk.posOk {s : State} {op : Op} {k : Pos} (h : EngineOk s) (heng : s.engine = .running op k) :
    PosOk s op k := by
  simp only [EngineOk, heng] at h
  obtain ⟨-, -, -, hpos⟩ := h
  exact hpos

/-- The invariant of an idle block. -/
theorem inv_of_idle {s : State} (hsb : s.sb.wf = true) (hstatus : StatusOk s) (hidle : s.engine = .idle) : Inv s := by
  refine ⟨hsb, hstatus, ?_⟩
  simp only [EngineOk, hidle]

theorem inv_of_running {s : State} {op : Op} {k : Pos} (hsb : s.sb.wf = true) (hstatus : StatusOk s)
    (heng : s.engine = .running op k) (hcmd : s.regs.cmd = op.word) (hdone : s.status.done = false)
    (herr : s.status.err = .none) (hpos : PosOk s op k) : Inv s := by
  refine ⟨hsb, hstatus, ?_⟩
  simp only [EngineOk, heng]
  exact ⟨hcmd, hdone, herr, hpos⟩

/-- Settles O49: nothing is written and the engine is idle. -/
theorem invariantHoldsAtReset : Obligations.InvariantHoldsAtReset :=
  inv_of_idle rfl ⟨fun h => absurd rfl h, ⟨fun h => absurd rfl h, nofun⟩, rfl⟩ rfl

/-! ## A running command -/

section Running
variable {s t : State} {op : Op} {k k' : Pos} (hinv : Inv s) (heng : s.engine = .running op k)
include hinv heng

/-- A command that goes on keeps its word and its flags; what is left to show is its place. -/
theorem Inv.moves (hcmd : t.regs.cmd = s.regs.cmd) (hstatus : t.status = { s.status with mode := t.status.mode })
    (hsb : t.sb.wf = true) (hengt : t.engine = .running op k') (hpos : PosOk t op k') : Inv t := by
  obtain ⟨-, ⟨herr, hcause, hop⟩, hok⟩ := hinv
  simp only [EngineOk, heng] at hok
  obtain ⟨hword, hdone, hnone, -⟩ := hok
  refine inv_of_running hsb ⟨?_, ?_, ?_⟩ hengt (hcmd.trans hword) ?_ ?_ hpos
  · rwa [hstatus]
  · rwa [hstatus]
  · rwa [hstatus, hcmd]
  · rwa [hstatus]
  · rwa [hstatus]

end Running

/-- A command that ends leaves flags that fit together (R157, R158). -/
theorem Inv.ends {s t : State} {err : ErrKind} {cause : Cause} (hinv : Inv s)
    (hfit : cause ≠ .none ↔ err = .format) (hcmd : t.regs.cmd = s.regs.cmd) (hop : t.status.op = s.status.op)
    (hdone : t.status.done = true) (herr : t.status.err = err) (hcause : t.status.cause = cause)
    (hsb : t.sb = s.sb) (hidle : t.engine = .idle) : Inv t := by
  obtain ⟨hwf, ⟨-, -, hword⟩, -⟩ := hinv
  refine inv_of_idle (hsb ▸ hwf) ⟨fun _ => hdone, ?_, ?_⟩ hidle
  · rwa [herr, hcause]
  · rwa [hop, hcmd]

theorem Inv.finish {s u : State} (hinv : Inv s) (hcmd : u.regs.cmd = s.regs.cmd)
    (hop : u.status.op = s.status.op) (hsb : u.sb = s.sb) : Inv u.finish :=
  hinv.ends (err := .none) ⟨fun h => absurd rfl h, nofun⟩ hcmd hop rfl rfl rfl hsb rfl

theorem Inv.raise {s u : State} {err : ErrKind} {cause : Cause} (hinv : Inv s)
    (hfit : cause ≠ .none ↔ err = .format) (info : ErrInfo) (hcmd : u.regs.cmd = s.regs.cmd)
    (hop : u.status.op = s.status.op) (hsb : u.sb = s.sb) : Inv (u.raise err cause info) :=
  hinv.ends hfit hcmd hop rfl rfl rfl hsb rfl

/-! ## The places a command reaches -/

theorem PosOk.feed {s : State} {op : Op} {k : Pos} (h : PosOk s op k) (hk : k.Pulls s.w) (b : Byte) :
    PosOk s op (k.feed b) := by
  cases k with
  | marker buf =>
    obtain ⟨hop, hgeo, hmode, -⟩ := h
    exact ⟨hop, hgeo, hmode, by simpa using Nat.succ_le_of_lt hk⟩
  | token p pos buf =>
    obtain ⟨hop, hgeo, hmode, hpos, -, hmore, hfill⟩ := h
    obtain ⟨hlen, hpull⟩ := hk
    exact ⟨hop, hgeo, hmode, hpos, by simpa using Nat.succ_le_of_lt hlen, fun _ => hpull.elim id hmore, hfill⟩
  | litRest p pos c buf =>
    obtain ⟨hop, hgeo, hmode, h1, h128, hfit, -, hfill⟩ := h
    have hlen : (buf ++ [b]).length = buf.length + 1 := List.length_append
    have hlt : buf.length + 1 < c := hk
    exact ⟨hop, hgeo, hmode, h1, h128, hfit, by omega, hfill⟩
  | quad left buf =>
    obtain ⟨hop, -⟩ := h
    exact ⟨hop, by simpa using Nat.succ_le_of_lt hk⟩
  | entry | emit | pixel | quadOut | flatDone | markerOut | pixIn | planeStart | planeScan | planeEmit =>
    exact hk.elim

theorem PosOk.pushes {s : State} {op : Op} {k k' : Pos} {b : Byte} (h : PosOk s op k) (hk : k.Pushes b k') :
    PosOk s op k' := by
  cases hk with
  | marker =>
    obtain ⟨hop, hgeo, hmode, hlen⟩ := h
    exact ⟨hop, hgeo, hmode, Nat.le_of_succ_le hlen⟩
  | quad =>
    obtain ⟨hop, hlen⟩ := h
    exact ⟨hop, Nat.le_of_succ_le hlen⟩
  | token => exact h

/-- R109: from a quad on, the next quad or the end of the flat part. -/
theorem posOk_flatReadFrom {s : State} {op : Op} (hop : op = .flatRd ∨ op.decodesScanlines ∧ s.status.mode = .flat)
    (n : Nat) : PosOk s op (flatReadFrom n) := by
  cases n with
  | zero =>
    refine hop.imp_right fun hflat => .inr ?_
    obtain ⟨rfl | rfl, hmode⟩ := hflat
    · exact ⟨nofun, hmode⟩
    · exact ⟨nofun, hmode⟩
  | succ n => exact ⟨hop, Nat.zero_le _⟩

/-- R111. -/
theorem posOk_flatWriteFrom {s : State} {op : Op} (hop : op = .flatWr ∨ op = .imgEnc ∧ s.status.mode = .flat)
    (n : Nat) : PosOk s op (flatWriteFrom n) := by
  cases n with
  | zero =>
    refine .inr (hop.imp_right fun hflat => ?_)
    obtain ⟨rfl, hmode⟩ := hflat
    exact ⟨nofun, hmode⟩
  | succ n => exact hop

theorem PosOk.jumps {s : State} {op : Op} {k k' : Pos} (h : PosOk s op k) (hjump : k.Jumps s.w k') :
    PosOk s op k' := by
  cases hjump with
  | opened =>
    obtain ⟨hop, hgeo, hmode, -⟩ := h
    refine ⟨hop, hgeo, hmode, Nat.zero_le _, Nat.zero_le _, fun hne => absurd rfl hne, ?_⟩
    rw [planeAddr_r_zero]
    exact Filled.empty _ _
  | @nextPlane p q pos hpos hnext =>
    obtain ⟨hop, hgeo, hmode, hle, -, -, hfill⟩ := h
    obtain rfl : pos = s.w := by omega
    refine ⟨hop, hgeo, hmode, Nat.zero_le _, Nat.zero_le _, fun hne => absurd rfl hne, ?_⟩
    rwa [planeAddr_next hnext]
  | @filled p pos hpos hnext =>
    obtain ⟨hop, hgeo, hmode, hle, -, -, hfill⟩ := h
    obtain rfl : pos = s.w := by omega
    rw [planeAddr_last hnext] at hfill
    exact ⟨hop, hgeo, hmode, Nat.zero_le _, hfill⟩
  | quadWritten =>
    obtain ⟨hop, -⟩ := h
    exact posOk_flatWriteFrom hop _
  | markerWritten =>
    obtain ⟨hop, hgeo, hmode, -⟩ := h
    exact ⟨hop, hgeo, hmode, Nat.zero_le _, fun p => Filled.empty _ _⟩
  | @pixelsTaken i hi =>
    obtain ⟨hop, hgeo, hmode, hle, hfill⟩ := h
    obtain rfl : i = s.w := by omega
    exact ⟨hop, hgeo, hmode, Filled.of_planes hfill⟩
  | pass hcur =>
    obtain ⟨hop, hgeo, hmode, hfill, hplane, -⟩ := h
    obtain ⟨hlen, -⟩ := id hplane
    exact ⟨hop, hgeo, hmode, hfill, hplane, hlen ▸ (encoderPassAdvances _ _ hcur).2⟩
  | planeWritten =>
    obtain ⟨hop, hgeo, hmode, hfill, -⟩ := h
    exact ⟨hop, hgeo, hmode, hfill⟩
  | passWritten | tokenWritten => exact h

theorem PosOk.writes {s : State} {op : Op} {k k' : Pos} {a : Nat} {bs : List Byte} (h : PosOk s op k)
    (hwrite : k.Writes s.w a bs k') : PosOk (s.setSB (s.sb.writeList a bs)) op k' := by
  cases hwrite with
  | @run p pos c v bs hc hfit =>
    obtain ⟨hop, hgeo, hmode, hpos, -, -, hfill⟩ := h
    generalize c.toNat - 128 = n at hfit ⊢
    have hfill' := hfill.writeList (List.replicate n v)
    rw [List.length_replicate, ← planeAddr_add] at hfill'
    exact ⟨hop, hgeo, hmode, (by omega : pos + n ≤ s.w), Nat.zero_le _, fun hne => absurd rfl hne, hfill'⟩
  | @literal p pos c v bs h1 h128 hfit =>
    obtain ⟨hop, hgeo, hmode, hpos, -, -, hfill⟩ := h
    have hfill' := hfill.writeList [v]
    rw [List.length_singleton, ← planeAddr_add] at hfill'
    exact ⟨hop, hgeo, hmode, h1, h128, (by omega : pos + c.toNat ≤ s.w), Nat.zero_le _, hfill'⟩
  | @rest p pos c _ hfull =>
    obtain ⟨hop, hgeo, hmode, h1, h128, hfit, hlen, hfill⟩ := h
    have hfill' := hfill.writeList bs
    rw [← planeAddr_add, show pos + 1 + bs.length = pos + c by omega] at hfill'
    exact ⟨hop, hgeo, hmode, hfit, Nat.zero_le _, fun hne => absurd rfl hne, hfill'⟩

/-- A scanline subroutine begins with its marker (R116, R128). -/
theorem posOk_scanlineFrom {s : State} {op : Op} (hop : op.decodesScanlines ∨ op.encodesScanlines)
    (hgeo : ScanGeometry s) (hmode : op.wholeImage → s.status.mode = .rle) :
    PosOk s op (scanlineFrom op s.w) := by
  rcases hop with (rfl | rfl) | (rfl | rfl)
  · exact ⟨.inl rfl, hgeo, hmode, Nat.zero_le _⟩
  · exact ⟨.inr rfl, hgeo, hmode, Nat.zero_le _⟩
  · exact ⟨.inl rfl, hgeo, hmode, le_rfl⟩
  · exact ⟨.inr rfl, hgeo, hmode, le_rfl⟩

/-! ## The moves of the engine -/

section Keep
variable {s : State} {op : Op} {k : Pos} (hinv : Inv s) (heng : s.engine = .running op k)
include hinv heng

theorem Inv.nextScanline {u : State} (hop : op.decodesScanlines ∨ op.encodesScanlines)
    (hcmd : u.regs.cmd = s.regs.cmd) (hstatus : u.status = { s.status with mode := u.status.mode })
    (hsb : u.sb = s.sb) (hw : rleOk u.w) (hmode : op.wholeImage → u.status.mode = .rle) :
    Inv (nextScanline op u) := by
  unfold Machine.nextScanline
  split
  next hy =>
    exact hinv.moves heng hcmd hstatus (hsb ▸ hinv.1 : u.sb.wf = true) rfl
      ((posOk_scanlineFrom hop ⟨hw, hy⟩ hmode).congr rfl rfl rfl)
  next => exact hinv.finish hcmd (by rw [hstatus]) hsb

theorem Inv.scanlineDone (hop : op.decodesScanlines ∨ op.encodesScanlines) (hgeo : ScanGeometry s)
    (hmode : op.wholeImage → s.status.mode = .rle) : Inv (scanlineDone op s) := by
  obtain ⟨hw, -⟩ := hgeo
  cases op with
  | imgDec | imgEnc => exact hinv.nextScanline heng hop rfl rfl rfl hw hmode
  | flatRd | flatWr | scanDec | scanEnc => exact hinv.finish rfl rfl rfl

end Keep

theorem Inv.flatEnd {s : State} (hinv : Inv s) (op : Op) : Inv (flatEnd op s) := by
  cases op with
  | flatRd | flatWr | scanDec | scanEnc | imgDec | imgEnc => exact hinv.finish rfl rfl rfl

theorem Inv.beginCommand {s : State} {op : Op} (hinv : Inv s) (heng : s.engine = .running op .entry) :
    Inv (beginCommand op s) := by
  obtain ⟨hscan, himg⟩ := hinv.2.2.posOk heng
  cases op with
  | flatRd => exact hinv.moves heng rfl rfl hinv.1 rfl (posOk_flatReadFrom (.inl rfl) _)
  | flatWr => exact hinv.moves heng rfl rfl hinv.1 rfl (posOk_flatWriteFrom (.inl rfl) _)
  | scanDec =>
    exact hinv.moves heng rfl rfl hinv.1 rfl
      ((posOk_scanlineFrom (.inl (.inl rfl)) (hscan (.inl rfl)) nofun).congr rfl rfl rfl)
  | scanEnc =>
    exact hinv.moves heng rfl rfl hinv.1 rfl
      ((posOk_scanlineFrom (.inr (.inl rfl)) (hscan (.inr rfl)) nofun).congr rfl rfl rfl)
  | imgDec =>
    by_cases hw : rleOk s.w
    · rw [beginCommand_imgDec_of_rleOk hw]
      exact hinv.nextScanline heng (.inl (.inr rfl)) rfl rfl rfl hw fun _ => rfl
    · rw [beginCommand_imgDec_of_not_rleOk hw]
      exact hinv.moves heng rfl rfl hinv.1 rfl (posOk_flatReadFrom (.inr ⟨.inr rfl, rfl⟩) _)
  | imgEnc =>
    by_cases hw : rleOk s.w
    · rw [beginCommand_imgEnc_of_rleOk hw]
      exact hinv.nextScanline heng (.inr (.inr rfl)) rfl rfl rfl hw fun _ => rfl
    · rw [beginCommand_imgEnc_of_not_rleOk hw]
      exact hinv.moves heng rfl rfl hinv.1 rfl (posOk_flatWriteFrom (.inr ⟨rfl, rfl⟩) _)

theorem EngineMove.inv {s t : State} (hmove : EngineMove s t) (hinv : Inv s) : Inv t := by
  cases hmove with
  | idle | waits => exact hinv
  | entry heng => exact hinv.beginCommand heng
  | pull heng hk hbin =>
    exact hinv.moves heng rfl rfl hinv.1 rfl (((hinv.2.2.posOk heng).feed hk _).congr rfl rfl rfl)
  | pullFails | pushFails => exact hinv.raise (by decide) _ rfl rfl rfl
  | push heng hk =>
    exact hinv.moves heng rfl rfl hinv.1 rfl (((hinv.2.2.posOk heng).pushes hk).congr rfl rfl rfl)
  | takePixel heng => exact hinv.moves heng rfl rfl hinv.1 rfl ⟨hinv.2.2.posOk heng, le_rfl⟩
  | takeScanPixel heng hi hin =>
    obtain ⟨hop, hgeo, hmode, -, hfill⟩ := hinv.2.2.posOk heng
    exact hinv.moves heng rfl rfl (Memory.wf_writeQuad hinv.1 hin _) rfl
      ⟨hop, hgeo, hmode, hi, Filled.writeQuad hi hfill _⟩
  | putQuad heng =>
    obtain ⟨hop, -⟩ := hinv.2.2.posOk heng
    exact hinv.moves heng rfl rfl hinv.1 rfl (posOk_flatReadFrom hop _)
  | emit heng hi =>
    obtain ⟨hop, hgeo, hmode, -, hfill⟩ := hinv.2.2.posOk heng
    exact hinv.moves heng rfl rfl hinv.1 rfl ⟨hop, hgeo, hmode, hi, hfill⟩
  | jump heng hjump =>
    exact hinv.moves heng rfl rfl hinv.1 rfl (((hinv.2.2.posOk heng).jumps hjump).congr rfl rfl rfl)
  | malformed _ hbad => exact hinv.raise (by cases hbad <;> decide) _ rfl rfl rfl
  | fallback heng =>
    obtain ⟨hop, -⟩ := hinv.2.2.posOk heng
    exact hinv.moves heng rfl rfl hinv.1 rfl ⟨.inr ⟨hop, rfl⟩, le_rfl⟩
  | write heng hwrite hin =>
    exact hinv.moves heng rfl rfl (Memory.wf_writeList hinv.1 hin) rfl
      (((hinv.2.2.posOk heng).writes hwrite).congr rfl rfl rfl)
  | readPlane heng =>
    obtain ⟨hop, hgeo, hmode, hfill⟩ := hinv.2.2.posOk heng
    exact hinv.moves heng rfl rfl hinv.1 rfl
      ⟨hop, hgeo, hmode, hfill, holdsPlane_bytesAt hfill _ _, Nat.zero_le _⟩
  | scanlineEnd heng hend =>
    cases hend with
    | emitted =>
      obtain ⟨hop, hgeo, hmode, -⟩ := hinv.2.2.posOk heng
      exact hinv.scanlineDone heng (.inl hop) hgeo hmode
    | written =>
      obtain ⟨hop, hgeo, hmode, -⟩ := hinv.2.2.posOk heng
      exact hinv.scanlineDone heng (.inr hop) hgeo hmode
  | flatEnd => exact hinv.flatEnd _

/-! ## The host's actions -/

/-- The host's script, its ports and the data read are not in the invariant. -/
theorem Inv.congr {s t : State} (hinv : Inv s) (hregs : t.regs = s.regs) (hstatus : t.status = s.status)
    (hsb : t.sb = s.sb) (heng : t.engine = s.engine) : Inv t := by
  obtain ⟨hwf, hst, hok⟩ := hinv
  refine ⟨hsb ▸ hwf, ?_, ?_⟩
  · rwa [StatusOk, hstatus, hregs]
  · cases hs : s.engine with
    | idle => simp only [EngineOk, heng, hs]
    | running op k =>
      have hpos := hok.posOk hs
      simp only [EngineOk, heng, hs, hregs, hstatus] at hok ⊢
      obtain ⟨hcmd, hdone, herr, -⟩ := hok
      exact ⟨hcmd, hdone, herr, hpos.congr hregs (congrArg Status.mode hstatus) hsb⟩

theorem Inv.withHost {s : State} (hinv : Inv s) (host : List HostAct) : Inv { s with host := host } :=
  hinv.congr rfl rfl rfl rfl

theorem Regs.write_cmd (r : Regs) (off : BitVec 8) (x : Word) : (r.write off x).cmd = r.cmd := by
  unfold Regs.write
  split <;> rfl

theorem CommandMove.inv {s t : State} {x : Word} (hinv : Inv s) (hidle : s.engine = .idle)
    (h : CommandMove s x t) : Inv t := by
  obtain ⟨hwf, -, -⟩ := hinv
  cases h with
  | clear => exact inv_of_idle hwf ⟨fun h => absurd rfl h, ⟨fun h => absurd rfl h, nofun⟩, rfl⟩ hidle
  | converted => exact inv_of_idle hwf ⟨fun h => absurd rfl h, ⟨fun h => absurd rfl h, nofun⟩, rfl⟩ rfl
  | entered hx hscan himg =>
    exact inv_of_running hwf ⟨fun h => absurd rfl h, ⟨fun h => absurd rfl h, nofun⟩, rfl⟩ rfl hx rfl rfl
      ⟨hscan, himg⟩
  | refused herr =>
    refine inv_of_idle hwf ⟨fun _ => rfl, ⟨fun h => absurd rfl h, fun hformat => ?_⟩, rfl⟩ rfl
    rcases herr with rfl | rfl <;> nomatch hformat

theorem AccessMove.inv {s t : State} {a : BusAccess} (h : AccessMove s a t) (hinv : Inv s) : Inv t := by
  cases h with
  | read => exact hinv.congr rfl rfl rfl rfl
  | ignored => exact hinv
  | stored _ _ hidle =>
    obtain ⟨hwf, ⟨herr, hcause, hop⟩, -⟩ := hinv
    exact inv_of_idle hwf ⟨herr, hcause, hop.trans (congrArg cmdOp (Regs.write_cmd _ _ _).symm)⟩
      (s.busy_eq_false.1 hidle)
  | command _ hidle hcmd => exact hcmd.inv hinv (s.busy_eq_false.1 hidle)

/-- Settles O50: each move keeps the invariant. -/
theorem everyStepKeepsInvariant : Obligations.EveryStepKeepsInvariant := by
  intro s t hinv hstep
  cases move_of_step hstep with
  | access _ hacc => exact hacc.inv (hinv.withHost _)
  | reset => exact invariantHoldsAtReset.congr rfl rfl rfl rfl
  | outside => exact hinv.congr rfl rfl rfl rfl
  | engine hmove => exact hmove.inv (hinv.withHost _)

end Sys2Proof.Machine
end

section
/-!
PROOFS. From a state of the invariant every step answers, and it depends on no byte of `SB` that the running
command has not written itself (R46, R48).
-/

namespace Sys2Proof.Machine

/-! ## A state in which an action does not depend on unwritten bytes -/

/-- The action answers in `s`, and with any other content of `SB` where the running command has not written it
does the same, up to such content again (R46). `Safe s` says this of `step`. -/
def Indifferent (f : State → Result) (s : State) : Prop :=
  ∃ t, f s = .next t ∧
    ∀ m n, s.agrees m → ∃ m' n', f (s.withSB m n) = .next (t.withSB m' n') ∧ t.agrees m'

theorem safe_iff_indifferent (s : State) : Safe s ↔ Indifferent step s := Iff.rfl

theorem agrees_iff {s : State} {op : Op} {k : Pos} (heng : s.engine = .running op k) (m : Memory) :
    s.agrees m ↔ ∀ a, k.wrote s.w a → Memory.read m a = Memory.read s.sb a := by
  simp only [State.agrees, State.wrote, heng]

/-- An idle block has written nothing of its own. -/
theorem agrees_of_idle {s : State} (hidle : s.engine = .idle) (m : Memory) : s.agrees m := by
  intro a ha
  simp only [State.wrote, hidle] at ha

theorem agrees_of_not_wrote {s : State} {op : Op} {k : Pos} (heng : s.engine = .running op k)
    (hk : ∀ a, ¬ k.wrote s.w a) (m : Memory) : s.agrees m :=
  (agrees_iff heng m).2 fun a ha => absurd ha (hk a)

/-! ## Host accesses -/

/-- Every command answers, whatever `SB` holds. -/
theorem exec_command_withSB {i : Instr} {x : Word} (hcmd : encode i = .cmd32 x) {s : State}
    (hidle : s.busy = false) : ∃ t, exec i s = .next t ∧ ∀ m n, exec i (s.withSB m n) = .next (t.withSB m n) := by
  have hidle' : ∀ m n, (s.withSB m n).busy = false := fun _ _ => hidle
  have hneg : ¬ s.busy = true := by rw [hidle]; exact Bool.false_ne_true
  cases i with
  | clear => exact ⟨_, exec_clear_of_idle hidle, fun m n => exec_clear_of_idle (hidle' m n)⟩
  | cvtDec => exact ⟨_, if_neg hneg, fun m n => if_neg hneg⟩
  | cvtEnc => exact ⟨_, if_neg hneg, fun m n => if_neg hneg⟩
  | flatRd => exact ⟨_, exec_flatRd_of_idle hidle, fun m n => exec_flatRd_of_idle (hidle' m n)⟩
  | flatWr => exact ⟨_, exec_flatWr_of_idle hidle, fun m n => exec_flatWr_of_idle (hidle' m n)⟩
  | scanDec =>
    by_cases hok : checkScan s
    · exact ⟨_, exec_scanDec_of_checkScan hidle hok, fun m n => exec_scanDec_of_checkScan (hidle' m n) hok⟩
    · exact ⟨_, exec_scanDec_of_not_checkScan hidle hok, fun m n => exec_scanDec_of_not_checkScan (hidle' m n) hok⟩
  | scanEnc =>
    by_cases hok : checkScan s
    · exact ⟨_, exec_scanEnc_of_checkScan hidle hok, fun m n => exec_scanEnc_of_checkScan (hidle' m n) hok⟩
    · exact ⟨_, exec_scanEnc_of_not_checkScan hidle hok, fun m n => exec_scanEnc_of_not_checkScan (hidle' m n) hok⟩
  | imgDec =>
    by_cases hok : checkImage s
    · exact ⟨_, exec_imgDec_of_checkImage hidle hok, fun m n => exec_imgDec_of_checkImage (hidle' m n) hok⟩
    · exact ⟨_, exec_imgDec_of_not_checkImage hidle hok, fun m n => exec_imgDec_of_not_checkImage (hidle' m n) hok⟩
  | imgEnc =>
    by_cases hok : checkImage s
    · exact ⟨_, exec_imgEnc_of_checkImage hidle hok, fun m n => exec_imgEnc_of_checkImage (hidle' m n) hok⟩
    · exact ⟨_, exec_imgEnc_of_not_checkImage hidle hok, fun m n => exec_imgEnc_of_not_checkImage (hidle' m n) hok⟩
  | illegal y => exact ⟨_, exec_illegal_of_idle hidle y, fun m n => exec_illegal_of_idle (hidle' m n) y⟩
  | marker | nonmarker | run | lit | lit128 | zero | quad | regRd | regWr => nomatch hcmd

/-- A command that has just been written has written no byte of `SB`. -/
theorem CommandMove.agrees {s t : State} {x : Word} (h : CommandMove s x t) (hidle : s.engine = .idle)
    (m : Memory) : t.agrees m := by
  cases h with
  | clear => exact agrees_of_idle hidle m
  | converted | refused => exact agrees_of_idle rfl m
  | entered => exact agrees_of_not_wrote rfl (fun _ => id) m

theorem indifferent_access (a : BusAccess) (s : State) : Indifferent (exec (busInstr a)) s := by
  cases a with
  | read size off => exact ⟨_, rfl, fun m n hm => ⟨m, n, rfl, hm⟩⟩
  | write size off x =>
    cases hbusy : s.busy with
    | true =>
      exact ⟨s, exec_busInstr_write_of_busy hbusy size off x, fun m n hm =>
        ⟨m, n, exec_busInstr_write_of_busy (s := s.withSB m n) hbusy size off x, hm⟩⟩
    | false =>
      have hidle := s.busy_eq_false.1 hbusy
      by_cases hword : size = .word ∧ off = 0x00#8
      · have hinstr : busInstr (.write size off x) = decodeCommand x := if_pos hword
        have hcmd := (encode_decodeCommand x).2
        obtain ⟨t, ht, hsame⟩ := exec_command_withSB hcmd hbusy
        rw [hinstr]
        exact ⟨t, ht, fun m n _ => ⟨m, n, hsame m n, (commandMove_of_exec hcmd hbusy ht).agrees hidle m⟩⟩
      · have hinstr : busInstr (.write size off x) = .regWr size off x := if_neg hword
        rw [hinstr]
        by_cases hsize : size = .word
        · subst hsize
          have hoff : off ≠ 0x00#8 := fun hoff => hword ⟨rfl, hoff⟩
          exact ⟨_, exec_regWr_word hbusy hoff x, fun m n _ =>
            ⟨m, n, exec_regWr_word (s := s.withSB m n) hbusy hoff x,
              agrees_of_idle (s := { s with regs := s.regs.write off x }) hidle m⟩⟩
        · exact ⟨s, exec_regWr_narrow hsize off x s, fun m n hm =>
            ⟨m, n, exec_regWr_narrow hsize off x (s.withSB m n), hm⟩⟩

/-! ## The engine has a move -/

theorem exists_move_of_pulls {s : State} {op : Op} {k : Pos} (heng : s.engine = .running op k)
    (hk : k.Pulls s.w) : ∃ t, EngineMove s t := by
  cases hbin : s.ports.bin with
  | nil =>
    cases heos : s.ports.binEos with
    | true => exact ⟨_, .pullFails heng hk (.inr ⟨hbin, heos, rfl⟩)⟩
    | false => exact ⟨_, .waits heng (.inl ⟨hk, hbin, heos⟩)⟩
  | cons a rest =>
    cases a with
    | byte b => exact ⟨_, .pull heng hk hbin⟩
    | fail => exact ⟨_, .pullFails heng hk (.inl hbin)⟩

theorem exists_move_of_pushes {s : State} {op : Op} {k k' : Pos} {b : Byte} (heng : s.engine = .running op k)
    (hk : k.Pushes b k') : ∃ t, EngineMove s t := by
  cases hready : s.ports.boutReady with
  | true =>
    by_cases hreject : s.ports.boutReject = some 0
    · exact ⟨_, .pushFails heng hk hready hreject⟩
    · exact ⟨_, .push heng hk hready hreject⟩
  | false => exact ⟨_, .waits heng (.inr (.inl ⟨⟨b, k', hk⟩, hready⟩))⟩

/-- R50: a run that fits lies inside its plane, so inside `SB`. -/
theorem exists_move_of_writes {s : State} {op : Op} {k k' : Pos} {bs : List Byte} {p : Plane} {i : Nat}
    (heng : s.engine = .running op k) (hw : s.w ≤ 32767) (hwrite : k.Writes s.w (planeAddr s.w p i) bs k')
    (hfit : i + bs.length ≤ s.w) : ∃ t, EngineMove s t :=
  ⟨_, .write heng hwrite (planeAddr_add_le_sbCapacity hw hfit p)⟩

theorem exists_move_marker {s : State} {op : Op} {buf : List Byte} (heng : s.engine = .running op (.marker buf)) :
    ∃ t, EngineMove s t := by
  match buf with
  | [] | [_] | [_, _] | [_, _, _] => exact exists_move_of_pulls heng (by simp [Pos.Pulls])
  | b0 :: b1 :: b2 :: b3 :: bs =>
    cases hmarker : isMarker b0 b1 b2 with
    | true =>
      by_cases hwidth : markerWidth (low7 b2) b3 = s.w
      · exact ⟨_, .jump heng (.opened hmarker hwidth)⟩
      · exact ⟨_, .malformed heng (.wrongWidth hmarker hwidth)⟩
    | false => exact ⟨_, .fallback heng hmarker⟩

theorem exists_move_unit {s : State} {op : Op} {p : Plane} {pos : Nat} {c v : Byte} {bs : List Byte}
    (heng : s.engine = .running op (.token p pos (c :: v :: bs))) (hw : s.w ≤ 32767) (hpos : pos ≤ s.w) :
    ∃ t, EngineMove s t := by
  rcases Nat.lt_or_ge 128 c.toNat with hrun | h128
  · by_cases hover : c.toNat - 128 > s.w - pos
    · exact ⟨_, .malformed heng (.runOverflow hrun hover)⟩
    · refine exists_move_of_writes heng hw (.run hrun (Nat.not_lt.1 hover)) ?_
      rw [List.length_replicate]
      omega
  · rcases Nat.eq_zero_or_pos c.toNat with h0 | h1
    · exact ⟨_, .malformed heng (.zeroCount h0)⟩
    · by_cases hover : c.toNat > s.w - pos
      · exact ⟨_, .malformed heng (.literalOverflow h1 h128 hover)⟩
      · refine exists_move_of_writes heng hw (.literal h1 h128 (Nat.not_lt.1 hover)) ?_
        rw [List.length_singleton]
        omega

theorem exists_move_token {s : State} {op : Op} {p : Plane} {pos : Nat} {buf : List Byte}
    (heng : s.engine = .running op (.token p pos buf)) (hw : s.w ≤ 32767) (hpos : pos ≤ s.w) :
    ∃ t, EngineMove s t := by
  match buf with
  | c :: v :: bs => exact exists_move_unit heng hw hpos
  | [c] => exact exists_move_of_pulls heng ⟨Nat.one_lt_two, .inr nofun⟩
  | [] =>
    by_cases hlt : pos < s.w
    · exact exists_move_of_pulls heng ⟨Nat.two_pos, .inl hlt⟩
    · cases hp : p.next with
      | some q => exact ⟨_, .jump heng (.nextPlane hlt hp)⟩
      | none => exact ⟨_, .jump heng (.filled hlt hp)⟩

theorem exists_move_quad {s : State} {op : Op} {left : Nat} {buf : List Byte}
    (heng : s.engine = .running op (.quad left buf)) : ∃ t, EngineMove s t := by
  match buf with
  | [] | [_] | [_, _] | [_, _, _] => exact exists_move_of_pulls heng (by simp [Pos.Pulls])
  | r :: g :: b :: e :: bs =>
    cases hready : s.ports.poutReady with
    | true => exact ⟨_, .putQuad heng hready⟩
    | false => exact ⟨_, .waits heng (.inr (.inr (.inr ⟨Nat.le_add_left 4 _, hready⟩)))⟩

/-- At every place the invariant allows, the engine has a move: no access leaves `SB`. -/
theorem exists_move_of_posOk {s : State} {op : Op} {k : Pos} (heng : s.engine = .running op k)
    (hpos : PosOk s op k) : ∃ t, EngineMove s t := by
  cases k with
  | entry => exact ⟨_, .entry heng⟩
  | marker buf => exact exists_move_marker heng
  | token p pos buf =>
    obtain ⟨-, ⟨⟨-, hw⟩, -⟩, -, hle, -⟩ := hpos
    exact exists_move_token heng hw hle
  | litRest p pos c buf =>
    obtain ⟨-, ⟨⟨-, hw⟩, -⟩, -, h1, -, hfit, hlen, -⟩ := hpos
    by_cases hmore : buf.length + 1 < c
    · exact exists_move_of_pulls heng hmore
    · exact exists_move_of_writes heng hw (.rest hmore) (by omega)
  | emit i =>
    obtain ⟨-, ⟨⟨-, hw⟩, -⟩, -⟩ := hpos
    by_cases hi : i < s.w
    · have hin := pixelInside_of_lt hw hi
      cases hready : s.ports.poutReady with
      | true => exact ⟨_, .emit heng hi hin hready⟩
      | false => exact ⟨_, .waits heng (.inr (.inr (.inr ⟨⟨hi, hin⟩, hready⟩)))⟩
    · exact ⟨_, .scanlineEnd heng (.emitted hi)⟩
  | quad left buf => exact exists_move_quad heng
  | pixel left =>
    cases hpin : s.ports.pin with
    | nil => exact ⟨_, .waits heng (.inr (.inr (.inl ⟨trivial, hpin⟩)))⟩
    | cons p rest => exact ⟨_, .takePixel heng hpin⟩
  | quadOut left rest =>
    cases rest with
    | nil => exact ⟨_, .jump heng .quadWritten⟩
    | cons b rest => exact exists_move_of_pushes heng .quad
  | flatDone => exact ⟨_, .flatEnd heng⟩
  | markerOut rest =>
    cases rest with
    | nil => exact ⟨_, .jump heng .markerWritten⟩
    | cons b rest => exact exists_move_of_pushes heng .marker
  | pixIn i =>
    obtain ⟨-, ⟨⟨-, hw⟩, -⟩, -⟩ := hpos
    by_cases hi : i < s.w
    · cases hpin : s.ports.pin with
      | nil => exact ⟨_, .waits heng (.inr (.inr (.inl ⟨hi, hpin⟩)))⟩
      | cons p rest => exact ⟨_, .takeScanPixel heng hi (pixelInside_of_lt hw hi) hpin⟩
    · exact ⟨_, .jump heng (.pixelsTaken hi)⟩
  | planeStart p =>
    obtain ⟨-, ⟨⟨-, hw⟩, -⟩, -⟩ := hpos
    exact ⟨_, .readPlane heng (planeAddr_add_le_sbCapacity hw (Nat.zero_add _).le p)⟩
  | planeScan p data cur =>
    by_cases hcur : cur < data.length
    · exact ⟨_, .jump heng (.pass hcur)⟩
    · cases hp : p.next with
      | some q => exact ⟨_, .jump heng (.planeWritten hcur hp)⟩
      | none =>
        cases p <;> cases hp
        exact ⟨_, .scanlineEnd heng (.written hcur)⟩
  | planeEmit p data toks cur =>
    cases toks with
    | nil => exact ⟨_, .jump heng .passWritten⟩
    | cons tok toks =>
      cases htok : tok.bytes with
      | nil => exact ⟨_, .jump heng (.tokenWritten htok)⟩
      | cons b rest => exact exists_move_of_pushes heng (.token htok)

theorem exists_engineMove {s : State} (hok : EngineOk s) : ∃ t, EngineMove s t := by
  cases heng : s.engine with
  | idle => exact ⟨s, .idle heng⟩
  | running op k => exact exists_move_of_posOk heng (hok.posOk heng)

/-! ## What the next place has written -/

theorem Pos.wrote_feed (w : Nat) (k : Pos) (b : Byte) : (k.feed b).wrote w = k.wrote w := by
  cases k <;> rfl

theorem Pos.Pushes.wrote_eq {k k' : Pos} {b : Byte} (h : k.Pushes b k') (w : Nat) : k'.wrote w = k.wrote w := by
  cases h <;> rfl

@[simp] theorem Pos.wrote_flatReadFrom (w n a : Nat) : ¬ (flatReadFrom n).wrote w a := by
  cases n <;> exact id

@[simp] theorem Pos.wrote_flatWriteFrom (w n a : Nat) : ¬ (flatWriteFrom n).wrote w a := by
  cases n <;> exact id

@[simp] theorem Pos.wrote_scanlineFrom (op : Op) (w w' a : Nat) : ¬ (scanlineFrom op w').wrote w a := by
  cases op <;> exact id

/-- A move from place to place counts no byte as written that was not before. -/
theorem Pos.Jumps.wrote_of {s : State} {op : Op} {k k' : Pos} (hjump : k.Jumps s.w k') (hpos : PosOk s op k)
    {a : Nat} (ha : k'.wrote s.w a) : k.wrote s.w a := by
  cases hjump with
  | opened =>
    have hlt : a < planeAddr s.w .r 0 := ha
    rw [planeAddr_r_zero] at hlt
    exact absurd hlt (Nat.not_lt_zero a)
  | @nextPlane p q pos hge hnext =>
    obtain ⟨-, -, -, hle, -⟩ := hpos
    obtain rfl : pos = s.w := by omega
    have hlt : a < planeAddr s.w q 0 := ha
    rwa [planeAddr_next hnext] at hlt
  | @filled p pos hge hnext =>
    obtain ⟨-, -, -, hle, -⟩ := hpos
    obtain rfl : pos = s.w := by omega
    have hlt : a < 4 * s.w := ha
    rwa [← planeAddr_last hnext] at hlt
  | quadWritten => exact absurd ha (Pos.wrote_flatWriteFrom _ _ _)
  | markerWritten =>
    obtain ⟨p, hlow, hhigh⟩ := ha
    exact absurd hhigh (Nat.not_lt.2 hlow)
  | @pixelsTaken i hge =>
    obtain ⟨-, -, -, hle, -⟩ := hpos
    obtain rfl : i = s.w := by omega
    obtain ⟨p, j, hj, rfl⟩ := exists_planeAddr ha
    exact ⟨p, Nat.add_le_add_left (Nat.zero_le j) _, Nat.add_lt_add_left hj _⟩
  | pass | planeWritten | passWritten | tokenWritten => exact ha

/-- A move that writes to `SB` counts only what it writes besides. -/
theorem Pos.Writes.wrote_of {w : Nat} {k k' : Pos} {a x : Nat} {bs : List Byte} (hwrite : k.Writes w a bs k')
    (hlen : ∀ p pos c buf, k = .litRest p pos c buf → buf.length ≤ c - 1 ∧ 1 ≤ c) (hx : k'.wrote w x) :
    k.wrote w x ∨ (a ≤ x ∧ x < a + bs.length) := by
  cases hwrite with
  | @run p pos c v bs hc hfit =>
    generalize c.toNat - 128 = n at hx ⊢
    have hlt : x < planeAddr w p (pos + n) := hx
    rw [planeAddr_add] at hlt
    rw [List.length_replicate]
    exact (Nat.lt_or_ge x (planeAddr w p pos)).imp id fun hge => ⟨hge, hlt⟩
  | @literal p pos c v bs =>
    have hlt : x < planeAddr w p (pos + 1) := hx
    exact (Nat.lt_or_ge x (planeAddr w p pos)).imp id fun hge => ⟨hge, hlt⟩
  | @rest p pos c _ hfull =>
    obtain ⟨hle, h1⟩ := hlen _ _ _ _ rfl
    have hlt : x < planeAddr w p (pos + c) := hx
    rw [show pos + c = pos + 1 + bs.length by omega, planeAddr_add] at hlt
    exact (Nat.lt_or_ge x (planeAddr w p (pos + 1))).imp id fun hge => ⟨hge, hlt⟩

/-! ## The moves with another content of `SB` -/

theorem nextScanline_withSB (op : Op) (s : State) (m : Memory) (n : Nat) :
    nextScanline op (s.withSB m n) = (nextScanline op s).withSB m n := by
  by_cases hy : s.y < s.h
  · have hgo : nextScanline op s = s.at op (scanlineFrom op s.w) := if_pos hy
    rw [hgo]
    exact if_pos hy
  · have hend : nextScanline op s = s.finish := if_neg hy
    rw [hend]
    exact if_neg hy

theorem scanlineDone_withSB (op : Op) (s : State) (m : Memory) (n : Nat) :
    scanlineDone op (s.withSB m n) = (scanlineDone op s).withSB m n := by
  cases op with
  | imgDec => exact nextScanline_withSB .imgDec (s.setYpos (s.regs.ypos + 1#32)) m n
  | imgEnc => exact nextScanline_withSB .imgEnc (s.setYpos (s.regs.ypos + 1#32)) m n
  | flatRd | flatWr | scanDec | scanEnc => rfl

theorem flatEnd_withSB (op : Op) (s : State) (m : Memory) (n : Nat) :
    flatEnd op (s.withSB m n) = (flatEnd op s).withSB m n := by
  cases op <;> rfl

theorem beginCommand_withSB (op : Op) (s : State) (m : Memory) (n : Nat) :
    beginCommand op (s.withSB m n) = (beginCommand op s).withSB m n := by
  cases op with
  | flatRd | flatWr | scanDec | scanEnc => rfl
  | imgDec =>
    by_cases hw : rleOk s.w
    · rw [beginCommand_imgDec_of_rleOk hw, ← nextScanline_withSB]
      exact beginCommand_imgDec_of_rleOk (s := s.withSB m n) hw
    · rw [beginCommand_imgDec_of_not_rleOk hw]
      exact beginCommand_imgDec_of_not_rleOk (s := s.withSB m n) hw
  | imgEnc =>
    by_cases hw : rleOk s.w
    · rw [beginCommand_imgEnc_of_rleOk hw, ← nextScanline_withSB]
      exact beginCommand_imgEnc_of_rleOk (s := s.withSB m n) hw
    · rw [beginCommand_imgEnc_of_not_rleOk hw]
      exact beginCommand_imgEnc_of_not_rleOk (s := s.withSB m n) hw

theorem nextScanline_agrees (op : Op) (s : State) (m : Memory) : (nextScanline op s).agrees m := by
  unfold nextScanline
  split
  · exact agrees_of_not_wrote rfl (fun a => Pos.wrote_scanlineFrom _ _ _ a) m
  · exact agrees_of_idle rfl m

theorem scanlineDone_agrees (op : Op) (s : State) (m : Memory) : (scanlineDone op s).agrees m := by
  cases op with
  | imgDec | imgEnc => exact nextScanline_agrees _ _ m
  | flatRd | flatWr | scanDec | scanEnc => exact agrees_of_idle rfl m

theorem beginCommand_agrees (op : Op) (s : State) (m : Memory) : (beginCommand op s).agrees m := by
  cases op with
  | flatRd => exact agrees_of_not_wrote rfl (fun a => Pos.wrote_flatReadFrom _ _ a) m
  | flatWr => exact agrees_of_not_wrote rfl (fun a => Pos.wrote_flatWriteFrom _ _ a) m
  | scanDec | scanEnc => exact agrees_of_not_wrote rfl (fun a => Pos.wrote_scanlineFrom _ _ _ a) m
  | imgDec =>
    by_cases hw : rleOk s.w
    · rw [beginCommand_imgDec_of_rleOk hw]
      exact nextScanline_agrees _ _ m
    · rw [beginCommand_imgDec_of_not_rleOk hw]
      exact agrees_of_not_wrote rfl (fun a => Pos.wrote_flatReadFrom _ _ a) m
  | imgEnc =>
    by_cases hw : rleOk s.w
    · rw [beginCommand_imgEnc_of_rleOk hw]
      exact nextScanline_agrees _ _ m
    · rw [beginCommand_imgEnc_of_not_rleOk hw]
      exact agrees_of_not_wrote rfl (fun a => Pos.wrote_flatWriteFrom _ _ a) m

/-- R124: the bytes of a pixel that is written are the same whatever else `SB` holds. -/
theorem quadAt_congr {m m' : Memory} {w i : Nat} (hi : i < w) (hfill : Filled m 0 (4 * w))
    (hsame : ∀ a, a < 4 * w → Memory.read m' a = Memory.read m a) (n n' : Nat) :
    m'.quadAt n' w i = m.quadAt n w i := by
  have hbyte : ∀ p : Plane, m'.byteAt n' (planeAddr w p i) = m.byteAt n (planeAddr w p i) := fun p => by
    obtain ⟨b, hb⟩ := Option.isSome_iff_exists.1 (hfill _ (Nat.zero_le _) (planeAddr_lt p hi))
    rw [Memory.byteAt_of_read hb, Memory.byteAt_of_read ((hsame _ (planeAddr_lt p hi)).trans hb)]
  simp only [Memory.quadAt, hbyte]

/-- With another content of `SB` that agrees on what the command has written, the engine makes the same move. -/
theorem EngineMove.withSB {s t : State} (hmove : EngineMove s t) (hok : EngineOk s) {m : Memory}
    (hm : s.agrees m) (n : Nat) : ∃ m' n', EngineMove (s.withSB m n) (t.withSB m' n') ∧ t.agrees m' := by
  cases hmove with
  | idle heng => exact ⟨m, n, .idle heng, hm⟩
  | waits heng hwaits => exact ⟨m, n, .waits heng hwaits, hm⟩
  | @entry op heng =>
    refine ⟨m, n, ?_, beginCommand_agrees _ _ m⟩
    rw [← beginCommand_withSB]
    exact .entry heng
  | pull heng hk hbin =>
    rw [agrees_iff heng] at hm
    refine ⟨m, n, .pull heng hk hbin, (agrees_iff rfl m).2 fun a ha => hm a ?_⟩
    rwa [Pos.wrote_feed] at ha
  | pullFails heng hk hbin => exact ⟨m, n, .pullFails heng hk hbin, agrees_of_idle rfl m⟩
  | push heng hk hready hreject =>
    rw [agrees_iff heng] at hm
    refine ⟨m, n, .push heng hk hready hreject, (agrees_iff rfl m).2 fun a ha => hm a ?_⟩
    rwa [hk.wrote_eq] at ha
  | pushFails heng hk hready hreject => exact ⟨m, n, .pushFails heng hk hready hreject, agrees_of_idle rfl m⟩
  | takePixel heng hpin => exact ⟨m, n, .takePixel heng hpin, agrees_of_not_wrote rfl (fun _ => id) m⟩
  | @takeScanPixel op i p rest heng hi hin hpin =>
    rw [agrees_iff heng] at hm
    refine ⟨m.writeQuad s.w i (encodePixel p), n, .takeScanPixel heng hi hin hpin,
      (agrees_iff rfl _).2 fun a ha => ?_⟩
    change Memory.read (m.writeQuad s.w i (encodePixel p)) a = Memory.read (s.sb.writeQuad s.w i (encodePixel p)) a
    by_cases haddr : ∃ p', a = planeAddr s.w p' i
    · obtain ⟨p', rfl⟩ := haddr
      rw [Memory.read_writeQuad hi, Memory.read_writeQuad hi]
    · have hne := not_exists.1 haddr
      obtain ⟨p', hlow, hhigh⟩ := ha
      rw [Memory.read_writeQuad_of_ne hne, Memory.read_writeQuad_of_ne hne]
      have := hne p'
      have hhigh' : a < planeAddr s.w p' i + 1 := hhigh
      exact hm a ⟨p', hlow, by omega⟩
  | putQuad heng hready =>
    exact ⟨m, n, .putQuad heng hready, agrees_of_not_wrote rfl (fun a => Pos.wrote_flatReadFrom _ _ a) m⟩
  | @emit op i heng hi hin hready =>
    rw [agrees_iff heng] at hm
    obtain ⟨-, -, -, -, hfill⟩ := hok.posOk heng
    refine ⟨m, n, ?_, (agrees_iff (State.at_engine _ _ _) m).2 hm⟩
    rw [← quadAt_congr hi hfill hm s.sbEpoch n]
    exact .emit heng hi hin hready
  | jump heng hjump =>
    rw [agrees_iff heng] at hm
    exact ⟨m, n, .jump heng hjump, (agrees_iff rfl m).2 fun a ha => hm a (hjump.wrote_of (hok.posOk heng) ha)⟩
  | malformed heng hbad => exact ⟨m, n, .malformed heng hbad, agrees_of_idle rfl m⟩
  | fallback heng hmarker => exact ⟨m, n, .fallback heng hmarker, agrees_of_not_wrote rfl (fun _ => id) m⟩
  | @write op k a bs k' heng hwrite hin =>
    rw [agrees_iff heng] at hm
    refine ⟨m.writeList a bs, n, .write heng hwrite hin, (agrees_iff rfl _).2 fun x hx => ?_⟩
    change Memory.read (m.writeList a bs) x = Memory.read (s.sb.writeList a bs) x
    rw [Memory.read_writeList, Memory.read_writeList]
    split
    next => rfl
    next hout =>
      refine hm x ((hwrite.wrote_of (fun p pos c buf hk => ?_) hx).resolve_right hout)
      subst hk
      obtain ⟨-, -, -, h1, -, -, hlen, -⟩ := hok.posOk heng
      exact ⟨hlen, h1⟩
  | @readPlane op p heng hin =>
    rw [agrees_iff heng] at hm
    obtain ⟨-, -, -, hfill⟩ := hok.posOk heng
    have hend : planeAddr s.w p 0 + s.w ≤ 4 * s.w := by
      cases p <;> simp [planeAddr, Plane.index] <;> omega
    refine ⟨m, n, ?_, (agrees_iff (State.at_engine _ _ _) m).2 hm⟩
    rw [← Memory.bytesAt_congr (m' := m) (epoch' := n) fun i hlow hhigh =>
      ⟨hfill i (Nat.zero_le _) (by omega), hm i (Nat.lt_of_lt_of_le hhigh hend)⟩]
    exact .readPlane heng hin
  | scanlineEnd heng hend =>
    refine ⟨m, n, ?_, scanlineDone_agrees _ _ m⟩
    rw [← scanlineDone_withSB]
    exact .scanlineEnd heng hend
  | @flatEnd op heng =>
    refine ⟨m, n, ?_, ?_⟩
    · rw [← flatEnd_withSB]
      exact .flatEnd heng
    · rcases flatEnd_cases op s with hend | hend <;> rw [hend] <;> exact agrees_of_idle rfl m

theorem indifferent_engineNext {s : State} (hok : EngineOk s) : Indifferent engineNext s := by
  obtain ⟨t, hmove⟩ := exists_engineMove hok
  refine ⟨t, hmove.engineNext_eq, fun m n hm => ?_⟩
  obtain ⟨m', n', hmove', hm'⟩ := hmove.withSB hok hm n
  exact ⟨m', n', hmove'.engineNext_eq, hm'⟩

/-! ## One step -/

/-- Settles O51: a host access touches `SB` nowhere, `rst` leaves nothing written, and the engine's moves are
`indifferent_engineNext`. -/
theorem invariantStatesAreSafe : Obligations.InvariantStatesAreSafe := by
  intro s hinv
  rw [safe_iff_indifferent]
  have hengine : ∀ host, Indifferent engineNext { s with host := host } := fun host =>
    indifferent_engineNext (hinv.withHost host).2.2
  cases hhost : s.host with
  | nil =>
    obtain ⟨t, ht, hsame⟩ := hengine s.host
    refine ⟨t, (step_of_host_nil hhost).trans ht, fun m n hm => ?_⟩
    rw [step_of_host_nil (s := s.withSB m n) hhost]
    exact hsame m n hm
  | cons act rest =>
    cases act with
    | bus a =>
      obtain ⟨t, ht, hsame⟩ := indifferent_access a { s with host := rest }
      refine ⟨t, (step_of_bus hhost).trans ht, fun m n hm => ?_⟩
      rw [step_of_bus (s := s.withSB m n) hhost]
      exact hsame m n hm
    | rst =>
      refine ⟨_, step_rst hhost, fun m n _ => ⟨[], n + 1, ?_, agrees_of_idle rfl _⟩⟩
      exact step_rst (s := s.withSB m n) hhost
    | pause =>
      obtain ⟨t, ht, hsame⟩ := hengine rest
      refine ⟨t, (step_of_pause hhost).trans ht, fun m n hm => ?_⟩
      rw [step_of_pause (s := s.withSB m n) hhost]
      exact hsame m n hm
    | wait =>
      cases hbusy : s.busy with
      | true =>
        obtain ⟨t, ht, hsame⟩ := hengine s.host
        refine ⟨t, (step_of_wait hhost).trans ((if_pos hbusy).trans ht), fun m n hm => ?_⟩
        rw [step_of_wait (s := s.withSB m n) hhost, if_pos (show (s.withSB m n).busy = true from hbusy)]
        exact hsame m n hm
      | false =>
        have hneg : ¬ s.busy = true := by rw [hbusy]; exact Bool.false_ne_true
        exact ⟨_, (step_of_wait hhost).trans (if_neg hneg), fun m n hm =>
          ⟨m, n, (step_of_wait (s := s.withSB m n) hhost).trans (if_neg hneg), hm⟩⟩
    | feed | eos | pix | reject | boutReady | poutReady =>
      exact ⟨_, step_of_port hhost rfl, fun m n hm => ⟨m, n, step_of_port (s := s.withSB m n) hhost rfl, hm⟩⟩

end Sys2Proof.Machine
end

section
/-!
PROOFS. Runs of the engine: one step after the other, the transfers they add up, and how a command that has
entered `RUNNING` comes to its end (R40, R52 to R55, R157).
-/

namespace Sys2Proof.Machine

/-! ## Runs -/

theorem stepN_succ {s u : State} (hstep : step s = .next u) (k : Nat) : stepN (k + 1) s = stepN k u := by
  simp only [stepN, hstep]

theorem stepN_add {s u : State} {k : Nat} (hrun : stepN k s = .next u) (l : Nat) :
    stepN (k + l) s = stepN l u := by
  induction k generalizing s with
  | zero =>
    obtain rfl := Host.Outcome.next.inj hrun
    rw [Nat.zero_add]
  | succ k ih =>
    rw [Nat.succ_add]
    cases hstep : step s with
    | next v =>
      rw [stepN_succ hstep] at hrun ⊢
      exact ih hrun
    | fault r =>
      simp only [stepN, hstep] at hrun
      nomatch hrun
    | refused r =>
      simp only [stepN, hstep] at hrun
      nomatch hrun

/-- Some number of steps lead from `s` to `t`. -/
def Reaches (s t : State) : Prop := ∃ k, stepN k s = .next t

theorem Reaches.refl (s : State) : Reaches s s := ⟨0, rfl⟩

theorem Reaches.of_eq {s t : State} (h : s = t) : Reaches s t := h ▸ .refl s

theorem Reaches.trans {s u t : State} (h1 : Reaches s u) (h2 : Reaches u t) : Reaches s t := by
  obtain ⟨k, hk⟩ := h1
  obtain ⟨l, hl⟩ := h2
  exact ⟨k + l, (stepN_add hk l).trans hl⟩

theorem Reaches.of_move {s t : State} (hhost : s.host = []) (hmove : EngineMove s t) : Reaches s t :=
  ⟨1, stepN_succ (step_of_engineMove hhost hmove) 0⟩

/-- A command that enters `RUNNING` runs to its end when its first actions lead to an idle engine. -/
theorem RunsTo.of_entered {i : Instr} {s t : State} {x : Word} {op : Op} (hhost : s.host = [])
    (hexec : exec i s = .next (s.entered x op)) (hrun : Reaches (beginCommand op (s.entered x op)) t)
    (hidle : t.engine = .idle) : RunsTo i s t := by
  obtain ⟨k, hk⟩ := (Reaches.of_move (s := s.entered x op) hhost (.entry rfl)).trans hrun
  exact ⟨_, k, hexec, hk, hidle⟩

/-- The end of a command's rule is the end of R157's command, when nothing else is left to change. -/
theorem State.finish_eq_completed {u v : State} {x : Word} {nin nout npix : Nat}
    (hregs : u.regs = { v.regs with cmd := x }) (hmode : u.status.mode = v.status.mode)
    (hop : u.status.op = x.extractLsb' 0 4) (hinfo : u.errinfo = ErrInfo.zero)
    (hin : u.counters.incount = BitVec.ofNat 32 nin) (hout : u.counters.outcount = BitVec.ofNat 32 nout)
    (hpix : u.counters.pixcount = BitVec.ofNat 32 npix)
    (hsb : u.sb = v.sb) (hepoch : u.sbEpoch = v.sbEpoch) (hports : u.ports = v.ports) (hhost : u.host = v.host)
    (hrdata : u.rdata = v.rdata) : u.finish = v.completed x nin nout npix := by
  simp only [State.finish, State.completed, hregs, hmode, hop, hinfo, hsb, hepoch, hports, hhost, hrdata, ← hin,
    ← hout, ← hpix]
  rfl

/-! ## The transfers add up -/

/-- Bytes have been accepted on BOUT (R53). -/
def State.sentBytes (s : State) (bs : List Byte) : State :=
  { s with
    ports := { s.ports with bout := s.ports.bout ++ bs },
    counters := { s.counters with outcount := s.counters.outcount + BitVec.ofNat 32 bs.length } }

theorem State.at_of_engine {s : State} {op : Op} {k : Pos} (heng : s.engine = .running op k) : s.at op k = s := by
  rw [State.at, ← heng]

theorem State.tookBytes_zero {s : State} {rest : List BinAnswer} (hbin : s.ports.bin = rest) :
    s.tookBytes rest 0 = s := by
  simp only [State.tookBytes, ← hbin, BitVec.add_zero]

theorem State.tookPixels_zero {s : State} {rest : List Pixel} (hpin : s.ports.pin = rest) :
    s.tookPixels rest 0 = s := by
  simp only [State.tookPixels, ← hpin, BitVec.add_zero]

theorem State.putPixels_nil (s : State) : s.putPixels [] = s := by
  simp only [State.putPixels, List.append_nil, List.length_nil, BitVec.add_zero]

theorem State.sentBytes_nil (s : State) : s.sentBytes [] = s := by
  simp only [State.sentBytes, List.append_nil, List.length_nil, BitVec.add_zero]

theorem ofNat_add_assoc (x : Word) (m n : Nat) :
    x + BitVec.ofNat 32 m + BitVec.ofNat 32 n = x + BitVec.ofNat 32 (m + n) := by
  rw [BitVec.add_assoc, BitVec.ofNat_add]

theorem State.tookBytes_tookBytes (s : State) (rest rest' : List BinAnswer) (m n : Nat) :
    (s.tookBytes rest m).tookBytes rest' n = s.tookBytes rest' (m + n) := by
  simp only [State.tookBytes, ofNat_add_assoc]

theorem State.tookPixels_tookPixels (s : State) (rest rest' : List Pixel) (m n : Nat) :
    (s.tookPixels rest m).tookPixels rest' n = s.tookPixels rest' (m + n) := by
  simp only [State.tookPixels, ofNat_add_assoc]

theorem State.putPixels_putPixels (s : State) (ps qs : List Pixel) :
    (s.putPixels ps).putPixels qs = s.putPixels (ps ++ qs) := by
  simp only [State.putPixels, ofNat_add_assoc, List.append_assoc, List.length_append]

theorem State.sentBytes_sentBytes (s : State) (bs cs : List Byte) :
    (s.sentBytes bs).sentBytes cs = s.sentBytes (bs ++ cs) := by
  simp only [State.sentBytes, ofNat_add_assoc, List.append_assoc, List.length_append]

/-- Without a `REJECT` a pushed byte is accepted. -/
theorem State.sentByte_eq {s : State} (hreject : s.ports.boutReject = none) (b : Byte) :
    s.sentByte b = s.sentBytes [b] := by
  simp only [State.sentByte, State.sentBytes, hreject, Option.map_none, List.length_singleton]

/-! ## Several pulls -/

/-- How many bytes the engine still pulls at a place (R109, R116, R118, R120). -/
def Pos.room (w : Nat) : Pos → Nat
  | .marker buf => 4 - buf.length
  | .token _ pos buf => if pos < w then 2 - buf.length else 0
  | .litRest _ _ c buf => c - 1 - buf.length
  | .quad _ buf => 4 - buf.length
  | _ => 0

/-- The place with more bytes read. -/
def Pos.feedAll (k : Pos) (bs : List Byte) : Pos := bs.foldl (fun k b => k.feed b) k

theorem Pos.pulls_of_room {w : Nat} {k : Pos} (h : 0 < k.room w) : k.Pulls w := by
  cases k with
  | marker buf | quad left buf => exact Nat.lt_of_sub_pos h
  | litRest p pos c buf =>
    have hlt : buf.length < c - 1 := Nat.lt_of_sub_pos h
    exact Nat.add_lt_of_lt_sub hlt
  | token p pos buf =>
    by_cases hpos : pos < w
    · exact ⟨Nat.lt_of_sub_pos ((if_pos hpos : Pos.room w (.token p pos buf) = _) ▸ h), .inl hpos⟩
    · exact absurd ((if_neg hpos : Pos.room w (.token p pos buf) = 0) ▸ h) (Nat.lt_irrefl 0)
  | entry | emit | pixel | quadOut | flatDone | markerOut | pixIn | planeStart | planeScan | planeEmit =>
    exact absurd h (Nat.lt_irrefl 0)

theorem Pos.room_feed (w : Nat) (k : Pos) (b : Byte) : (k.feed b).room w = k.room w - 1 := by
  cases k with
  | token p pos buf =>
    simp only [Pos.feed, Pos.room, List.length_append, List.length_singleton]
    split
    · rfl
    · rfl
  | marker | litRest | quad =>
    simp only [Pos.feed, Pos.room, List.length_append, List.length_singleton]
    omega
  | entry | emit | pixel | quadOut | flatDone | markerOut | pixIn | planeStart | planeScan | planeEmit => rfl

theorem Pos.feedAll_litRest (p : Plane) (pos c : Nat) (buf bs : List Byte) :
    (Pos.litRest p pos c buf).feedAll bs = .litRest p pos c (buf ++ bs) := by
  induction bs generalizing buf with
  | nil => rw [List.append_nil, Pos.feedAll, List.foldl_nil]
  | cons b bs ih =>
    rw [Pos.feedAll, List.foldl_cons]
    exact (ih (buf ++ [b])).trans (by rw [List.append_assoc, List.singleton_append])

/-- R52: bytes presented on BIN are pulled one a step. -/
theorem stepN_pulls {bs : List Byte} {rest : List BinAnswer} {op : Op} {k : Pos} {s : State} (hhost : s.host = [])
    (hbin : s.ports.bin = asAnswers bs ++ rest) (hroom : bs.length ≤ k.room s.w) :
    stepN bs.length (s.at op k) = .next ((s.tookBytes rest bs.length).at op (k.feedAll bs)) := by
  induction bs generalizing s k with
  | nil =>
    rw [List.length_nil, State.tookBytes_zero (show s.ports.bin = rest from hbin)]
    rfl
  | cons b bs ih =>
    rw [List.length_cons] at hroom
    have hstep : step (s.at op k) = .next ((s.tookBytes (asAnswers bs ++ rest) 1).at op (k.feed b)) :=
      step_of_engineMove (s := s.at op k) hhost
        (.pull rfl (Pos.pulls_of_room (Nat.lt_of_lt_of_le (Nat.succ_pos _) hroom)) hbin)
    have hrest := ih (s := s.tookBytes (asAnswers bs ++ rest) 1) (k := k.feed b) hhost rfl (by
      rw [Pos.room_feed]
      exact Nat.le_sub_one_of_lt hroom)
    rw [List.length_cons, stepN_succ hstep, hrest, State.tookBytes_tookBytes, Nat.add_comm 1]
    rfl

theorem reaches_pulls {bs : List Byte} {rest : List BinAnswer} {op : Op} {k : Pos} {s : State} (hhost : s.host = [])
    (hbin : s.ports.bin = asAnswers bs ++ rest) (hroom : bs.length ≤ k.room s.w) :
    Reaches (s.at op k) ((s.tookBytes rest bs.length).at op (k.feedAll bs)) :=
  ⟨_, stepN_pulls hhost hbin hroom⟩

theorem asAnswers_append (bs cs : List Byte) (rest : List BinAnswer) :
    asAnswers (bs ++ cs) ++ rest = asAnswers bs ++ (asAnswers cs ++ rest) := by
  rw [asAnswers, List.map_append, List.append_assoc]
  rfl

end Sys2Proof.Machine
end

section
/-!
PROOFS. The flat codec runs to its end (R109 to R112).
-/

namespace Sys2Proof.Machine

theorem flatBytes_cons (q : Quad) (qs : List Quad) : flatBytes (q :: qs) = q.bytes ++ flatBytes qs := rfl

/-- R109: a quad that has been read is put on POUT. -/
theorem reaches_putQuad {s : State} (hhost : s.host = []) (hready : s.ports.poutReady = true) (op : Op) (left : Nat)
    (q : Quad) :
    Reaches (s.at op (.quad left q.bytes)) ((s.putPixels [decodeQuad q]).at op (flatReadFrom left)) :=
  .of_move (s := s.at op (.quad left q.bytes)) hhost (.putQuad rfl hready)

/-- R109: `FlatRead` over the quads on BIN. -/
theorem reaches_flatRead {qs : List Quad} {rest : List BinAnswer} {s : State} (hhost : s.host = [])
    (hbin : s.ports.bin = asAnswers (flatBytes qs) ++ rest) (hready : s.ports.poutReady = true) (op : Op) :
    Reaches (s.at op (flatReadFrom qs.length))
      (((s.tookBytes rest (4 * qs.length)).putPixels (qs.map decodeQuad)).at op .flatDone) := by
  induction qs generalizing s with
  | nil =>
    rw [List.length_nil, Nat.mul_zero, List.map_nil, State.putPixels_nil,
      State.tookBytes_zero (show s.ports.bin = rest from hbin)]
    exact .refl _
  | cons q qs ih =>
    rw [flatBytes_cons, asAnswers_append] at hbin
    have hread := reaches_pulls (op := op) (k := .quad qs.length []) hhost hbin le_rfl
    have hput := reaches_putQuad (s := s.tookBytes (asAnswers (flatBytes qs) ++ rest) 4) hhost hready op qs.length q
    have hrest := ih (s := (s.tookBytes (asAnswers (flatBytes qs) ++ rest) 4).putPixels [decodeQuad q]) hhost rfl hready
    have hsum : (((s.tookBytes (asAnswers (flatBytes qs) ++ rest) 4).putPixels [decodeQuad q]).tookBytes rest
        (4 * qs.length)).putPixels (qs.map decodeQuad) =
        (s.tookBytes rest (4 * (q :: qs).length)).putPixels ((q :: qs).map decodeQuad) := by
      change (((s.tookBytes (asAnswers (flatBytes qs) ++ rest) 4).tookBytes rest (4 * qs.length)).putPixels
        [decodeQuad q]).putPixels (qs.map decodeQuad) = _
      rw [State.tookBytes_tookBytes, State.putPixels_putPixels, List.length_cons, Nat.mul_succ, Nat.add_comm 4]
      rfl
    rw [hsum] at hrest
    exact hread.trans (hput.trans hrest)

/-- Settles O22: `FlatRead` over `COUNT` quads, then the end of the command. -/
theorem flatReadRunsToItsEnd : Obligations.FlatReadRunsToItsEnd := by
  intro s qs rest hidle hhost hcount hbin hready
  refine .of_entered hhost (exec_flatRd_of_idle hidle) ?_ rfl
  have hread := reaches_flatRead (s := s.entered 3#32 .flatRd) hhost hbin hready .flatRd
  have hbegin : beginCommand .flatRd (s.entered 3#32 .flatRd) =
      (s.entered 3#32 .flatRd).at .flatRd (flatReadFrom s.regs.count.toNat) := rfl
  rw [hbegin, hcount]
  refine hread.trans (.trans (.of_move hhost (.flatEnd rfl)) ?_)
  exact .of_eq (State.finish_eq_completed rfl rfl rfl rfl (BitVec.zero_add _) rfl
    ((BitVec.zero_add _).trans (congrArg _ (List.length_map _))) rfl rfl rfl rfl rfl)

/-! ## Writing quads -/

/-- R53: with a host that answers BOUT and refuses nothing, a byte is pushed in one step. -/
theorem reaches_push {s : State} {k k' : Pos} {b : Byte} (hhost : s.host = []) (hready : s.ports.boutReady = true)
    (hreject : s.ports.boutReject = none) (op : Op) (hk : k.Pushes b k') :
    Reaches (s.at op k) ((s.sentBytes [b]).at op k') := by
  have hnone : (s.at op k).ports.boutReject = none := hreject
  have hpush := Reaches.of_move (s := s.at op k) hhost (.push rfl hk hready (by rw [hnone]; exact nofun))
  rwa [State.sentByte_eq hnone] at hpush

theorem reaches_quadOut {bs : List Byte} {s : State} (hhost : s.host = []) (hready : s.ports.boutReady = true)
    (hreject : s.ports.boutReject = none) (op : Op) (left : Nat) :
    Reaches (s.at op (.quadOut left bs)) ((s.sentBytes bs).at op (flatWriteFrom left)) := by
  induction bs generalizing s with
  | nil =>
    rw [State.sentBytes_nil]
    exact .of_move (s := s.at op (.quadOut left [])) hhost (.jump rfl .quadWritten)
  | cons b bs ih =>
    have hrest := ih (s := s.sentBytes [b]) hhost hready hreject
    rw [State.sentBytes_sentBytes] at hrest
    exact (reaches_push hhost hready hreject op .quad).trans hrest

/-- R111: `FlatWrite` over the pixels on PIN. -/
theorem reaches_flatWrite {ps rest : List Pixel} {s : State} (hhost : s.host = []) (hpin : s.ports.pin = ps ++ rest)
    (hready : s.ports.boutReady = true) (hreject : s.ports.boutReject = none) (op : Op) :
    Reaches (s.at op (flatWriteFrom ps.length))
      (((s.tookPixels rest ps.length).sentBytes (flatBytes (ps.map encodePixel))).at op .flatDone) := by
  induction ps generalizing s with
  | nil =>
    rw [List.length_nil, State.tookPixels_zero (show s.ports.pin = rest from hpin)]
    exact .of_eq (congrArg (State.at · op .flatDone) (State.sentBytes_nil s).symm)
  | cons p ps ih =>
    have htake := Reaches.of_move (s := s.at op (.pixel ps.length)) hhost (.takePixel rfl hpin)
    have hwrite := reaches_quadOut (bs := (encodePixel p).bytes) (s := s.tookPixels (ps ++ rest) 1) hhost hready
      hreject op ps.length
    have hrest := ih (s := (s.tookPixels (ps ++ rest) 1).sentBytes (encodePixel p).bytes) hhost rfl hready hreject
    have hsum : (((s.tookPixels (ps ++ rest) 1).sentBytes (encodePixel p).bytes).tookPixels rest ps.length).sentBytes
        (flatBytes (ps.map encodePixel)) =
        (s.tookPixels rest (p :: ps).length).sentBytes (flatBytes ((p :: ps).map encodePixel)) := by
      change (((s.tookPixels (ps ++ rest) 1).tookPixels rest ps.length).sentBytes (encodePixel p).bytes).sentBytes
        (flatBytes (ps.map encodePixel)) = _
      rw [State.tookPixels_tookPixels, State.sentBytes_sentBytes, Nat.add_comm 1, ← flatBytes_cons]
      rfl
    rw [hsum] at hrest
    exact htake.trans (hwrite.trans hrest)

theorem flatBytes_length (qs : List Quad) : (flatBytes qs).length = 4 * qs.length := by
  induction qs with
  | nil => rfl
  | cons q qs ih =>
    rw [flatBytes_cons, List.length_append, ih, List.length_cons, Nat.mul_succ, Nat.add_comm]
    rfl

/-- Settles O23: `FlatWrite` over `COUNT` pixels, then the end of the command. -/
theorem flatWriteRunsToItsEnd : Obligations.FlatWriteRunsToItsEnd := by
  intro s ps rest hidle hhost hcount hpin hready hreject
  refine .of_entered hhost (exec_flatWr_of_idle hidle) ?_ rfl
  have hwrite := reaches_flatWrite (s := s.entered 4#32 .flatWr) hhost hpin hready hreject .flatWr
  have hbegin : beginCommand .flatWr (s.entered 4#32 .flatWr) =
      (s.entered 4#32 .flatWr).at .flatWr (flatWriteFrom s.regs.count.toNat) := rfl
  have hlen : (flatBytes (ps.map encodePixel)).length = 4 * ps.length := by
    rw [flatBytes_length, List.length_map]
  rw [hbegin, hcount]
  refine hwrite.trans (.trans (.of_move hhost (.flatEnd rfl)) ?_)
  exact .of_eq (State.finish_eq_completed rfl rfl rfl rfl rfl
    ((BitVec.zero_add _).trans (congrArg _ hlen)) (BitVec.zero_add _) rfl rfl rfl rfl rfl)

end Sys2Proof.Machine
end

section
/-!
PROOFS. The scanline decoder runs to its end (R115 to R125): tokens fill a plane, planes fill `SB`, the pixels
are emitted; and the fallback to flat data (R121).
-/

namespace Sys2Proof.Machine

/-! ## Tokens -/

theorem Memory.writeList_append (m : Memory) (a : Nat) (xs ys : List Byte) :
    m.writeList a (xs ++ ys) = (m.writeList a xs).writeList (a + xs.length) ys := by
  induction xs generalizing m a with
  | nil => rfl
  | cons x xs ih =>
    rw [List.cons_append, Memory.writeList, Memory.writeList, ih, List.length_cons, Nat.add_assoc, Nat.add_comm 1]

/-- R120: the other data bytes of a literal, one pull each, and the step that writes them. -/
theorem stepN_litRest {data : List Byte} {rest : List BinAnswer} {s : State} {p : Plane} {pos : Nat}
    (hhost : s.host = []) (hw : s.w ≤ 32767) (hfit : pos + data.length + 1 ≤ s.w)
    (hbin : s.ports.bin = asAnswers data ++ rest) (op : Op) :
    stepN (data.length + 1) (s.at op (.litRest p pos (data.length + 1) [])) =
      .next (((s.tookBytes rest data.length).setSB (s.sb.writeList (planeAddr s.w p (pos + 1)) data)).at op
        (.token p (pos + data.length + 1) [])) := by
  have hpulls := stepN_pulls (op := op) (k := .litRest p pos (data.length + 1) []) hhost hbin le_rfl
  rw [Pos.feedAll_litRest, List.nil_append] at hpulls
  rw [stepN_add hpulls]
  refine stepN_succ (step_of_engineMove (s := (s.tookBytes rest data.length).at op
    (.litRest p pos (data.length + 1) data)) hhost (.write rfl (.rest (Nat.lt_irrefl _)) ?_)) 0
  exact planeAddr_add_le_sbCapacity hw (by omega) p

/-- Settles O39: the pulls and the write of `stepN_litRest`. -/
theorem literalDataFillsPlane : Obligations.LiteralDataFillsPlane := by
  intro s op p pos data rest heng hhost hw hfit hbin
  have hrun := stepN_litRest (p := p) (pos := pos) hhost hw hfit hbin op
  rw [State.at_of_engine heng] at hrun
  exact ⟨_, hrun, fun a => Memory.read_writeList _ _ _ a⟩

/-- R119: a run token that fits. -/
theorem reaches_run {s : State} {p : Plane} {pos : Nat} {c v : Byte} {rest : List BinAnswer} (hhost : s.host = [])
    (hw : s.w ≤ 32767) (hpos : pos < s.w) (hc : 128 < c.toNat) (hfit : pos + (c.toNat - 128) ≤ s.w)
    (hbin : s.ports.bin = asAnswers [c, v] ++ rest) (op : Op) :
    Reaches (s.at op (.token p pos []))
      (((s.tookBytes rest 2).setSB
        (s.sb.writeList (planeAddr s.w p pos) (List.replicate (c.toNat - 128) v))).at op
        (.token p (pos + (c.toNat - 128)) [])) := by
  have hread := reaches_pulls (op := op) (k := .token p pos []) hhost hbin (if_pos hpos).ge
  refine hread.trans (.of_move hhost (.write rfl (.run hc (Nat.le_sub_of_add_le' hfit)) ?_))
  rw [List.length_replicate]
  exact planeAddr_add_le_sbCapacity hw hfit p

/-- R120: a literal token that fits, with its data. -/
theorem reaches_literal {s : State} {p : Plane} {pos : Nat} {c : Byte} {xs : List Byte} {rest : List BinAnswer}
    (hhost : s.host = []) (hw : s.w ≤ 32767) (hc : c.toNat = xs.length) (h1 : 1 ≤ xs.length)
    (h128 : xs.length ≤ 128) (hfit : pos + xs.length ≤ s.w) (hbin : s.ports.bin = asAnswers (c :: xs) ++ rest)
    (op : Op) :
    Reaches (s.at op (.token p pos []))
      (((s.tookBytes rest (xs.length + 1)).setSB (s.sb.writeList (planeAddr s.w p pos) xs)).at op
        (.token p (pos + xs.length) [])) := by
  obtain ⟨v, ys, rfl⟩ := List.exists_cons_of_length_pos h1
  rw [List.length_cons] at hc hfit h128
  rw [show c :: v :: ys = [c, v] ++ ys from rfl, asAnswers_append] at hbin
  have hread := reaches_pulls (op := op) (k := .token p pos []) hhost hbin (if_pos (show pos < s.w by omega)).ge
  have hfirst : Reaches ((s.tookBytes (asAnswers ys ++ rest) 2).at op (.token p pos [c, v]))
      (((s.tookBytes (asAnswers ys ++ rest) 2).setSB (s.sb.writeList (planeAddr s.w p pos) [v])).at op
        (.litRest p pos c.toNat [])) :=
    .of_move (s := (s.tookBytes (asAnswers ys ++ rest) 2).at op (.token p pos [c, v])) hhost
      (.write rfl (.literal (by omega) (by omega) (Nat.le_sub_of_add_le' (by rw [hc]; exact hfit)))
        (planeAddr_add_le_sbCapacity hw (show pos + 1 ≤ s.w by omega) p))
  have hrest : Reaches (((s.tookBytes (asAnswers ys ++ rest) 2).setSB
      (s.sb.writeList (planeAddr s.w p pos) [v])).at op (.litRest p pos (ys.length + 1) [])) _ :=
    ⟨_, stepN_litRest (s := (s.tookBytes (asAnswers ys ++ rest) 2).setSB
      (s.sb.writeList (planeAddr s.w p pos) [v])) hhost hw (by exact hfit) rfl op⟩
  rw [← hc] at hrest
  refine hread.trans (hfirst.trans (hrest.trans (.of_eq ?_)))
  change (((s.tookBytes (asAnswers ys ++ rest) 2).tookBytes rest ys.length).setSB
    ((s.sb.writeList (planeAddr s.w p pos) [v]).writeList (planeAddr s.w p (pos + 1)) ys)).at op _ = _
  rw [State.tookBytes_tookBytes, planeAddr_add, ← List.length_singleton (a := v), ← Memory.writeList_append,
    Nat.add_comm 2]
  rfl

/-- What one token and those after it write is what they stand for together. -/
theorem State.tookBytes_setSB_writeList (s : State) (rest rest' : List BinAnswer) (m n a : Nat) (xs ys : List Byte) :
    (((s.tookBytes rest m).setSB (s.sb.writeList a xs)).tookBytes rest' n).setSB
      ((s.sb.writeList a xs).writeList (a + xs.length) ys) =
      (s.tookBytes rest' (m + n)).setSB (s.sb.writeList a (xs ++ ys)) := by
  change ((s.tookBytes rest m).tookBytes rest' n).setSB _ = _
  rw [State.tookBytes_tookBytes, Memory.writeList_append]

theorem reaches_tokens_none {fuel : Nat} {bs data : List Byte} {rest : List BinAnswer} {s : State} {p : Plane}
    {pos : Nat} (hpos : pos + 0 = s.w) (hexp : expandTokens fuel 0 bs = some (data, []))
    (hbin : s.ports.bin = asAnswers bs ++ rest) (op : Op) :
    Reaches (s.at op (.token p pos []))
      (((s.tookBytes rest bs.length).setSB (s.sb.writeList (planeAddr s.w p pos) data)).at op
        (.token p s.w [])) := by
  rw [expandTokens_zero] at hexp
  obtain ⟨rfl, rfl⟩ := Prod.mk.inj (Option.some.inj hexp)
  rw [List.length_nil, State.tookBytes_zero (show s.ports.bin = rest from hbin), ← hpos]
  exact .refl _

/-- R118: tokens that stand for the rest of a plane fill it. -/
theorem reaches_tokens {fuel n : Nat} {bs data : List Byte} {rest : List BinAnswer} {s : State} {p : Plane} {pos : Nat}
    (hhost : s.host = []) (hw : s.w ≤ 32767) (hn : pos + n = s.w) (hexp : expandTokens fuel n bs = some (data, []))
    (hbin : s.ports.bin = asAnswers bs ++ rest) (op : Op) :
    Reaches (s.at op (.token p pos []))
      (((s.tookBytes rest bs.length).setSB (s.sb.writeList (planeAddr s.w p pos) data)).at op
        (.token p s.w [])) := by
  induction fuel generalizing n bs data s pos with
  | zero =>
    rcases Nat.eq_zero_or_pos n with rfl | hpos
    · exact reaches_tokens_none hn hexp hbin op
    · obtain ⟨_, h0, -⟩ := expandTokens_inv hpos hexp
      nomatch h0
  | succ fuel ih =>
    rcases Nat.eq_zero_or_pos n with rfl | hpos
    · exact reaches_tokens_none hn hexp hbin op
    · obtain ⟨_, hfuel, hrun | hlit⟩ := expandTokens_inv hpos hexp
      · obtain ⟨c, v, bs', data', rfl, hc, hfit, hdata, hrest⟩ := hrun
        obtain rfl := Nat.succ.inj hfuel
        rw [show c :: v :: bs' = [c, v] ++ bs' from rfl, asAnswers_append] at hbin
        have hfirst := reaches_run (p := p) (pos := pos) hhost hw (by omega) hc (by omega) hbin op
        generalize c.toNat - 128 = k at hfit hdata hrest hfirst
        have htail := ih (s := (s.tookBytes (asAnswers bs' ++ rest) 2).setSB
          (s.sb.writeList (planeAddr s.w p pos) (List.replicate k v))) (pos := pos + k) hhost hw
          (show pos + k + (n - k) = s.w by omega) hrest rfl
        refine hfirst.trans (htail.trans (.of_eq (congrArg (State.at · op (.token p s.w [])) ?_)))
        have hsum := State.tookBytes_setSB_writeList s (asAnswers bs' ++ rest) rest 2 bs'.length
          (planeAddr s.w p pos) (List.replicate k v) data'
        rw [List.length_replicate, ← planeAddr_add, ← hdata, Nat.add_comm 2] at hsum
        exact hsum
      · obtain ⟨c, xs, bs', data', rfl, hc, h1, h128, hfit, hdata, hrest⟩ := hlit
        obtain rfl := Nat.succ.inj hfuel
        rw [show c :: (xs ++ bs') = (c :: xs) ++ bs' from rfl, asAnswers_append] at hbin
        have hfirst := reaches_literal (p := p) (pos := pos) hhost hw hc h1 h128 (by omega) hbin op
        have htail := ih (s := (s.tookBytes (asAnswers bs' ++ rest) (xs.length + 1)).setSB
          (s.sb.writeList (planeAddr s.w p pos) xs)) (pos := pos + xs.length) hhost hw
          (show pos + xs.length + (n - xs.length) = s.w by omega) hrest rfl
        refine hfirst.trans (htail.trans (.of_eq (congrArg (State.at · op (.token p s.w [])) ?_)))
        have hsum := State.tookBytes_setSB_writeList s (asAnswers bs' ++ rest) rest (xs.length + 1) bs'.length
          (planeAddr s.w p pos) xs data'
        rw [← planeAddr_add, ← hdata] at hsum
        rw [List.length_cons, List.length_append, Nat.add_right_comm]
        exact hsum

/-! ## A plane and the next -/

/-- The content of plane `p` of a scanline is written to `SB`. -/
def Memory.writePlane (m : Memory) (w : Nat) (p : Plane) (qs : List Quad) : Memory :=
  m.writeList (planeAddr w p 0) (qs.map p.byteOf)

section Plane
variable {bs : List Byte} {qs : List Quad} {s : State} {p : Plane} (hhost : s.host = []) (hw : s.w ≤ 32767)
  (hexp : expandPlane s.w bs = some (qs.map p.byteOf, [])) (rest : List BinAnswer) (n : Nat) (m : Memory) (op : Op)
include hhost hw hexp

/-- R118: the tokens of a plane fill it. -/
theorem reaches_plane :
    Reaches (((s.tookBytes (asAnswers bs ++ rest) n).setSB m).at op (.token p 0 []))
      (((s.tookBytes rest (n + bs.length)).setSB (m.writePlane s.w p qs)).at op (.token p s.w [])) := by
  rw [← State.tookBytes_tookBytes s (asAnswers bs ++ rest)]
  exact reaches_tokens (s := (s.tookBytes (asAnswers bs ++ rest) n).setSB m) hhost hw (Nat.zero_add _) hexp rfl op

/-- R118, R123: a plane that is not the last is filled, and the next one is read. -/
theorem reaches_plane_next {q : Plane} (hnext : p.next = some q) :
    Reaches (((s.tookBytes (asAnswers bs ++ rest) n).setSB m).at op (.token p 0 []))
      (((s.tookBytes rest (n + bs.length)).setSB (m.writePlane s.w p qs)).at op (.token q 0 [])) :=
  (reaches_plane hhost hw hexp rest n m op).trans
    (.of_move (s := ((s.tookBytes rest (n + bs.length)).setSB (m.writePlane s.w p qs)).at op (.token p s.w [])) hhost
      (.jump rfl (.nextPlane (Nat.lt_irrefl s.w) hnext)))

/-- R118, R124: the last plane is filled, and the pixels are emitted. -/
theorem reaches_plane_last (hnext : p.next = none) :
    Reaches (((s.tookBytes (asAnswers bs ++ rest) n).setSB m).at op (.token p 0 []))
      (((s.tookBytes rest (n + bs.length)).setSB (m.writePlane s.w p qs)).at op (.emit 0)) :=
  (reaches_plane hhost hw hexp rest n m op).trans
    (.of_move (s := ((s.tookBytes rest (n + bs.length)).setSB (m.writePlane s.w p qs)).at op (.token p s.w [])) hhost
      (.jump rfl (.filled (Nat.lt_irrefl s.w) hnext)))

end Plane

/-- The four planes of a scanline are written to `SB`. -/
def Memory.writePlanes (m : Memory) (w : Nat) (qs : List Quad) : Memory :=
  (((m.writePlane w .r qs).writePlane w .g qs).writePlane w .b qs).writePlane w .e qs

theorem HoldsPlane.writePlane_self {w : Nat} {qs : List Quad} (hlen : qs.length = w) (m : Memory) (p : Plane) :
    HoldsPlane (m.writePlane w p qs) w p (qs.map p.byteOf) := by
  refine ⟨by rw [List.length_map, hlen], fun i hi => ?_⟩
  rw [Memory.writePlane, Memory.read_writeList, List.length_map, hlen, if_pos]
  · simp only [planeAddr, Nat.add_zero, Nat.add_sub_cancel_left]
  · simp only [planeAddr]
    omega

theorem HoldsPlane.writePlane_other {w : Nat} {qs : List Quad} {data : List Byte} {m : Memory} {p q : Plane}
    (hlen : qs.length = w) (hne : p ≠ q) (h : HoldsPlane m w p data) : HoldsPlane (m.writePlane w q qs) w p data := by
  obtain ⟨hdata, hread⟩ := h
  refine ⟨hdata, fun i hi => ?_⟩
  rw [Memory.writePlane, Memory.read_writeList, List.length_map, hlen, if_neg, hread i hi]
  rintro ⟨hlow, hhigh⟩
  have hin : planeAddr w p i = planeAddr w q (planeAddr w p i - planeAddr w q 0) := by
    simp only [planeAddr] at hlow hhigh ⊢
    omega
  exact hne (planeAddr_inj hi (by omega) hin).1

/-- R123: after the four planes are written, `SB` holds each of them. -/
theorem holdsPlane_writePlanes {w : Nat} {qs : List Quad} (hlen : qs.length = w) (m : Memory) (p : Plane) :
    HoldsPlane (m.writePlanes w qs) w p (qs.map p.byteOf) := by
  have hother : ∀ {p q : Plane} {data : List Byte} {m : Memory}, p ≠ q → HoldsPlane m w p data →
      HoldsPlane (m.writePlane w q qs) w p data := fun hne h => h.writePlane_other hlen hne
  cases p with
  | r => exact hother (q := .e) nofun (hother (q := .b) nofun (hother (q := .g) nofun (.writePlane_self hlen m .r)))
  | g => exact hother (q := .e) nofun (hother (q := .b) nofun (.writePlane_self hlen _ .g))
  | b => exact hother (q := .e) nofun (.writePlane_self hlen _ .b)
  | e => exact .writePlane_self hlen _ .e

theorem Memory.read_writePlane_of_le {w a : Nat} {qs : List Quad} (hlen : qs.length = w) (ha : 4 * w ≤ a) (m : Memory)
    (p : Plane) : Memory.read (m.writePlane w p qs) a = Memory.read m a := by
  rw [Memory.writePlane, Memory.read_writeList, List.length_map, hlen, if_neg]
  rintro ⟨-, hhigh⟩
  cases p <;> simp only [planeAddr, Plane.index] at hhigh <;> omega

theorem Memory.read_writePlanes_of_le {w a : Nat} {qs : List Quad} (hlen : qs.length = w) (ha : 4 * w ≤ a)
    (m : Memory) : Memory.read (m.writePlanes w qs) a = Memory.read m a := by
  rw [Memory.writePlanes, Memory.read_writePlane_of_le hlen ha, Memory.read_writePlane_of_le hlen ha,
    Memory.read_writePlane_of_le hlen ha, Memory.read_writePlane_of_le hlen ha]

/-! ## The pixels -/

/-- R124: the four bytes at index `i` of the planes are quad `i`. -/
theorem quadAt_of_holdsPlane {m : Memory} {w i : Nat} {qs : List Quad} {q : Quad} (hi : i < w) (hq : qs[i]? = some q)
    (h : ∀ p : Plane, HoldsPlane m w p (qs.map p.byteOf)) (epoch : Nat) : m.quadAt epoch w i = q := by
  have hbyte : ∀ p : Plane, m.byteAt epoch (planeAddr w p i) = p.byteOf q := fun p => by
    obtain ⟨-, hread⟩ := h p
    exact Memory.byteAt_of_read (by rw [hread i hi, List.getElem?_map, hq]; rfl)
  simp only [Memory.quadAt, hbyte]
  rfl

/-- R124: the pixels of the scanline that `SB` holds are emitted in order. -/
theorem reaches_emit {s : State} {done todo : List Quad} (hhost : s.host = []) (hw : s.w ≤ 32767)
    (hready : s.ports.poutReady = true) (hlen : (done ++ todo).length = s.w)
    (hsb : ∀ p : Plane, HoldsPlane s.sb s.w p ((done ++ todo).map p.byteOf)) (op : Op) :
    Reaches (s.at op (.emit done.length)) ((s.putPixels (todo.map decodeQuad)).at op (.emit s.w)) := by
  induction todo generalizing s done with
  | nil =>
    rw [List.append_nil] at hlen
    rw [hlen, List.map_nil, State.putPixels_nil]
    exact .refl _
  | cons q todo ih =>
    have hi : done.length < s.w := by
      rw [List.length_append, List.length_cons] at hlen
      omega
    have hquad := quadAt_of_holdsPlane hi (q := q) (by simp) hsb s.sbEpoch
    have hfirst := Reaches.of_move (s := s.at op (.emit done.length)) hhost
      (.emit rfl hi (pixelInside_of_lt hw hi) hready)
    have hrest := ih (s := s.putPixels [decodeQuad q]) (done := done ++ [q]) hhost hw hready
      (by rw [List.append_assoc]; exact hlen) (by rw [List.append_assoc]; exact hsb)
    rw [State.putPixels_putPixels, List.length_append, List.length_singleton] at hrest
    rw [State.at_sb, State.at_sbEpoch, State.at_w, hquad] at hfirst
    exact hfirst.trans hrest

end Sys2Proof.Machine
end

section
/-!
PROOFS. The scanline commands of the decoder run to their end: an RLE scanline (R116 to R125), and the fallback to
flat data (R121).
-/

namespace Sys2Proof.Machine

/-! ## The marker -/

theorem isMarker_markerBytes {w : Nat} (hw : w ≤ 32767) :
    isMarker Config.markerByte Config.markerByte (BitVec.ofNat 8 (w / 256)) = true := by
  rw [isMarker_eq_true_iff, BitVec.toNat_ofNat]
  exact ⟨rfl, rfl, by omega⟩

theorem markerWidth_markerBytes {w : Nat} (hw : w ≤ 32767) :
    markerWidth (low7 (BitVec.ofNat 8 (w / 256))) (BitVec.ofNat 8 (w % 256)) = w := by
  rw [markerWidth, low7_toNat, BitVec.toNat_ofNat, BitVec.toNat_ofNat]
  omega

/-- R116, R117: the marker of `WIDTH` is read and opens the scanline. -/
theorem reaches_marker {s : State} {rest : List BinAnswer} (hhost : s.host = []) (hw : s.w ≤ 32767)
    (hbin : s.ports.bin = asAnswers (markerBytes s.w) ++ rest) (op : Op) :
    Reaches (s.at op (.marker [])) ((s.tookBytes rest 4).at op (.token .r 0 [])) := by
  have hread := reaches_pulls (op := op) (k := .marker []) hhost hbin le_rfl
  refine hread.trans (.of_move (s := (s.tookBytes rest 4).at op (.marker (markerBytes s.w))) hhost (.jump rfl ?_))
  exact .opened (isMarker_markerBytes hw) (markerWidth_markerBytes hw)

/-! ## A scanline -/

/-- A scanline of the quads `qs` has been decoded, and `rest` is left on BIN (R116 to R124). -/
def State.decodedScanline (s : State) (rest : List BinAnswer) (n : Nat) (qs : List Quad) : State :=
  ((s.tookBytes rest n).setSB (s.sb.writePlanes s.w qs)).putPixels (qs.map decodeQuad)

/-- R116 to R124: an RLE scanline is decoded. -/
theorem reaches_scanline {s : State} {bs : List Byte} {qs : List Quad} {rest : List BinAnswer}
    (hscan : RleScanline s.w bs qs) (hhost : s.host = []) (hw : s.w ≤ 32767) (hready : s.ports.poutReady = true)
    (hbin : s.ports.bin = asAnswers bs ++ rest) (op : Op) :
    Reaches (s.at op (.marker [])) ((s.decodedScanline rest bs.length qs).at op (.emit s.w)) := by
  obtain ⟨hlen, tr, tg, tb, te, rfl, hr, hg, hb, he⟩ := hscan
  simp only [asAnswers_append] at hbin
  have hmark := reaches_marker hhost hw hbin op
  have hplanes := ((reaches_plane_next (p := .r) (qs := qs) hhost hw hr _ 4 s.sb op rfl).trans
    (reaches_plane_next (p := .g) (qs := qs) hhost hw hg _ _ _ op rfl)).trans
    ((reaches_plane_next (p := .b) (qs := qs) hhost hw hb _ _ _ op rfl).trans
    (reaches_plane_last (p := .e) (qs := qs) hhost hw he rest _ _ op rfl))
  have hemit := reaches_emit (s := (s.tookBytes rest (4 + tr.length + tg.length + tb.length + te.length)).setSB
    (s.sb.writePlanes s.w qs)) (done := []) (todo := qs) hhost hw hready hlen (holdsPlane_writePlanes hlen s.sb) op
  refine (hmark.trans (hplanes.trans hemit)).trans (.of_eq ?_)
  simp only [List.length_append]
  rfl

/-- Settles O24: the scanline is decoded, and its end is the end of the command. -/
theorem scanDecodeRunsToItsEnd : Obligations.ScanDecodeRunsToItsEnd := by
  intro s tr tg tb te qs rest hidle hhost hmin hmax hy hlen hr hg hb he hbin hready
  refine ⟨s.sb.writePlanes s.w qs, ?_, fun a ha => Memory.read_writePlanes_of_le hlen ha s.sb⟩
  refine .of_entered hhost (exec_scanDec_of_checkScan hidle (checkScan_of_usable hmin hmax hy)) ?_ rfl
  have hscan : RleScanline s.w (markerBytes s.w ++ tr ++ tg ++ tb ++ te) qs :=
    ⟨hlen, tr, tg, tb, te, rfl, hr, hg, hb, he⟩
  have hrun := reaches_scanline (s := s.entered 5#32 .scanDec) hscan hhost hmax hready hbin .scanDec
  refine hrun.trans (.trans (.of_move hhost (.scanlineEnd rfl (.emitted (Nat.lt_irrefl s.w)))) (.of_eq ?_))
  refine State.finish_eq_completed rfl rfl rfl rfl ?_ rfl ?_ rfl rfl rfl rfl rfl
  · simp only [List.length_append]
    exact BitVec.zero_add _
  · exact (BitVec.zero_add _).trans (congrArg _ ((List.length_map _).trans hlen))

/-! ## The fallback -/

/-- R121: at a scanline start, a quad that is no marker is the first of the flat rest of the image. -/
theorem reaches_fallback {s : State} {q : Quad} {qs : List Quad} {rest : List BinAnswer} (hhost : s.host = [])
    (hready : s.ports.poutReady = true) (hq : ¬ (q.r = 2#8 ∧ q.g = 2#8 ∧ q.b.msb = false))
    (hlen : (q :: qs).length = (s.h - s.y) * s.w) (hbin : s.ports.bin = asAnswers (flatBytes (q :: qs)) ++ rest)
    (op : Op) :
    Reaches (s.at op (.marker []))
      ((((s.setMode .flat).tookBytes rest (4 * (q :: qs).length)).putPixels ((q :: qs).map decodeQuad)).at op
        .flatDone) := by
  have hmarker : isMarker q.r q.g q.b = false := by
    simpa [isMarker, Config.markerByte] using hq
  have hleft : qs.length = (s.h - s.y) * s.w - 1 := by
    rw [← hlen]
    rfl
  rw [flatBytes_cons, asAnswers_append] at hbin
  have hread := reaches_pulls (op := op) (k := .marker []) hhost hbin le_rfl
  have hfall := Reaches.of_move (s := (s.tookBytes (asAnswers (flatBytes qs) ++ rest) 4).at op (.marker q.bytes))
    hhost (.fallback rfl hmarker)
  have hput := reaches_putQuad (s := (s.setMode .flat).tookBytes (asAnswers (flatBytes qs) ++ rest) 4) hhost hready op
    qs.length q
  have hflat := reaches_flatRead (s := ((s.setMode .flat).tookBytes (asAnswers (flatBytes qs) ++ rest) 4).putPixels
    [decodeQuad q]) (qs := qs) (rest := rest) hhost rfl hready op
  rw [hleft] at hput
  refine hread.trans (hfall.trans (hput.trans ?_))
  rw [← hleft]
  refine hflat.trans (.of_eq (congrArg (State.at · op .flatDone) ?_))
  change ((((s.setMode .flat).tookBytes _ 4).tookBytes rest (4 * qs.length)).putPixels [decodeQuad q]).putPixels
    (qs.map decodeQuad) = _
  rw [State.tookBytes_tookBytes, State.putPixels_putPixels, List.length_cons, Nat.mul_succ, Nat.add_comm 4]
  rfl

/-- Settles O25: the rest of the image is flat data, and its end is the end of the command. -/
theorem fallbackDecodesRestOfImage : Obligations.FallbackDecodesRestOfImage := by
  intro s q qs rest hidle hhost hmin hmax hy hq hlen hbin hready
  refine .of_entered hhost (exec_scanDec_of_checkScan hidle (checkScan_of_usable hmin hmax hy)) ?_ rfl
  have hrun := reaches_fallback (s := s.entered 5#32 .scanDec) hhost hready hq hlen hbin .scanDec
  refine hrun.trans (.trans (.of_move hhost (.flatEnd rfl)) (.of_eq ?_))
  exact State.finish_eq_completed rfl rfl rfl rfl (BitVec.zero_add _) rfl
    ((BitVec.zero_add _).trans (congrArg _ (List.length_map _))) rfl rfl rfl rfl rfl

end Sys2Proof.Machine
end

section
/-!
PROOFS. The scanline encoder runs to its end (R128 to R138): pixels go into the planes of `SB`, and each plane is
read and written as tokens.
-/

namespace Sys2Proof.Machine

/-! ## What the pixels of a scanline leave in `SB` -/

/-- The pixels from index `i` on are written into the planes (R128). -/
def Memory.writeQuads (w : Nat) : Memory → Nat → List Quad → Memory
  | m, _, [] => m
  | m, i, q :: qs => Memory.writeQuads w (m.writeQuad w i q) (i + 1) qs

theorem Memory.read_writeQuads_of_ne {w i a : Nat} {qs : List Quad} (m : Memory)
    (hne : ∀ (p : Plane) (k : Nat), i ≤ k → k < i + qs.length → a ≠ planeAddr w p k) :
    Memory.read (m.writeQuads w i qs) a = Memory.read m a := by
  induction qs generalizing m i with
  | nil => rfl
  | cons q qs ih =>
    rw [List.length_cons] at hne
    rw [Memory.writeQuads, ih _ fun p k hlow hhigh => hne p k (by omega) (by omega)]
    exact Memory.read_writeQuad_of_ne (fun p => hne p i le_rfl (by omega)) m q

theorem Memory.read_writeQuads {w i j : Nat} {qs : List Quad} (hfit : i + qs.length ≤ w) (hj : j < qs.length)
    (m : Memory) (p : Plane) :
    Memory.read (m.writeQuads w i qs) (planeAddr w p (i + j)) = (qs.map p.byteOf)[j]? := by
  induction qs generalizing m i j with
  | nil => nomatch hj
  | cons q qs ih =>
    rw [List.length_cons] at hfit hj
    cases j with
    | zero =>
      have hlater : ∀ (p' : Plane) (k : Nat), i + 1 ≤ k → k < i + 1 + qs.length →
          planeAddr w p i ≠ planeAddr w p' k := fun p' k hlow hhigh heq => by
        obtain ⟨-, rfl⟩ := planeAddr_inj (by omega) (by omega) heq
        omega
      rw [Nat.add_zero, Memory.writeQuads, Memory.read_writeQuads_of_ne _ hlater,
        Memory.read_writeQuad (by omega)]
      rfl
    | succ j =>
      rw [Memory.writeQuads, show i + (j + 1) = i + 1 + j by omega]
      exact ih (by omega) (by omega) (m.writeQuad w i q)

/-- R128: with all pixels of a scanline written, `SB` holds their planes. -/
theorem holdsPlane_writeQuads {w : Nat} {qs : List Quad} (hlen : qs.length = w) (m : Memory) (p : Plane) :
    HoldsPlane (m.writeQuads w 0 qs) w p (qs.map p.byteOf) := by
  refine ⟨(List.length_map _).trans hlen, fun i hi => ?_⟩
  have hread := Memory.read_writeQuads (i := 0) (by omega) (hlen ▸ hi) m p (w := w)
  rwa [Nat.zero_add] at hread

theorem Memory.read_writeQuads_of_le {w a : Nat} {qs : List Quad} (hlen : qs.length = w) (ha : 4 * w ≤ a)
    (m : Memory) : Memory.read (m.writeQuads w 0 qs) a = Memory.read m a :=
  Memory.read_writeQuads_of_ne m fun p k _ hk heq => by
    have := planeAddr_lt p (show k < w by omega)
    omega

/-- R128: reading a plane that `SB` holds gives its bytes. -/
theorem HoldsPlane.bytesAt_eq {m : Memory} {w : Nat} {p : Plane} {data : List Byte} (h : HoldsPlane m w p data)
    (epoch : Nat) : m.bytesAt epoch (planeAddr w p 0) w = data := by
  obtain ⟨hlen, hread⟩ := h
  refine List.ext_getElem? fun i => ?_
  rw [Memory.bytesAt_getElem?]
  split
  next hi =>
    have hbyte := hread i hi
    rw [List.getElem?_eq_getElem (hlen ▸ hi)] at hbyte ⊢
    rw [← planeAddr_add, Nat.zero_add, Memory.byteAt_of_read hbyte]
  next hi => exact (List.getElem?_eq_none (by omega)).symm

/-! ## The marker and the pixels -/

section Push
variable {s : State} (hhost : s.host = []) (hready : s.ports.boutReady = true) (hreject : s.ports.boutReject = none)
  (op : Op)
include hhost hready hreject

/-- R128: the marker is written, and the pixels are taken next. -/
theorem reaches_markerOut (bs : List Byte) :
    Reaches (s.at op (.markerOut bs)) ((s.sentBytes bs).at op (.pixIn 0)) := by
  induction bs generalizing s with
  | nil =>
    rw [State.sentBytes_nil]
    exact .of_move (s := s.at op (.markerOut [])) hhost (.jump rfl .markerWritten)
  | cons b bs ih =>
    have hrest := ih (s := s.sentBytes [b]) hhost hready hreject
    rw [State.sentBytes_sentBytes] at hrest
    exact (reaches_push hhost hready hreject op .marker).trans hrest

/-- R137: the bytes of one token are written. -/
theorem reaches_tokenOut {t : Token} {bs : List Byte} (hbytes : t.bytes = bs) (p : Plane) (data : List Byte)
    (toks : List Token) (cur : Nat) :
    Reaches (s.at op (.planeEmit p data (t :: toks) cur)) ((s.sentBytes bs).at op (.planeEmit p data toks cur)) := by
  induction bs generalizing s t with
  | nil =>
    rw [State.sentBytes_nil]
    exact .of_move (s := s.at op (.planeEmit p data (t :: toks) cur)) hhost (.jump rfl (.tokenWritten hbytes))
  | cons b bs ih =>
    have hrest := ih (s := s.sentBytes [b]) hhost hready hreject (t := { t with bytes := bs }) rfl
    rw [State.sentBytes_sentBytes] at hrest
    exact (reaches_push hhost hready hreject op (.token hbytes)).trans hrest

/-- R137: the tokens of one pass are written. -/
theorem reaches_passOut (p : Plane) (data : List Byte) (toks : List Token) (cur : Nat) :
    Reaches (s.at op (.planeEmit p data toks cur))
      ((s.sentBytes (toks.flatMap Token.bytes)).at op (.planeScan p data cur)) := by
  induction toks generalizing s with
  | nil =>
    rw [List.flatMap_nil, State.sentBytes_nil]
    exact .of_move (s := s.at op (.planeEmit p data [] cur)) hhost (.jump rfl .passWritten)
  | cons t toks ih =>
    have hrest := ih (s := s.sentBytes t.bytes) hhost hready hreject
    rw [State.sentBytes_sentBytes, ← List.flatMap_cons] at hrest
    exact (reaches_tokenOut hhost hready hreject op rfl p data toks cur).trans hrest

/-- R130: the passes over what is left of a plane. -/
theorem reaches_passes (p : Plane) {data : List Byte} {fuel cur : Nat} (hcur : cur ≤ data.length)
    (hfuel : data.length ≤ cur + fuel) :
    Reaches (s.at op (.planeScan p data cur))
      ((s.sentBytes ((planeTokens data fuel cur).flatMap Token.bytes)).at op (.planeScan p data data.length)) := by
  induction fuel generalizing s cur with
  | zero =>
    obtain rfl : cur = data.length := by omega
    rw [planeTokens, List.flatMap_nil, State.sentBytes_nil]
    exact .refl _
  | succ fuel ih =>
    rw [planeTokens]
    split
    next hlt =>
      obtain ⟨hmore, hle⟩ := encoderPassAdvances data cur hlt
      have hpass := Reaches.of_move (s := s.at op (.planeScan p data cur)) hhost (.jump rfl (.pass hlt))
      have hout := reaches_passOut hhost hready hreject op p data (encodePass data cur).1 (encodePass data cur).2
      have hrest := ih (s := s.sentBytes ((encodePass data cur).1.flatMap Token.bytes)) hhost hready hreject
        (cur := (encodePass data cur).2) hle (by omega)
      rw [State.sentBytes_sentBytes, ← List.flatMap_append] at hrest
      exact hpass.trans (hout.trans hrest)
    next hend =>
      obtain rfl : cur = data.length := by omega
      rw [List.flatMap_nil, State.sentBytes_nil]
      exact .refl _

/-- R128, R138: a plane that `SB` holds is read and written as tokens. -/
theorem reaches_planeOut (hw : s.w ≤ 32767) {p : Plane} {data : List Byte} (hdata : HoldsPlane s.sb s.w p data) :
    Reaches (s.at op (.planeStart p))
      ((s.sentBytes (encodePlane data)).at op (.planeScan p data data.length)) := by
  have hread := Reaches.of_move (s := s.at op (.planeStart p)) hhost
    (.readPlane rfl (planeAddr_add_le_sbCapacity hw (show 0 + s.w ≤ s.w by omega) p))
  rw [State.at_sb, State.at_sbEpoch, State.at_w, hdata.bytesAt_eq] at hread
  exact hread.trans (reaches_passes hhost hready hreject op p (Nat.zero_le _) (Nat.le_add_left _ _))

/-- R138: a plane that is not the last is written, and the next one is read. -/
theorem reaches_planeOut_next (hw : s.w ≤ 32767) {p q : Plane} {data : List Byte} (hdata : HoldsPlane s.sb s.w p data)
    (hnext : p.next = some q) :
    Reaches (s.at op (.planeStart p)) ((s.sentBytes (encodePlane data)).at op (.planeStart q)) :=
  (reaches_planeOut hhost hready hreject op hw hdata).trans
    (.of_move (s := (s.sentBytes (encodePlane data)).at op (.planeScan p data data.length)) hhost
      (.jump rfl (.planeWritten (Nat.lt_irrefl _) hnext)))

/-- R138: the four planes of a scanline are written in order. -/
theorem reaches_planesOut (hw : s.w ≤ 32767) {qs : List Quad}
    (hsb : ∀ p : Plane, HoldsPlane s.sb s.w p (qs.map p.byteOf)) :
    Reaches (s.at op (.planeStart .r))
      ((s.sentBytes (encodePlane (qs.map Quad.r) ++ encodePlane (qs.map Quad.g) ++ encodePlane (qs.map Quad.b) ++
        encodePlane (qs.map Quad.e))).at op (.planeScan .e (qs.map Quad.e) (qs.map Quad.e).length)) := by
  have hout_r := reaches_planeOut_next hhost hready hreject op hw (hsb .r) rfl
  have hout_g := reaches_planeOut_next (s := s.sentBytes (encodePlane (qs.map Quad.r))) hhost hready hreject op hw
    (hsb .g) rfl
  have hout_b := reaches_planeOut_next (s := s.sentBytes (encodePlane (qs.map Quad.r) ++
    encodePlane (qs.map Quad.g))) hhost hready hreject op hw (hsb .b) rfl
  have hout_e := reaches_planeOut (s := s.sentBytes (encodePlane (qs.map Quad.r) ++ encodePlane (qs.map Quad.g) ++
    encodePlane (qs.map Quad.b))) hhost hready hreject op hw (hsb .e)
  rw [State.sentBytes_sentBytes] at hout_g hout_b hout_e
  exact (hout_r.trans hout_g).trans (hout_b.trans hout_e)

end Push

/-- R128: the pixels of a scanline are taken, and the four planes are written next. -/
theorem reaches_pixIn {s : State} {ps rest : List Pixel} {i : Nat} (hhost : s.host = []) (hw : s.w ≤ 32767)
    (hlen : i + ps.length = s.w) (hpin : s.ports.pin = ps ++ rest) (op : Op) :
    Reaches (s.at op (.pixIn i))
      (((s.tookPixels rest ps.length).setSB (s.sb.writeQuads s.w i (ps.map encodePixel))).at op (.planeStart .r)) := by
  induction ps generalizing s i with
  | nil =>
    rw [List.length_nil, Nat.add_zero] at hlen
    rw [List.length_nil, State.tookPixels_zero (show s.ports.pin = rest from hpin)]
    exact .of_move (s := s.at op (.pixIn i)) hhost (.jump rfl (.pixelsTaken hlen.ge.not_gt))
  | cons p ps ih =>
    rw [List.length_cons] at hlen
    have hi : i < s.w := by omega
    have htake := Reaches.of_move (s := s.at op (.pixIn i)) hhost
      (.takeScanPixel rfl hi (pixelInside_of_lt hw hi) hpin)
    have hrest := ih (s := (s.tookPixels (ps ++ rest) 1).setSB (s.sb.writeQuad s.w i (encodePixel p))) (i := i + 1)
      hhost hw (show i + 1 + ps.length = s.w by omega) rfl
    refine htake.trans (hrest.trans (.of_eq (congrArg (State.at · op (.planeStart .r)) ?_)))
    change ((s.tookPixels (ps ++ rest) 1).tookPixels rest ps.length).setSB _ = _
    rw [State.tookPixels_tookPixels, Nat.add_comm 1]
    rfl

/-! ## A scanline -/

/-- A scanline of the quads `qs` has been encoded, and `rest` is left on PIN (R128). -/
def State.encodedScanline (s : State) (rest : List Pixel) (n : Nat) (qs : List Quad) : State :=
  ((s.tookPixels rest n).setSB (s.sb.writeQuads s.w 0 qs)).sentBytes (scanlineBytes s.w qs)

/-- R128: a scanline is encoded. -/
theorem reaches_encodedScanline {s : State} {ps rest : List Pixel} {qs : List Quad} (hhost : s.host = [])
    (hw : s.w ≤ 32767) (hready : s.ports.boutReady = true) (hreject : s.ports.boutReject = none)
    (hlen : ps.length = s.w) (hqs : ps.map encodePixel = qs) (hpin : s.ports.pin = ps ++ rest) (op : Op) :
    Reaches (s.at op (.markerOut (markerBytes s.w)))
      ((s.encodedScanline rest s.w qs).at op (.planeScan .e (qs.map Quad.e) (qs.map Quad.e).length)) := by
  have hmark := reaches_markerOut hhost hready hreject op (markerBytes s.w)
  have hpix := reaches_pixIn (s := s.sentBytes (markerBytes s.w)) (i := 0) hhost hw
    ((Nat.zero_add _).trans hlen) hpin op
  have hwidth : qs.length = s.w := by rw [← hqs, List.length_map, hlen]
  rw [hqs, hlen] at hpix
  have hplanes := reaches_planesOut (s := ((s.sentBytes (markerBytes s.w)).tookPixels rest s.w).setSB
    (s.sb.writeQuads s.w 0 qs)) hhost hready hreject op hw (holdsPlane_writeQuads hwidth s.sb)
  refine (hmark.trans (hpix.trans hplanes)).trans (.of_eq (congrArg (State.at · op _) ?_))
  change (((s.sentBytes (markerBytes s.w)).sentBytes _).tookPixels rest s.w).setSB (s.sb.writeQuads s.w 0 qs) = _
  rw [State.sentBytes_sentBytes, ← List.append_assoc, ← List.append_assoc, ← List.append_assoc]
  rfl

/-- Settles O26: the scanline is encoded, and its end is the end of the command. -/
theorem scanEncodeRunsToItsEnd : Obligations.ScanEncodeRunsToItsEnd := by
  intro s ps rest hidle hhost hmin hmax hy hlen hpin hready hreject
  generalize hqs : ps.map encodePixel = qs
  have hwidth : qs.length = s.w := by rw [← hqs, List.length_map, hlen]
  refine ⟨s.sb.writeQuads s.w 0 qs, ?_, fun a ha => Memory.read_writeQuads_of_le hwidth ha s.sb⟩
  refine .of_entered hhost (exec_scanEnc_of_checkScan hidle (checkScan_of_usable hmin hmax hy)) ?_ rfl
  have hrun := reaches_encodedScanline (s := s.entered 6#32 .scanEnc) hhost hmax hready hreject hlen hqs hpin .scanEnc
  refine hrun.trans (.trans (.of_move hhost (.scanlineEnd rfl (.written (Nat.lt_irrefl _)))) (.of_eq ?_))
  exact State.finish_eq_completed rfl rfl rfl rfl rfl (BitVec.zero_add _) (BitVec.zero_add _) rfl rfl rfl rfl rfl

end Sys2Proof.Machine
end

section
/-!
PROOFS. The whole-image commands run to their end (R142 to R146): scanline after scanline, the fallback, and the
flat path.
-/

namespace Sys2Proof.Machine

/-! ## The loop over scanlines -/

theorem nextScanline_of_lt {s : State} (hy : s.y < s.h) (op : Op) :
    nextScanline op s = s.at op (scanlineFrom op s.w) := if_pos hy

theorem nextScanline_of_le {s : State} (hy : s.h ≤ s.y) (op : Op) : nextScanline op s = s.finish := if_neg hy.not_gt

theorem State.setYpos_height {s : State} (hy : s.y = s.h) : s.setYpos s.regs.height = s := by
  have hypos : s.regs.ypos = s.regs.height := BitVec.eq_of_toNat_eq hy
  rw [State.setYpos, ← hypos]

/-- R125, R128: `YPOS` counts a scanline. -/
def State.countScanline (s : State) : State := s.setYpos (s.regs.ypos + 1#32)

theorem State.y_countScanline {s : State} (hy : s.y < s.h) : s.countScanline.y = s.y + 1 :=
  BitVec.toNat_add_of_lt (Nat.lt_of_le_of_lt hy s.regs.height.isLt)

theorem scanlineDone_imgEnc (s : State) (op : Op) (k : Pos) :
    scanlineDone .imgEnc (s.at op k) = nextScanline .imgEnc s.countScanline := rfl

theorem scanlineDone_imgDec (s : State) (op : Op) (k : Pos) :
    scanlineDone .imgDec (s.at op k) = nextScanline .imgDec s.countScanline := rfl

/-! ## Encoding an image -/

/-- The scanlines of an image have been encoded, and `rest` is left on PIN (R145). -/
def State.encodedImage (s : State) (rest : List Pixel) (n : Nat) (m : Memory) (bs : List Byte) : State :=
  (((s.setYpos s.regs.height).tookPixels rest n).setSB m).sentBytes bs

/-- R145: one scanline of an image is encoded, and the loop goes on. -/
theorem reaches_encodedRow {s : State} {ps rest : List Pixel} {qs : List Quad} (hhost : s.host = [])
    (hw : s.w ≤ 32767) (hready : s.ports.boutReady = true) (hreject : s.ports.boutReject = none) (hy : s.y < s.h)
    (hlen : ps.length = s.w) (hqs : ps.map encodePixel = qs) (hpin : s.ports.pin = ps ++ rest) :
    Reaches (nextScanline .imgEnc s) (nextScanline .imgEnc (s.encodedScanline rest s.w qs).countScanline) := by
  have hscan := reaches_encodedScanline hhost hw hready hreject hlen hqs hpin .imgEnc
  have hdone := Reaches.of_move (s := (s.encodedScanline rest s.w qs).at .imgEnc
    (.planeScan .e (qs.map Quad.e) (qs.map Quad.e).length)) hhost (.scanlineEnd rfl (.written (Nat.lt_irrefl _)))
  rw [scanlineDone_imgEnc] at hdone
  rw [nextScanline_of_lt hy]
  exact hscan.trans hdone

/-- One scanline and those after it are the scanlines of the image. -/
theorem State.encodedImage_encodedScanline (s : State) (rest rest' : List Pixel) (n : Nat) (m : Memory)
    (qs : List Quad) (bs : List Byte) :
    (s.encodedScanline rest s.w qs).countScanline.encodedImage rest' n m bs =
      s.encodedImage rest' (s.w + n) m (scanlineBytes s.w qs ++ bs) := by
  change ((((s.setYpos s.regs.height).tookPixels rest s.w).tookPixels rest' n).setSB m
    |>.sentBytes (scanlineBytes s.w qs)).sentBytes bs = _
  rw [State.tookPixels_tookPixels, State.sentBytes_sentBytes]
  rfl

/-- R145: the scanlines from `YPOS` on are encoded. -/
theorem reaches_encodedRows {k : Nat} {s : State} {ps rest : List Pixel} {qs : List Quad} (hhost : s.host = [])
    (hw : s.w ≤ 32767) (hready : s.ports.boutReady = true) (hreject : s.ports.boutReject = none) (hk : s.y + k = s.h)
    (hlen : ps.length = s.w * k) (hqs : ps.map encodePixel = qs) (hpin : s.ports.pin = ps ++ rest) :
    ∃ m, Reaches (nextScanline .imgEnc s)
        (s.encodedImage rest (s.w * k) m ((rasterRows s.w k qs).flatMap (scanlineBytes s.w))).finish ∧
      ∀ a, 4 * s.w ≤ a → Memory.read m a = Memory.read s.sb a := by
  induction k generalizing s ps qs with
  | zero =>
    obtain rfl := List.eq_nil_of_length_eq_zero hlen
    rw [nextScanline_of_le hk.ge]
    refine ⟨s.sb, .of_eq (congrArg State.finish ?_), fun _ _ => rfl⟩
    rw [State.encodedImage, State.setYpos_height hk, Nat.mul_zero,
      State.tookPixels_zero (show s.ports.pin = rest from hpin)]
    exact (State.sentBytes_nil s).symm
  | succ k ih =>
    rw [Nat.mul_succ] at hlen
    have hy : s.y < s.h := by omega
    have htake : (ps.take s.w).length = s.w := by
      rw [List.length_take, hlen]
      omega
    have hdrop : (ps.drop s.w).length = s.w * k := by
      rw [List.length_drop, hlen, Nat.add_sub_cancel]
    have hwidth : (qs.take s.w).length = s.w := by rw [← hqs, ← List.map_take, List.length_map, htake]
    have hrow := reaches_encodedRow (qs := qs.take s.w) (rest := ps.drop s.w ++ rest) hhost hw hready hreject hy
      htake (by rw [← hqs, List.map_take]) (by rw [← List.append_assoc, List.take_append_drop, hpin])
    have hy' : (s.encodedScanline (ps.drop s.w ++ rest) s.w (qs.take s.w)).countScanline.y + k = s.h := by
      rw [State.y_countScanline (s := s.encodedScanline (ps.drop s.w ++ rest) s.w (qs.take s.w)) hy, Nat.add_assoc,
        Nat.add_comm 1]
      exact hk
    obtain ⟨m, hrest, hframe⟩ := ih (s := (s.encodedScanline (ps.drop s.w ++ rest) s.w (qs.take s.w)).countScanline)
      (ps := ps.drop s.w) (qs := qs.drop s.w) hhost hw hready hreject hy' hdrop (by rw [← hqs, List.map_drop]) rfl
    refine ⟨m, ?_, fun a ha => (hframe a ha).trans (Memory.read_writeQuads_of_le hwidth ha s.sb)⟩
    rw [State.encodedImage_encodedScanline, Nat.add_comm] at hrest
    exact hrow.trans hrest

theorem imageBytes_of_rleOk {w : Nat} (hw : rleOk w) (h : Nat) (qs : List Quad) :
    imageBytes w h qs = (rasterRows w h qs).flatMap (scanlineBytes w) := if_pos hw

theorem imageBytes_of_not_rleOk {w : Nat} (hw : ¬ rleOk w) (h : Nat) (qs : List Quad) :
    imageBytes w h qs = flatBytes qs := if_neg hw

/-- Settles O28: all scanlines are RLE scanlines when the width allows it, else the pixels are written flat. -/
theorem imageEncodeWritesScanlineData : Obligations.ImageEncodeWritesScanlineData := by
  intro s ps rest hidle hhost hw hh hlen hpin hready hreject
  have hcheck : checkImage s := ⟨by omega, by omega⟩
  generalize hqs : ps.map encodePixel = qs
  by_cases hrle : rleOk s.w
  · obtain ⟨m, hrun, hframe⟩ := reaches_encodedRows (s := ((s.entered 8#32 .imgEnc).setYpos 0#32).setMode .rle) (k := s.h)
      hhost hrle.2 hready hreject (Nat.zero_add _) hlen hqs hpin
    refine ⟨m, ?_, hframe, fun hno => absurd hrle hno⟩
    refine .of_entered hhost (exec_imgEnc_of_checkImage hidle hcheck) ?_ rfl
    rw [beginCommand_imgEnc_of_rleOk (s := s.entered 8#32 .imgEnc) hrle]
    refine hrun.trans (.of_eq ?_)
    rw [imageBytes_of_rleOk hrle]
    exact State.finish_eq_completed rfl (if_pos hrle).symm rfl rfl rfl (BitVec.zero_add _)
      (BitVec.zero_add _) rfl rfl rfl rfl rfl
  · refine ⟨s.sb, ?_, fun _ _ => rfl, fun _ => rfl⟩
    refine .of_entered hhost (exec_imgEnc_of_checkImage hidle hcheck) ?_ rfl
    have hrun := reaches_flatWrite (s := ((s.entered 8#32 .imgEnc).setYpos 0#32).setMode .flat) hhost hpin hready hreject
      .imgEnc
    rw [hqs, hlen] at hrun
    rw [beginCommand_imgEnc_of_not_rleOk (s := s.entered 8#32 .imgEnc) hrle]
    refine hrun.trans (.trans (.of_move hhost (.flatEnd rfl)) (.of_eq ?_))
    rw [imageBytes_of_not_rleOk hrle]
    exact State.finish_eq_completed rfl (if_neg hrle).symm rfl rfl rfl (BitVec.zero_add _) (BitVec.zero_add _)
      rfl rfl rfl rfl rfl

end Sys2Proof.Machine
end

section
/-!
PROOFS. IMG_DEC on the scanline data of an image, and the round trip of the two whole-image commands (R142 to R146).
-/

namespace Sys2Proof.Machine

/-! ## Decoding an image -/

/-- The rest of an image has been decoded, and `rest` is left on BIN (R142, R143). -/
def State.decodedImage (s : State) (mode : Mode) (rest : List BinAnswer) (n : Nat) (m : Memory) (qs : List Quad) :
    State :=
  ((((s.setMode mode).setYpos s.regs.height).tookBytes rest n).setSB m).putPixels (qs.map decodeQuad)

/-- R142: one RLE scanline of an image is decoded, and the loop goes on. -/
theorem reaches_decodedRow {s : State} {bs : List Byte} {qs : List Quad} {rest : List BinAnswer}
    (hscan : RleScanline s.w bs qs) (hhost : s.host = []) (hw : s.w ≤ 32767) (hready : s.ports.poutReady = true)
    (hy : s.y < s.h) (hbin : s.ports.bin = asAnswers bs ++ rest) :
    Reaches (nextScanline .imgDec s) (nextScanline .imgDec (s.decodedScanline rest bs.length qs).countScanline) := by
  have hrun := reaches_scanline hscan hhost hw hready hbin .imgDec
  have hdone := Reaches.of_move (s := (s.decodedScanline rest bs.length qs).at .imgDec (.emit s.w)) hhost
    (.scanlineEnd rfl (.emitted (Nat.lt_irrefl s.w)))
  rw [scanlineDone_imgDec] at hdone
  rw [nextScanline_of_lt hy]
  exact hrun.trans hdone

/-- One scanline and those after it are the scanlines of the image. -/
theorem State.decodedImage_decodedScanline (s : State) (mode : Mode) (rest rest' : List BinAnswer) (n n' : Nat)
    (m : Memory) (qs qs' : List Quad) :
    (s.decodedScanline rest n qs).countScanline.decodedImage mode rest' n' m qs' =
      s.decodedImage mode rest' (n + n') m (qs ++ qs') := by
  change (((((s.setMode mode).setYpos s.regs.height).tookBytes rest n).tookBytes rest' n').setSB m
    |>.putPixels (qs.map decodeQuad)).putPixels (qs'.map decodeQuad) = _
  rw [State.tookBytes_tookBytes, State.putPixels_putPixels, ← List.map_append]
  rfl

/-- R121, R142: when no RLE scanline is left, the flat quads are the rest of the image, and there are some only
before its end. -/
theorem reaches_flatRest {s : State} {flat : List Quad} {rest : List BinAnswer} (hhost : s.host = [])
    (hw : 1 ≤ s.w) (hready : s.ports.poutReady = true) (hy : s.y ≤ s.h) (hlen : flat.length = (s.h - s.y) * s.w)
    (hflat : ∀ q, flat.head? = some q → ¬ (q.r = 2#8 ∧ q.g = 2#8 ∧ q.b.msb = false))
    (hbin : s.ports.bin = asAnswers (flatBytes flat) ++ rest) :
    Reaches (nextScanline .imgDec s)
      (s.decodedImage (if s.y = s.h then s.status.mode else .flat) rest (flatBytes flat).length s.sb flat).finish := by
  rcases hy.lt_or_eq with hlt | heq
  · cases flat with
    | nil =>
      have hpos : 0 < (s.h - s.y) * s.w := Nat.mul_pos (Nat.sub_pos_of_lt hlt) hw
      exact absurd hlen hpos.ne
    | cons q qs =>
      have hrun := reaches_fallback hhost hready (hflat q rfl) hlen hbin .imgDec
      rw [nextScanline_of_lt hlt, if_neg hlt.ne, flatBytes_length]
      exact hrun.trans (.of_move (s := (((s.setMode .flat).tookBytes rest (4 * (q :: qs).length)).putPixels
        ((q :: qs).map decodeQuad)).at .imgDec .flatDone) hhost (.flatEnd (op := .imgDec) rfl))
  · rw [heq, Nat.sub_self, Nat.zero_mul] at hlen
    obtain rfl := List.eq_nil_of_length_eq_zero hlen
    rw [nextScanline_of_le heq.ge, if_pos heq]
    refine .of_eq (congrArg State.finish ?_)
    change s = (((s.setYpos s.regs.height).tookBytes rest 0).setSB s.sb).putPixels []
    rw [State.setYpos_height heq, State.putPixels_nil, State.tookBytes_zero (show s.ports.bin = rest from hbin)]
    rfl

/-- R142: the scanlines from `YPOS` on are decoded. -/
theorem reaches_decodedRows {rows : List (List Byte × List Quad)} {s : State} {flat : List Quad}
    {rest : List BinAnswer} (hhost : s.host = []) (hw : rleOk s.w) (hready : s.ports.poutReady = true)
    (hrows : ∀ row ∈ rows, RleScanline s.w row.1 row.2) (hy : s.y + rows.length ≤ s.h)
    (hlen : flat.length = (s.h - (s.y + rows.length)) * s.w)
    (hflat : ∀ q, flat.head? = some q → ¬ (q.r = 2#8 ∧ q.g = 2#8 ∧ q.b.msb = false))
    (hbin : s.ports.bin = asAnswers (imageDataBytes rows flat) ++ rest) :
    ∃ m, Reaches (nextScanline .imgDec s)
        (s.decodedImage (if s.y + rows.length = s.h then s.status.mode else .flat) rest
          (imageDataBytes rows flat).length m (imageDataQuads rows flat)).finish ∧
      (∀ a, 4 * s.w ≤ a → Memory.read m a = Memory.read s.sb a) ∧ (rows = [] → m = s.sb) := by
  induction rows generalizing s with
  | nil =>
    exact ⟨s.sb, reaches_flatRest hhost (le_trans (by decide) hw.1) hready hy hlen hflat hbin, fun _ _ => rfl,
      fun _ => rfl⟩
  | cons row rows ih =>
    obtain ⟨bs, qs⟩ := row
    rw [List.length_cons] at hy hlen
    have hlt : s.y < s.h := by omega
    have hscan : RleScanline s.w bs qs := hrows (bs, qs) List.mem_cons_self
    have hcut : imageDataBytes ((bs, qs) :: rows) flat = bs ++ imageDataBytes rows flat :=
      List.append_assoc bs (rows.flatMap Prod.fst) (flatBytes flat)
    have hquads : imageDataQuads ((bs, qs) :: rows) flat = qs ++ imageDataQuads rows flat :=
      List.append_assoc qs (rows.flatMap Prod.snd) flat
    rw [hcut, asAnswers_append] at hbin
    have hrow := reaches_decodedRow hscan hhost hw.2 hready hlt hbin
    have hcount : (s.decodedScanline (asAnswers (imageDataBytes rows flat) ++ rest) bs.length qs).countScanline.y +
        rows.length = s.y + (rows.length + 1) := by
      rw [State.y_countScanline (s := s.decodedScanline _ bs.length qs) hlt, Nat.add_assoc, Nat.add_comm 1]
      rfl
    obtain ⟨m, hrest, hframe, -⟩ := ih
      (s := (s.decodedScanline (asAnswers (imageDataBytes rows flat) ++ rest) bs.length qs).countScanline) hhost hw
      hready (fun row hmem => hrows row (List.mem_cons_of_mem _ hmem)) (hcount.trans_le hy)
      (by rw [hcount]; exact hlen) rfl
    refine ⟨m, ?_, fun a ha => (hframe a ha).trans (Memory.read_writePlanes_of_le hscan.1 ha s.sb), nofun⟩
    rw [hcount, State.decodedImage_decodedScanline, ← List.length_append, ← hcut, ← hquads] at hrest
    exact hrow.trans hrest

/-- The quads of scanline data are those of the whole image. -/
theorem ImageData.length_quads {w h : Nat} {rows : List (List Byte × List Quad)} {flat : List Quad}
    (hdata : ImageData w h rows flat) : (imageDataQuads rows flat).length = w * h := by
  obtain ⟨hrows, hle, hlen, -, -⟩ := hdata
  have hrle : (rows.flatMap Prod.snd).length = rows.length * w := by
    rw [List.length_flatMap, List.map_congr_left fun row hmem => (hrows row hmem).1, List.map_const', List.sum_replicate,
      smul_eq_mul]
  rw [imageDataQuads, List.length_append, hrle, hlen, ← Nat.add_mul, Nat.add_sub_cancel' hle, Nat.mul_comm]

/-- R142, R143: IMG_DEC on scanline data. -/
theorem imgDec_runsTo {s : State} {rows : List (List Byte × List Quad)} {flat : List Quad} {rest : List BinAnswer}
    (hidle : s.busy = false) (hhost : s.host = []) (hw : 1 ≤ s.w) (hh : 1 ≤ s.h) (hdata : ImageData s.w s.h rows flat)
    (hbin : s.ports.bin = asAnswers (imageDataBytes rows flat) ++ rest) (hready : s.ports.poutReady = true) :
    ∃ m, RunsTo .imgDec s ({ s with
      sb := m,
      status := { s.status with mode :=
        if 8 ≤ s.w ∧ s.w ≤ 32767 ∧ rows.length = s.h then .rle else .flat },
      regs := { s.regs with ypos := s.regs.height },
      ports := { s.ports with
        bin := rest, pout := s.ports.pout ++ (imageDataQuads rows flat).map decodeQuad }
      }.completed 7#32 (imageDataBytes rows flat).length 0 (s.w * s.h)) ∧
      (∀ a, 4 * s.w ≤ a → Memory.read m a = Memory.read s.sb a) ∧ (rows = [] → m = s.sb) := by
  have hcheck : checkImage s := ⟨Nat.ne_of_gt hw, Nat.ne_of_gt hh⟩
  have hpix := hdata.length_quads
  obtain ⟨hrows, hle, hlen, hflat, hnone⟩ := hdata
  by_cases hrle : rleOk s.w
  · obtain ⟨m, hrun, hframe⟩ := reaches_decodedRows (s := ((s.entered 7#32 .imgDec).setYpos 0#32).setMode .rle)
      (rows := rows) (flat := flat) hhost hrle hready hrows ((Nat.zero_add _).trans_le hle)
      (hlen.trans (congrArg (fun n => (s.h - n) * s.w) (Nat.zero_add _).symm)) (hflat hrle) hbin
    refine ⟨m, ?_, hframe⟩
    refine .of_entered hhost (exec_imgDec_of_checkImage hidle hcheck) ?_ rfl
    rw [beginCommand_imgDec_of_rleOk (s := s.entered 7#32 .imgDec) hrle]
    refine hrun.trans (.of_eq (State.finish_eq_completed rfl ?_ rfl rfl (BitVec.zero_add _) rfl
      ((BitVec.zero_add _).trans (congrArg _ ((List.length_map _).trans hpix))) rfl rfl rfl rfl rfl))
    change (if 0 + rows.length = s.h then Mode.rle else .flat) = _
    simp only [Nat.zero_add, hrle.1, hrle.2, true_and]
  · obtain rfl := hnone hrle
    refine ⟨s.sb, ?_, fun _ _ => rfl, fun _ => rfl⟩
    refine .of_entered hhost (exec_imgDec_of_checkImage hidle hcheck) ?_ rfl
    have hrun := reaches_flatRead (s := ((s.entered 7#32 .imgDec).setYpos 0#32).setMode .flat) (qs := flat) hhost hbin
      hready .imgDec
    have hcount : flat.length = s.w * s.h := hlen.trans (Nat.mul_comm _ _)
    rw [hcount] at hrun
    rw [beginCommand_imgDec_of_not_rleOk (s := s.entered 7#32 .imgDec) hrle]
    refine hrun.trans (.trans (.of_move hhost (.flatEnd rfl)) (.of_eq (State.finish_eq_completed rfl ?_ rfl rfl ?_ rfl
      ((BitVec.zero_add _).trans (congrArg _ ((List.length_map _).trans hpix))) rfl rfl rfl rfl rfl)))
    · exact (if_neg fun h => hrle ⟨h.1, h.2.1⟩).symm
    · exact (BitVec.zero_add _).trans (congrArg _ (by rw [← hcount]; exact (flatBytes_length flat).symm))

/-! ## What the encoder writes is scanline data -/

theorem rasterRows_length {α : Type} (w h : Nat) (xs : List α) : (rasterRows w h xs).length = h := by
  induction h generalizing xs with
  | zero => rfl
  | succ h ih => rw [rasterRows, List.length_cons, ih]

theorem length_of_mem_rasterRows {α : Type} {w h : Nat} {xs row : List α} (hlen : xs.length = w * h)
    (hrow : row ∈ rasterRows w h xs) : row.length = w := by
  induction h generalizing xs with
  | zero => nomatch hrow
  | succ h ih =>
    rw [Nat.mul_succ] at hlen
    rcases List.mem_cons.1 hrow with rfl | hmem
    · rw [List.length_take, hlen, Nat.min_eq_left (Nat.le_add_left _ _)]
    · exact ih (by rw [List.length_drop, hlen, Nat.add_sub_cancel]) hmem

theorem rasterRows_flatten {α : Type} {w h : Nat} {xs : List α} (hlen : xs.length = w * h) :
    (rasterRows w h xs).flatten = xs := by
  induction h generalizing xs with
  | zero => exact (List.eq_nil_of_length_eq_zero hlen).symm
  | succ h ih =>
    rw [Nat.mul_succ] at hlen
    rw [rasterRows, List.flatten_cons, ih (by rw [List.length_drop, hlen, Nat.add_sub_cancel]),
      List.take_append_drop]

/-- R128, R136 (b): what the encoder writes for a scanline is one RLE scanline. -/
theorem rleScanline_scanlineBytes {w : Nat} {qs : List Quad} (hlen : qs.length = w) :
    RleScanline w (scanlineBytes w qs) qs := by
  have hplane : ∀ f : Quad → Byte, expandPlane w (encodePlane (qs.map f)) = some (qs.map f, []) := fun f => by
    have hdec := encodedPlaneDecodes (qs.map f) []
    rwa [List.append_nil, List.length_map, hlen] at hdec
  exact ⟨hlen, _, _, _, _, rfl, hplane _, hplane _, hplane _, hplane _⟩

/-- R145: what the encoder writes for an image is scanline data of its quads. -/
theorem exists_imageData {w h : Nat} {qs : List Quad} (hlen : qs.length = w * h) :
    ∃ rows flat, ImageData w h rows flat ∧ imageDataBytes rows flat = imageBytes w h qs ∧
      imageDataQuads rows flat = qs := by
  by_cases hrle : rleOk w
  · refine ⟨(rasterRows w h qs).map fun row => (scanlineBytes w row, row), [], ⟨?_, ?_, ?_, nofun, ?_⟩, ?_, ?_⟩
    · rintro _ hmem
      obtain ⟨row, hrow, rfl⟩ := List.mem_map.1 hmem
      exact rleScanline_scanlineBytes (length_of_mem_rasterRows hlen hrow)
    · rw [List.length_map, rasterRows_length]
    · rw [List.length_map, rasterRows_length, Nat.sub_self, Nat.zero_mul, List.length_nil]
    · exact fun hno => absurd hrle hno
    · rw [imageBytes_of_rleOk hrle, imageDataBytes, List.flatMap_map]
      exact List.append_nil _
    · rw [imageDataQuads, List.append_nil, List.flatMap_map]
      exact List.flatMap_id'.trans (rasterRows_flatten hlen)
  · refine ⟨[], qs, ⟨nofun, Nat.zero_le _, ?_, fun h => absurd h hrle, fun _ => rfl⟩, ?_, rfl⟩
    · rw [hlen, Nat.mul_comm]
      rfl
    · rw [imageBytes_of_not_rleOk hrle]
      rfl

/-- Settles O27: IMG_DEC on scanline data, and what IMG_ENC writes is scanline data of the encoded pixels. -/
theorem imageRoundTrip : Obligations.ImageRoundTrip := by
  refine ⟨fun s rows flat rest hidle hhost hw hh hdata hbin hready =>
    imgDec_runsTo hidle hhost hw hh hdata hbin hready, ?_⟩
  intro s1 s2 ps rest1 rest2 hidle1 hhost1 hw hh hlen hpin hready1 hreject hidle2 hhost2 hw2 hh2 hready2
  obtain ⟨m, henc, -⟩ := imageEncodeWritesScanlineData s1 ps rest1 hidle1 hhost1 hw hh hlen hpin hready1 hreject
  refine ⟨_, _, henc, rfl, rfl, rfl, fun hbin => ?_⟩
  have hquads : (ps.map fun p => decodeQuad (encodePixel p)) = (ps.map encodePixel).map decodeQuad :=
    (List.map_map (f := encodePixel) (g := decodeQuad)).symm
  have hcount : (ps.map encodePixel).length = s2.w * s2.h := by rw [List.length_map, hlen, hw2, hh2]
  rw [hquads]
  rw [← hw2, ← hh2] at hbin
  generalize ps.map encodePixel = qs at hbin hcount ⊢
  obtain ⟨rows, flat, hdata, hbytes, rfl⟩ := exists_imageData hcount
  rw [← hbytes] at hbin
  obtain ⟨m2, hdec, -⟩ := imgDec_runsTo hidle2 hhost2 (hw2 ▸ hw) (hh2 ▸ hh) hdata hbin hready2
  exact ⟨_, hdec, rfl, rfl, rfl, rfl⟩

end Sys2Proof.Machine
end
